-- ==== Sys2Proof/Word.lean ====
section
/-! DEFINITION. The words of the block: bytes, byte sequences and the fixed widths its ports use
(spec/00_scope.md section 6.1). -/

namespace Sys2Proof

/-- A byte: an unsigned integer 0 to 255, bit 7 its most significant bit (R43). -/
abbrev Byte := BitVec 8

/-- A finite sequence of bytes; `b[i]` is the byte at offset `i`, offsets from 0. -/
abbrev Bytes := List Byte

/-- A nibble, half of a combined byte (R43, R58). -/
abbrev Nibble := BitVec 4

/-- A 32-bit port word. -/
abbrev Word32 := BitVec 32

/-- The 21-bit selector word (R50). -/
abbrev Sel := BitVec 21

end Sys2Proof
end

