-- ==== Sys2Proof/Config.lean ====
section
/-! DEFINITION. The implementation parameters of spec/00_scope.md section 5. All are constants but the two the
spec leaves open, `INNER_VOLT_NIBBLE` and `ENC_ALT_SIGNED`, which a model takes as arguments: they form `Params`. -/

namespace Sys2Proof

/-- Which nibble of the inner combined byte of EncryptedBinary is the voltage (`INNER_VOLT_NIBBLE`, D16). -/
inductive NibbleSide where
  | low
  | high
  deriving DecidableEq, Repr

/-- The two parameters the spec leaves open (D16, D18). -/
structure Params where
  /-- `INNER_VOLT_NIBBLE`: default low (R58, R126). -/
  innerVoltNibble : NibbleSide
  /-- `ENC_ALT_SIGNED`: whether DEC_ENC_BIN sign-extends its altitude; default false (R129). -/
  encAltSigned : Bool
  deriving DecidableEq, Repr

/-- The defaults the spec gives the open parameters (spec/00 section 5). -/
def Params.default : Params := { innerVoltNibble := .low, encAltSigned := false }

namespace Config

/-- `GEO_SCALE`: units per degree of the geo integer. -/
def geoScale : Nat := 10000
/-- `GEO_BITS`: width of the geo integer, two's complement. -/
def geoBits : Nat := 24
/-- The least geo integer, `-2^23` (R87). -/
def geoMin : Int := -8388608
/-- The greatest geo integer, `2^23 - 1` (R87). -/
def geoMax : Int := 8388607
/-- `VOLT_OFFSET`: added to the nibble. -/
def voltOffset : Nat := 27
/-- `VOLT_STEP_MV`: millivolts per nibble step. -/
def voltStepMv : Nat := 100
/-- The least voltage VOLT_ENC accepts, in millivolts (R96). -/
def voltMinMv : Nat := 2700
/-- The greatest voltage VOLT_ENC accepts, in millivolts (R96). -/
def voltMaxMv : Nat := 4200
/-- `LEN_PS`: bytes of a PlaintextShort frame. -/
def lenPS : Nat := 15
/-- `LEN_PX`: bytes of a PlaintextExtended frame. -/
def lenPX : Nat := 18
/-- `LEN_EB`: bytes of an EncryptedBinary frame. -/
def lenEB : Nat := 25
/-- `BLOB_LEN`: bytes of the decoded base64 blob and of the AES block. -/
def blobLen : Nat := 16
/-- `CSUM_LEN`: bytes summed by the integrity rule, offsets 0 to 14 inclusive (D14). -/
def csumLen : Nat := 15
/-- `IN_BUF_BYTES`: capacity of the input byte buffer (D3). -/
def inBufBytes : Nat := 64
/-- `KEY_BUF_BYTES`: capacity of the key buffer (D4). -/
def keyBufBytes : Nat := 32
/-- `ID_MAX_DIGITS`: most decimal digits of a text-mode identifier (D20). -/
def idMaxDigits : Nat := 10
/-- The length of the base64 blob with its padding (`B64_PAD_REQUIRED`, D22; R56). -/
def b64Len : Nat := 24

end Config
end Sys2Proof
end

