-- ==== Sys2Proof/Syntax.lean ====
section
/-! DEFINITION. The names the spec uses (kinds, variants, errors, the classification result) and the instructions:
one constructor of `Instr` per row of spec/opcode_table.json. -/

namespace Sys2Proof

/-- `in_kind`: whether the transmission is a binary frame or a text line (R14). -/
inductive InKind where
  /-- 0 BINARY. -/
  | binary
  /-- 1 TEXT. -/
  | text
  deriving DecidableEq, Repr

/-- The decode path the classifier selects; codes 0 to 3 in this order (R17, R75, D6). -/
inductive Variant where
  | plaintextShort
  | plaintextExtended
  | encryptedBinary
  | encryptedText
  deriving DecidableEq, Repr

/-- How `lat_bits` and `lon_bits` are to be read (R19). -/
inductive CoordFmt where
  /-- 0: a 32-bit two's complement number of 1/10000 degrees. -/
  | fixedE4
  /-- 1: an IEEE-754 binary32 bit pattern. -/
  | f32
  deriving DecidableEq, Repr

/-- The typed errors, a closed list (R170); codes 1 to 7 in this order. -/
inductive ErrorKind where
  /-- `FormatError::UnrecognizedLength`. -/
  | unrecognizedLength
  /-- `FormatError::VoltageOutOfRange`. -/
  | voltageOutOfRange
  /-- `FormatError::Base64Invalid`. -/
  | base64Invalid
  /-- `CryptoError::DecryptFailed`. -/
  | decryptFailed
  /-- `IntegrityError::ChecksumMismatch`. -/
  | checksumMismatch
  /-- `RangeError::CoordinateOutOfRange`, the spec's own (R179). -/
  | coordinateOutOfRange
  /-- `RequestError::IllegalRequest`, the spec's own (R179). -/
  | illegalRequest
  deriving DecidableEq, Repr

/-- The classification result, `Class` in the spec (R75): for EncryptedText it carries the two identifiers and the decoded blob, so
that the line is parsed once (D33). -/
inductive PacketClass where
  | plaintextShort
  | plaintextExtended
  | encryptedBinary
  | encryptedText (id1 id2 : Word32) (blob : Bytes)
  deriving DecidableEq, Repr

/-- The instructions: the rows of spec/opcode_table.json over `SEL = op : in_kind : in_len` (R50). A row's variable
selector bits are the constructor's operands; `decEncText` carries what classification computed (R75, R150). -/
inductive Instr where
  /-- DEC_PLAIN_SHORT: DECODE of a BINARY transmission of 15 bytes (R113). -/
  | decPlainShort
  /-- DEC_PLAIN_EXT: DECODE of a BINARY transmission of 18 bytes (R114). -/
  | decPlainExt
  /-- DEC_ENC_BIN: DECODE of a BINARY transmission of 25 bytes (R123). -/
  | decEncBin
  /-- DEC_ENC_TEXT: DECODE of a TEXT line that ClassifyTxt accepts (R150). -/
  | decEncText (id1 id2 : Word32) (blob : Bytes)
  /-- DECODE, the fall-through row of `op = 0` (R73). -/
  | decode (kind : InKind) (len : BitVec 16)
  /-- CLASSIFY, `op = 1` (R72). -/
  | classify (kind : InKind) (len : BitVec 16)
  /-- GEO_DEC, `op = 2` (R85); `in_kind` ignored. -/
  | geoDec (kind : InKind) (len : BitVec 16)
  /-- GEO_ENC, `op = 3` (R86); `in_kind`, `in_len` ignored. -/
  | geoEnc (kind : InKind) (len : BitVec 16)
  /-- VOLT_DEC, `op = 4` (R95); `in_kind`, `in_len` ignored. -/
  | voltDec (kind : InKind) (len : BitVec 16)
  /-- VOLT_ENC, `op = 5` (R96); `in_kind`, `in_len` ignored. -/
  | voltEnc (kind : InKind) (len : BitVec 16)
  /-- CSUM_SUM, `op = 6` (R106); `in_kind` ignored. -/
  | csumSum (kind : InKind) (len : BitVec 16)
  /-- CSUM_VERIFY, `op = 7` (R107); `in_kind` ignored. -/
  | csumVerify (kind : InKind) (len : BitVec 16)
  deriving DecidableEq, Repr

end Sys2Proof
end

