-- ==== Sys2Proof/Machine/Operands.lean ====
section
/-! DEFINITION. How fields are assembled from bytes: every layout field of spec/30_encoding.md R59 with its own byte
order (R33, R34), and the notation of spec/00_scope.md section 6.1 (`LE`, `BE`, `S_W`, `sext`, `zext`, nibbles). -/

namespace Sys2Proof.Machine

/-- `b[i]`, the byte at offset `i`. Every rule reads below the length it has established (R32). -/
def byteAt (b : Bytes) (i : Nat) : Byte := b.getD i 0

/-- The `n` bytes from offset `off`: `b[off..off+n-1]`. -/
def slice (b : Bytes) (off n : Nat) : Bytes := (b.drop off).take n

/-- `LE(b)`: least significant byte first. -/
def le : Bytes → Nat
  | [] => 0
  | b :: bs => b.toNat + 256 * le bs

/-- `BE(b)`: most significant byte first. -/
def be (b : Bytes) : Nat := b.foldl (fun acc x => acc * 256 + x.toNat) 0

/-- `S_W(v)`: the signed reading of a `W`-bit pattern (R44). -/
def signedReading {w : Nat} (v : BitVec w) : Int :=
  if v.msb then (v.toNat : Int) - 2 ^ w else v.toNat

/-- A little-endian 32-bit field at `off`: identifiers of F-PS and F-PX, the binary32 patterns of F-ETI (R34). -/
def le32 (b : Bytes) (off : Nat) : Word32 := BitVec.ofNat 32 (le (slice b off 4))

/-- A big-endian 32-bit field at `off`: the identifiers of F-EB (R34, R124). -/
def be32 (b : Bytes) (off : Nat) : Word32 := BitVec.ofNat 32 (be (slice b off 4))

/-- A little-endian 16-bit field at `off`: altitudes, and the battery of F-ETI (R34, D23). -/
def le16 (b : Bytes) (off : Nat) : BitVec 16 := BitVec.ofNat 16 (le (slice b off 2))

/-- `sext_32(S_16(v))`: the altitude of PlaintextExtended (R114). -/
def sext32 (v : BitVec 16) : Word32 := BitVec.ofInt 32 (signedReading v)

/-- `zext_32(v)`: the altitude of EncryptedBinary (R129). -/
def zext32 (v : BitVec 16) : Word32 := BitVec.ofNat 32 v.toNat

/-- The high nibble of a byte, `(c >> 4) & 0xF`. -/
def hiNibble (c : Byte) : Nibble := BitVec.ofNat 4 ((c.toNat >>> 4) &&& 0xF)

/-- The low nibble of a byte, `c & 0xF`. -/
def loNibble (c : Byte) : Nibble := BitVec.ofNat 4 (c.toNat &&& 0xF)

/-- The combined version/voltage byte of F-PS and F-PX: version high, voltage low (R58, R97). -/
def unpack (c : Byte) : Nibble × Nibble := (hiNibble c, loNibble c)

/-- The two nibbles packed into a combined byte; used only to build frames (R97). -/
def pack (version nibble : Nibble) : Byte := BitVec.ofNat 8 ((version.toNat <<< 4) ||| nibble.toNat)

/-- The inner combined byte of F-EBI under `INNER_VOLT_NIBBLE`: `high` swaps the two nibbles (R58, R126). -/
def unpackInner (p : Params) (c : Byte) : Nibble × Nibble :=
  match p.innerVoltNibble with
  | .low => (hiNibble c, loNibble c)
  | .high => (loNibble c, hiNibble c)

end Sys2Proof.Machine
end

