-- ==== Sys2Proof/Machine/Classify.lean ====
section
/-! DEFINITION. The classifier as a function: ClassifyBin (R70), ClassifyTxt (R71), and the primitives on a text line,
DecU32 (R152), B64Val and B64Dec16 (R153). -/

namespace Sys2Proof.Machine

/-- The comma, byte 2C (R56). -/
def commaByte : Byte := 0x2C

/-- The padding character `=`, byte 3D (R153). -/
def padByte : Byte := 0x3D

/-- `ClassifyBin(in_len)`: the length alone decides (R70). -/
def classifyBin (len : Nat) : Except ErrorKind PacketClass :=
  if len = Config.lenPS then .ok .plaintextShort
  else if len = Config.lenPX then .ok .plaintextExtended
  else if len = Config.lenEB then .ok .encryptedBinary
  else .error .unrecognizedLength

/-- The value of an ASCII digit `0` to `9` (R152). -/
def digitVal (c : Byte) : Option Nat :=
  if 0x30 ≤ c.toNat ∧ c.toNat ≤ 0x39 then some (c.toNat - 0x30) else none

/-- The loop of `DecU32`: `v * 10 + digit`, failing at the first byte that is no digit (R152). -/
def decDigits : Nat → Bytes → Option Nat
  | v, [] => some v
  | v, c :: cs =>
    match digitVal c with
    | none => none
    | some d => decDigits (v * 10 + d) cs

/-- `DecU32`: 1 to 10 digits of value at most 2^32 - 1; leading zeros allowed (R152, D20). -/
def decU32 (f : Bytes) : Option Word32 :=
  if f.length < 1 ∨ f.length > Config.idMaxDigits then none
  else
    match decDigits 0 f with
    | none => none
    | some v => if v > 4294967295 then none else some (BitVec.ofNat 32 v)

/-- `B64Val`: the value of a character of the standard alphabet (R153). -/
def b64Val (c : Byte) : Option Nat :=
  let n := c.toNat
  if 0x41 ≤ n ∧ n ≤ 0x5A then some (n - 0x41)
  else if 0x61 ≤ n ∧ n ≤ 0x7A then some (n - 0x61 + 26)
  else if 0x30 ≤ n ∧ n ≤ 0x39 then some (n - 0x30 + 52)
  else if n = 0x2B then some 62
  else if n = 0x2F then some 63
  else none

/-- The loop of `B64Dec16`: six bits a character, most significant first (R153). -/
def b64Acc : Nat → Bytes → Option Nat
  | acc, [] => some acc
  | acc, c :: cs =>
    match b64Val c with
    | none => none
    | some d => b64Acc ((acc <<< 6) ||| d) cs

/-- The 16 bytes of a number, most significant first: `out[j] = (acc >> (8*(15-j))) & 0xFF` (R153). -/
def blockOfNat (acc : Nat) : Bytes := (List.range Config.blobLen).map fun j => BitVec.ofNat 8 (acc >>> (8 * (15 - j)))

/-- `B64Dec16`: exactly 22 characters of the alphabet and `==`; the 4 surplus bits of the 22nd are dropped (R153, D22). -/
def b64Dec16 (f : Bytes) : Option Bytes :=
  if f.length ≠ Config.b64Len then none
  else if byteAt f 22 ≠ padByte ∨ byteAt f 23 ≠ padByte then none
  else
    match b64Acc 0 (slice f 0 22) with
    | none => none
    | some acc => some (blockOfNat (acc >>> 4))

/-- The least offset that holds a comma (R71 step 3). -/
def firstComma (line : Bytes) : Nat := line.findIdx (· == commaByte)

/-- The greatest offset that holds a comma (R71 step 3). -/
def lastComma (line : Bytes) : Nat := line.length - 1 - line.reverse.findIdx (· == commaByte)

/-- `ClassifyTxt(in_len, IN)`, steps 1 to 6 of R71; `line` is `IN[0 .. in_len-1]`, not looked at when the line is
longer than the buffer. -/
def classifyTxt (len : Nat) (line : Bytes) : Except ErrorKind PacketClass :=
  if len > Config.inBufBytes then .error .unrecognizedLength
  else if line.count commaByte ≠ 2 then .error .unrecognizedLength
  else
    let p1 := firstComma line
    let p2 := lastComma line
    let f1 := slice line 0 p1
    let f2 := slice line (p1 + 1) (p2 - (p1 + 1))
    let f3 := line.drop (p2 + 1)
    match decU32 f1, decU32 f2 with
    | some a, some b =>
      match b64Dec16 f3 with
      | some blob => .ok (.encryptedText a b blob)
      | none => .error .base64Invalid
    | _, _ => .error .unrecognizedLength

/-- Classification by the kind of the transmission (R72, R73). -/
def classifyBytes (kind : InKind) (len : Nat) (line : Bytes) : Except ErrorKind PacketClass :=
  match kind with
  | .binary => classifyBin len
  | .text => classifyTxt len line

/-- How many bytes of IN classification reads: none of a binary frame or of a line longer than the buffer, else the
whole line (R70, R71, R38). -/
def classifyReads (kind : InKind) (len : Nat) : Nat :=
  match kind with
  | .binary => 0
  | .text => if len > Config.inBufBytes then 0 else len

end Sys2Proof.Machine
end

