-- ==== Sys2Proof/Machine/Aes.lean ====
section
/-! DEFINITION. The AES single-block decryption primitive AES_ECB_DEC (R135) and what it is made of: GF(2^8) (R137), the
two S-boxes (R138, R139), the state (R140), the key schedule (R141), the inverse cipher (R142 to R146), and the forward
cipher, which no operation calls and which only builds test frames (R147). The spec supplied the algorithm from general
knowledge (spec/93 G1): log 10. -/

namespace Sys2Proof.Machine

/-- `xtime`: multiplication by x modulo x^8 + x^4 + x^3 + x + 1 (R137). -/
def xtime (a : Byte) : Byte :=
  let t := a.toNat <<< 1
  BitVec.ofNat 8 ((if t &&& 0x100 != 0 then t ^^^ 0x11B else t) &&& 0xFF)

/-- The loop of `gmul`, at most `n` rounds: a byte `b` is zero after 8 (R137). -/
def gmulLoop : Nat → Byte → Byte → Byte → Byte
  | 0, _, _, r => r
  | n + 1, a, b, r => gmulLoop n (xtime a) (b >>> 1) (if b &&& 1#8 = 1#8 then r ^^^ a else r)

/-- `gmul(a, b)`: the product in GF(2^8) (R137). -/
def gmul (a b : Byte) : Byte := gmulLoop 8 a b 0

/-- The S-box table, one literal per row of R138: byte `c` of a row, leftmost first, is column `c`. -/
def sboxRows : List (BitVec 128) :=
  [ 0x637C777BF26B6FC53001672BFED7AB76#128,
    0xCA82C97DFA5947F0ADD4A2AF9CA472C0#128,
    0xB7FD9326363FF7CC34A5E5F171D83115#128,
    0x04C723C31896059A071280E2EB27B275#128,
    0x09832C1A1B6E5AA0523BD6B329E32F84#128,
    0x53D100ED20FCB15B6ACBBE394A4C58CF#128,
    0xD0EFAAFB434D338545F9027F503C9FA8#128,
    0x51A3408F929D38F5BCB6DA2110FFF3D2#128,
    0xCD0C13EC5F974417C4A77E3D645D1973#128,
    0x60814FDC222A908846EEB814DE5E0BDB#128,
    0xE0323A0A4906245CC2D3AC629195E479#128,
    0xE7C8376D8DD54EA96C56F4EA657AAE08#128,
    0xBA78252E1CA6B4C6E8DD741F4BBD8B8A#128,
    0x703EB5664803F60E613557B986C11D9E#128,
    0xE1F8981169D98E949B1E87E9CE5528DF#128,
    0x8CA1890DBFE6426841992D0FB054BB16#128 ]

/-- The inverse S-box table, one literal per row of R139. -/
def invSboxRows : List (BitVec 128) :=
  [ 0x52096AD53036A538BF40A39E81F3D7FB#128,
    0x7CE339829B2FFF87348E4344C4DEE9CB#128,
    0x547B9432A6C2233DEE4C950B42FAC34E#128,
    0x082EA16628D924B2765BA2496D8BD125#128,
    0x72F8F66486689816D4A45CCC5D65B692#128,
    0x6C704850FDEDB9DA5E154657A78D9D84#128,
    0x90D8AB008CBCD30AF7E45805B8B34506#128,
    0xD02C1E8FCA3F0F02C1AFBD0301138A6B#128,
    0x3A9111414F67DCEA97F2CFCEF0B4E673#128,
    0x96AC7422E7AD3585E2F937E81C75DF6E#128,
    0x47F11A711D29C5896FB7620EAA18BE1B#128,
    0xFC563E4BC6D279209ADBC0FE78CD5AF4#128,
    0x1FDDA8338807C731B11210592780EC5F#128,
    0x60517FA919B54A0D2DE57A9F93C99CEF#128,
    0xA0E03B4DAE2AF5B0C8EBBB3C83539961#128,
    0x172B047EBA77D626E169146355210C7D#128 ]

/-- An entry of a table: row = high nibble, column = low nibble (R138). -/
def tableEntry (rows : List (BitVec 128)) (a : Byte) : Byte :=
  BitVec.ofNat 8 ((rows.getD (a.toNat >>> 4) 0).toNat >>> (8 * (15 - (a.toNat &&& 0xF))))

/-- `SBOX[a]` (R138). -/
def sbox (a : Byte) : Byte := tableEntry sboxRows a

/-- `INV_SBOX[a]` (R139). -/
def invSbox (a : Byte) : Byte := tableEntry invSboxRows a

/-- A column of the state, top to bottom, and a word of the key schedule (R140, R141). -/
structure Column where
  r0 : Byte
  r1 : Byte
  r2 : Byte
  r3 : Byte
  deriving DecidableEq, Repr

/-- The 4-row, 4-column state (R140). -/
structure AesState where
  c0 : Column
  c1 : Column
  c2 : Column
  c3 : Column
  deriving DecidableEq, Repr

/-- The column whose rows are given by a function of one byte each. -/
def Column.map (f : Byte → Byte) (w : Column) : Column := ⟨f w.r0, f w.r1, f w.r2, f w.r3⟩

/-- Byte-wise exclusive or of two words (R141, R142). -/
def Column.xor (a b : Column) : Column := ⟨a.r0 ^^^ b.r0, a.r1 ^^^ b.r1, a.r2 ^^^ b.r2, a.r3 ^^^ b.r3⟩

/-- Four bytes of a sequence as a word: `[b[i], b[i+1], b[i+2], b[i+3]]`. -/
def Column.ofBytes (b : Bytes) (i : Nat) : Column := ⟨byteAt b i, byteAt b (i + 1), byteAt b (i + 2), byteAt b (i + 3)⟩

/-- The bytes of a word, first to last. -/
def Column.toBytes (w : Column) : Bytes := [w.r0, w.r1, w.r2, w.r3]

/-- The state from 16 input bytes, column by column: `s[r][c] = in[r + 4c]` (R140). -/
def AesState.ofBytes (b : Bytes) : AesState :=
  ⟨Column.ofBytes b 0, Column.ofBytes b 4, Column.ofBytes b 8, Column.ofBytes b 12⟩

/-- The output bytes, read the same way: `out[r + 4c] = s[r][c]` (R140). -/
def AesState.toBytes (s : AesState) : Bytes := s.c0.toBytes ++ s.c1.toBytes ++ s.c2.toBytes ++ s.c3.toBytes

/-- The state each of whose columns is the image of that column. -/
def AesState.mapColumns (f : Column → Column) (s : AesState) : AesState := ⟨f s.c0, f s.c1, f s.c2, f s.c3⟩

/-- `Nk` and `Nr` by the length of the key in bytes; no other length is a key (R136). -/
def aesParams : Nat → Option (Nat × Nat)
  | 16 => some (4, 10)
  | 24 => some (6, 12)
  | 32 => some (8, 14)
  | _ => none

/-- `Rcon(j)`: `Rcon(1) = 01`, `Rcon(j+1) = xtime(Rcon(j))` (R141). -/
def rcon : Nat → Byte
  | 0 => 0
  | 1 => 1
  | j + 1 => xtime (rcon j)

/-- `RotWord` (R141). -/
def rotWord (w : Column) : Column := ⟨w.r1, w.r2, w.r3, w.r0⟩

/-- `SubWord` (R141). -/
def subWord (w : Column) : Column := w.map sbox

/-- Word `i` of a schedule; every rule reads a word that exists. -/
def wordAt (w : List Column) (i : Nat) : Column := w.getD i ⟨0, 0, 0, 0⟩

/-- The word `t` that is added to `w[i-Nk]` to make `w[i]` (R141). -/
def scheduleTemp (nk i : Nat) (prev : Column) : Column :=
  if i % nk = 0 then (subWord (rotWord prev)).xor ⟨rcon (i / nk), 0, 0, 0⟩
  else if nk > 6 ∧ i % nk = 4 then subWord prev
  else prev

/-- `n` further words of the schedule, after the words `w` (R141). -/
def expandWords (nk : Nat) : Nat → List Column → List Column
  | 0, w => w
  | n + 1, w =>
    let i := w.length
    expandWords nk n (w ++ [(wordAt w (i - nk)).xor (scheduleTemp nk i (wordAt w (i - 1)))])

/-- `KeyExpansion(key)`: the words `w[0 .. 4*(Nr+1)-1]` (R141). -/
def keyExpansion (nk nr : Nat) (key : Bytes) : List Column :=
  expandWords nk (4 * (nr + 1) - nk) ((List.range nk).map fun i => Column.ofBytes key (4 * i))

/-- `AddRoundKey(s, w, round)`: word `4*round + c` onto column `c` (R142). -/
def addRoundKey (s : AesState) (w : List Column) (round : Nat) : AesState :=
  ⟨s.c0.xor (wordAt w (4 * round)), s.c1.xor (wordAt w (4 * round + 1)),
   s.c2.xor (wordAt w (4 * round + 2)), s.c3.xor (wordAt w (4 * round + 3))⟩

/-- `InvShiftRows`: row `r` rotated right by `r`, `s'[r][c] = s[r][(c - r) mod 4]` (R143). -/
def invShiftRows (s : AesState) : AesState :=
  ⟨⟨s.c0.r0, s.c3.r1, s.c2.r2, s.c1.r3⟩, ⟨s.c1.r0, s.c0.r1, s.c3.r2, s.c2.r3⟩,
   ⟨s.c2.r0, s.c1.r1, s.c0.r2, s.c3.r3⟩, ⟨s.c3.r0, s.c2.r1, s.c1.r2, s.c0.r3⟩⟩

/-- `InvSubBytes`: every byte through the inverse S-box (R144). -/
def invSubBytes (s : AesState) : AesState := s.mapColumns (Column.map invSbox)

/-- One column of `InvMixColumns` (R145). -/
def invMixColumn (a : Column) : Column :=
  ⟨gmul a.r0 0x0E ^^^ gmul a.r1 0x0B ^^^ gmul a.r2 0x0D ^^^ gmul a.r3 0x09,
   gmul a.r0 0x09 ^^^ gmul a.r1 0x0E ^^^ gmul a.r2 0x0B ^^^ gmul a.r3 0x0D,
   gmul a.r0 0x0D ^^^ gmul a.r1 0x09 ^^^ gmul a.r2 0x0E ^^^ gmul a.r3 0x0B,
   gmul a.r0 0x0B ^^^ gmul a.r1 0x0D ^^^ gmul a.r2 0x09 ^^^ gmul a.r3 0x0E⟩

/-- `InvMixColumns` (R145). -/
def invMixColumns (s : AesState) : AesState := s.mapColumns invMixColumn

/-- The rounds `n, n-1, .., 1` of `InvCipher` (R146). -/
def invRounds (w : List Column) : Nat → AesState → AesState
  | 0, s => s
  | n + 1, s => invRounds w n (invMixColumns (addRoundKey (invSubBytes (invShiftRows s)) w (n + 1)))

/-- `InvCipher(in, w)` with `Nr` rounds (R146). -/
def invCipher (nr : Nat) (block : Bytes) (w : List Column) : Bytes :=
  let s := addRoundKey (AesState.ofBytes block) w nr
  let s := invRounds w (nr - 1) s
  (addRoundKey (invSubBytes (invShiftRows s)) w 0).toBytes

/-- `SubBytes` (R147). -/
def subBytes (s : AesState) : AesState := s.mapColumns (Column.map sbox)

/-- `ShiftRows`: row `r` rotated left by `r`, `s'[r][c] = s[r][(c + r) mod 4]` (R147). -/
def shiftRows (s : AesState) : AesState :=
  ⟨⟨s.c0.r0, s.c1.r1, s.c2.r2, s.c3.r3⟩, ⟨s.c1.r0, s.c2.r1, s.c3.r2, s.c0.r3⟩,
   ⟨s.c2.r0, s.c3.r1, s.c0.r2, s.c1.r3⟩, ⟨s.c3.r0, s.c0.r1, s.c1.r2, s.c2.r3⟩⟩

/-- One column of `MixColumns` (R147). -/
def mixColumn (a : Column) : Column :=
  ⟨gmul a.r0 2 ^^^ gmul a.r1 3 ^^^ a.r2 ^^^ a.r3, a.r0 ^^^ gmul a.r1 2 ^^^ gmul a.r2 3 ^^^ a.r3,
   a.r0 ^^^ a.r1 ^^^ gmul a.r2 2 ^^^ gmul a.r3 3, gmul a.r0 3 ^^^ a.r1 ^^^ a.r2 ^^^ gmul a.r3 2⟩

/-- `MixColumns` (R147). -/
def mixColumns (s : AesState) : AesState := s.mapColumns mixColumn

/-- The rounds `1 .. n` of `Cipher` (R147). -/
def fwdRounds (w : List Column) : Nat → AesState → AesState
  | 0, s => s
  | n + 1, s => addRoundKey (mixColumns (shiftRows (subBytes (fwdRounds w n s)))) w (n + 1)

/-- `Cipher(in, w)` with `Nr` rounds, needed only to build test frames (R147). -/
def fwdCipher (nr : Nat) (block : Bytes) (w : List Column) : Bytes :=
  let s := addRoundKey (AesState.ofBytes block) w 0
  let s := fwdRounds w (nr - 1) s
  (addRoundKey (shiftRows (subBytes s)) w nr).toBytes

/-- A key as presented: its true length and the bytes of it that the key buffer holds (R14, R73). -/
structure SuppliedKey where
  len : Nat
  bytes : Bytes
  deriving DecidableEq, Repr

/-- `AES_ECB_DEC(key, ct)`: an absent key and every length but 16, 24, 32 are refused by the length alone (R135). -/
def aesEcbDec (key : Option SuppliedKey) (ct : Bytes) : Except ErrorKind Bytes :=
  match key with
  | none => .error .decryptFailed
  | some k =>
    match aesParams k.len with
    | none => .error .decryptFailed
    | some (nk, nr) => .ok (invCipher nr ct (keyExpansion nk nr k.bytes))

end Sys2Proof.Machine
end

