-- ==== Sys2Proof/Machine/State.lean ====
section
/-! DEFINITION. What the machine holds: the ports of a transaction (the request R14, the response R17 and R19), the two
open parameters, and, the MODEL's own, the host's requests not yet taken and the responses delivered (logs 1 and 3).
The block itself keeps nothing between transactions (R10 to R13, R23). -/

namespace Sys2Proof.Machine

/-- A read-only byte space (R30) as the host presents it: cells (offset, byte) with offsets strictly rising and no
cell that holds 00, which is what an offset nobody listed reads as (log 5). -/
abbrev Memory := List Host.Cell

/-- The request ports (R14): inputs, read-only to the block. -/
structure Request where
  /-- Operation selector, 4 bits (R50). -/
  op : BitVec 4
  /-- 1 bit: BINARY or TEXT. -/
  inKind : InKind
  /-- True length in bytes of the transmission, even when it exceeds the buffer. -/
  inLen : BitVec 16
  /-- The space IN: the first 64 bytes of the transmission. -/
  inData : Memory
  /-- Length in bytes of the key; 0 = absent (D4). -/
  keyLen : BitVec 6
  /-- The space KEY: the first 32 bytes of the key. -/
  keyData : Memory
  /-- Scalar operand of GEO_ENC, VOLT_DEC and VOLT_ENC (R67). -/
  arg : Word32
  deriving DecidableEq, Repr

/-- DecodedTelemetry in port form (R19). -/
structure Record where
  id1 : Word32
  id2 : Word32
  hasVersion : Bool
  packetVersion : Nibble
  batteryMv : BitVec 16
  coordFmt : CoordFmt
  latBits : Word32
  lonBits : Word32
  hasAltitude : Bool
  altitudeM : Word32
  hasSpeed : Bool
  speedMps : Byte
  hasIntegrity : Bool
  integrityOk : Bool
  deriving DecidableEq, Repr

/-- The record ports all 0: no record (R24, R173). -/
def Record.zero : Record :=
  { id1 := 0, id2 := 0, hasVersion := false, packetVersion := 0, batteryMv := 0, coordFmt := .fixedE4,
    latBits := 0, lonBits := 0, hasAltitude := false, altitudeM := 0, hasSpeed := false, speedMps := 0,
    hasIntegrity := false, integrityOk := false }

/-- The response ports (R17). -/
structure Response where
  /-- 0 = OK, else the code of an error (R170). -/
  status : BitVec 3
  /-- Classification succeeded in a DECODE or CLASSIFY transaction. -/
  variantValid : Bool
  /-- The code of the variant; 0 when `variantValid` is 0. -/
  variant : BitVec 2
  /-- A record is delivered: exactly when a DECODE ends with OK. -/
  recValid : Bool
  /-- The record ports (R19). -/
  record : Record
  /-- Scalar result of the leaf operations (R67). -/
  res : Word32
  deriving DecidableEq, Repr

/-- The response ports outside a transaction: all 0 (R24, R190). -/
def Response.idle : Response :=
  { status := 0, variantValid := false, variant := 0, recValid := false, record := Record.zero, res := 0 }

/-- The request ports when the host has presented nothing: all 0 (log 4). -/
def Request.zero : Request :=
  { op := 0, inKind := .binary, inLen := 0, inData := [], keyLen := 0, keyData := [], arg := 0 }

/-- The machine. -/
structure State where
  /-- The open parameters of the implementation (spec/00 section 5; log 6). No step writes them. -/
  params : Params
  /-- The MODEL's own: the requests the host has issued and the block has not taken, oldest first (log 1). -/
  pending : List Request
  /-- The request ports: the request of the transaction in hand, or of the last one taken. -/
  req : Request
  /-- The response ports. -/
  resp : Response
  /-- The MODEL's own: the responses delivered so far, oldest first (log 3). -/
  delivered : List Response
  deriving DecidableEq, Repr

/-- The two byte spaces an operation reads from its request (R30); PT is a value inside one transaction. -/
inductive Space where
  /-- IN, the input buffer. -/
  | input
  /-- KEY, the key buffer. -/
  | key
  deriving DecidableEq, Repr

/-- Why the machine stops with a fault. -/
inductive Fault where
  /-- R32's assertion: a read of bytes the space does not hold. Raised by the read primitive when a meaning is
  executed on a request that its row does not match (R116, I5). Safe: no step from any state raises it, because the
  decoder selects the row from the same request (R38, R163). -/
  | outsideSpace (space : Space)
  deriving DecidableEq, Repr

/-- Why an instruction has no meaning. -/
inductive Refusal where
  /-- The arm of an instruction that is not modelled yet. Safe. No arm of this model raises it. -/
  | notModelled (mnemonic : String)
  deriving DecidableEq, Repr

/-- The machine right after reset: idle, every port 0, nothing held (R24, R190). -/
def State.reset : State :=
  { params := Params.default, pending := [], req := Request.zero, resp := Response.idle, delivered := [] }

end Sys2Proof.Machine
end

