-- ==== Sys2Proof/Machine/Flags.lean ====
section
/-! DEFINITION. The flag-like outputs of a transaction (spec/10_state.md section 4): the codes of status and variant
(R170, R75), the code of `in_kind` and `coord_fmt`, and the five shapes a response can have (R21, R25, R72, R73,
R173). No flag of one transaction is read by another. -/

namespace Sys2Proof.Machine

/-- The status code of an error (R170, D6). -/
def errorCode : ErrorKind → BitVec 3
  | .unrecognizedLength => 1
  | .voltageOutOfRange => 2
  | .base64Invalid => 3
  | .decryptFailed => 4
  | .checksumMismatch => 5
  | .coordinateOutOfRange => 6
  | .illegalRequest => 7

/-- The code of a variant (R17, R75). -/
def variantCode : Variant → BitVec 2
  | .plaintextShort => 0
  | .plaintextExtended => 1
  | .encryptedBinary => 2
  | .encryptedText => 3

/-- The variant a class stands for (R75). -/
def classVariant : PacketClass → Variant
  | .plaintextShort => .plaintextShort
  | .plaintextExtended => .plaintextExtended
  | .encryptedBinary => .encryptedBinary
  | .encryptedText _ _ _ => .encryptedText

/-- The bit of `in_kind` (R14). -/
def kindBit : InKind → BitVec 1
  | .binary => 0
  | .text => 1

/-- The bit of `coord_fmt` (R19). -/
def coordFmtBit : CoordFmt → BitVec 1
  | .fixedE4 => 0
  | .f32 => 1

/-- The response of a DECODE that delivers a record (R73). -/
def decodedResponse (v : Variant) (rec : Record) : Response :=
  { status := 0, variantValid := true, variant := variantCode v, recValid := true, record := rec, res := 0 }

/-- The response of a CLASSIFY that succeeds (R72). -/
def classifiedResponse (v : Variant) : Response :=
  { status := 0, variantValid := true, variant := variantCode v, recValid := false, record := Record.zero, res := 0 }

/-- The response of a leaf operation that succeeds (R25, R67). -/
def leafResponse (res : Word32) : Response :=
  { status := 0, variantValid := false, variant := 0, recValid := false, record := Record.zero, res := res }

/-- The response of a failed transaction (R173): the code of the error, no record, and the variant only where
classification had established one. -/
def failedResponse (e : ErrorKind) : Option Variant → Response
  | none => { status := errorCode e, variantValid := false, variant := 0, recValid := false, record := Record.zero, res := 0 }
  | some v =>
    { status := errorCode e, variantValid := true, variant := variantCode v, recValid := false, record := Record.zero, res := 0 }

end Sys2Proof.Machine
end

