-- ==== Sys2Proof/Machine/Ops.lean ====
section
/-! DEFINITION. The named operations over the byte spaces, the request and the response: reading (R32), the host's
loading of a buffer, the fetch of a request's encoding, delivering a response, TAKING AN ERROR (R173, R174), idling and
reset (R190). There is no return from an error: nothing is saved (R174). -/

namespace Sys2Proof.Machine

/-- What an offset nobody listed reads as (log 5). -/
def unlistedByte : Byte := 0

/-- The byte at an offset of a space. -/
def Memory.read : Memory → Nat → Byte
  | [], _ => unlistedByte
  | (a, b) :: m, i => if a = i then b else Memory.read m i

/-- The host puts a byte at an offset of a buffer it is about to present; no operation of the block writes (R30, R164).
Keeps the canonical form. -/
def Memory.write : Memory → Nat → Byte → Memory
  | [], i, v => if v = unlistedByte then [] else [(i, v)]
  | (a, b) :: m, i, v =>
    if i < a then (if v = unlistedByte then (a, b) :: m else (i, v) :: (a, b) :: m)
    else if i = a then (if v = unlistedByte then m else (i, v) :: m)
    else (a, b) :: Memory.write m i v

/-- The canonical form: offsets strictly rising, every offset at least `lo` and below `cap`, no cell that holds what an
unlisted offset reads as. -/
def Memory.wfFrom (lo cap : Nat) : Memory → Bool
  | [] => true
  | (a, b) :: m => decide (lo ≤ a) && decide (a < cap) && decide (b ≠ unlistedByte) && Memory.wfFrom (a + 1) cap m

/-- The canonical form of a space of `cap` bytes. -/
def Memory.wf (cap : Nat) (m : Memory) : Bool := Memory.wfFrom 0 cap m

/-- The space that holds the bytes of a sequence from offset `off` on. -/
def Memory.ofBytesAt : Nat → Bytes → Memory
  | _, [] => []
  | off, b :: bs => if b = unlistedByte then Memory.ofBytesAt (off + 1) bs else (off, b) :: Memory.ofBytesAt (off + 1) bs

/-- The space that holds a sequence from offset 0 on: how the host presents a transmission or a key (R31). -/
def Memory.ofBytes (b : Bytes) : Memory := Memory.ofBytesAt 0 b

/-- The `n` bytes at offsets `off .. off+n-1`. -/
def Memory.readBytes (m : Memory) (off n : Nat) : Bytes := (List.range n).map fun k => m.read (off + k)

/-- How many bytes of the transmission are presented: `in_len`, at most 64 (R14, R30). -/
def Request.inSize (r : Request) : Nat := min r.inLen.toNat Config.inBufBytes

/-- How many bytes of the key are presented: `key_len`, at most 32 (R14, R30). -/
def Request.keySize (r : Request) : Nat := min r.keyLen.toNat Config.keyBufBytes

/-- The contents of a space. -/
def Request.space (r : Request) : Space → Memory
  | .input => r.inData
  | .key => r.keyData

/-- The size of a space. -/
def Request.spaceSize (r : Request) : Space → Nat
  | .input => r.inSize
  | .key => r.keySize

/-- `MemRead(space, off, n)` (R32); none where its assertion `off + n <= size(space)` fails. -/
def memRead (r : Request) (sp : Space) (off n : Nat) : Option Bytes :=
  if off + n ≤ r.spaceSize sp then some ((r.space sp).readBytes off n) else none

/-- The key of a request (R73): absent when `key_len` is 0, else the `min(key_len, 32)` presented bytes with the true
length. KEY always holds that many, so the read cannot fail. -/
def Request.key (r : Request) : Option SuppliedKey :=
  if r.keyLen = 0 then none
  else (memRead r .key 0 (min r.keyLen.toNat Config.keyBufBytes)).map fun b => { len := r.keyLen.toNat, bytes := b }

/-- The selector word `op : in_kind : in_len` (R50). -/
def Request.sel (r : Request) : Sel := r.op ++ kindBit r.inKind ++ r.inLen

/-- A selector word as three bytes, least significant first (log 7). -/
def selBytes (sel : Sel) : Bytes :=
  [BitVec.ofNat 8 sel.toNat, BitVec.ofNat 8 (sel.toNat >>> 8), BitVec.ofNat 8 (sel.toNat >>> 16)]

/-- What the decoder is given of a request: the selector and the input buffer (R50, R71). -/
def fetchBytes (r : Request) : Bytes := selBytes r.sel ++ r.inData.readBytes 0 Config.inBufBytes

/-- The bytes of an instruction word of `nbits` bits whose bits are `w`, bit 0 the least significant of the first byte. -/
def wordBytes (nbits w : Nat) : Bytes := (List.range ((nbits + 7) / 8)).map fun k => BitVec.ofNat 8 (w >>> (8 * k))

/-- The request whose selector bits, and after them the bytes of IN, are those of an instruction word; every other
field 0. -/
def requestOfWord (nbits w : Nat) : Request :=
  let b := wordBytes nbits w
  let sel := BitVec.ofNat 21 (le (slice b 0 3))
  { op := sel.extractLsb' 17 4, inKind := if sel.getLsbD 16 then .text else .binary, inLen := sel.extractLsb' 0 16,
    inData := Memory.ofBytes ((b.drop 3).take Config.inBufBytes), keyLen := 0, keyData := [], arg := 0 }

/-- The host issues a request: it waits behind those already issued (R191, R195). -/
def State.issue (s : State) (r : Request) : State := { s with pending := s.pending ++ [r] }

/-- The block takes a request: its fields stand at the request ports for the whole transaction (R14, R193). -/
def State.accept (s : State) (r : Request) (rest : List Request) : State := { s with req := r, pending := rest }

/-- A transaction ends: its response stands at the response ports and counts as delivered (R191, R195). -/
def State.deliver (s : State) (r : Response) : State := { s with resp := r, delivered := s.delivered ++ [r] }

/-- TAKING AN ERROR (R173, R174): the typed error is delivered as the transaction's own response. Nothing is saved,
no vector is entered, and nothing of the error stays behind (R175); `v` is the variant where classification had
established one. -/
def State.raise (s : State) (e : ErrorKind) (v : Option Variant) : State := s.deliver (failedResponse e v)

/-- Nothing is pending: the block is idle and drives its response ports to 0 (R24, R190; log 3). -/
def State.idle (s : State) : State := { s with resp := Response.idle }

/-- The reset event (R190): what is pending or in hand is abandoned without a response, the ports are 0; a response
already delivered was delivered (log 3). -/
def State.takeReset (s : State) : State := { State.reset with params := s.params, delivered := s.delivered }

/-- The result of an operation that can fail, as a response (R17). -/
def responseOf {α : Type} (v : Option Variant) (ok : α → Response) : Except ErrorKind α → Response
  | .ok a => ok a
  | .error e => failedResponse e v

/-- The outcome of one step of this machine. -/
abbrev StepOutcome := Host.Outcome State Fault Refusal

/-- The transaction in hand ends with the given response. -/
def complete (s : State) (r : Response) : StepOutcome := .next (s.deliver r)

/-- The transaction in hand ends with a response computed from the first `n` bytes of IN; R32's assertion fails, and
the machine faults, where IN does not hold them (log 9). -/
def completeFromInput (s : State) (n : Nat) (respond : Bytes → Response) : StepOutcome :=
  match memRead s.req .input 0 n with
  | none => .fault (.outsideSpace .input)
  | some f => complete s (respond f)

end Sys2Proof.Machine
end

