-- ==== Sys2Proof/WellFormed.lean ====
section
/-! DEFINITION. Which terms of `Instr` stand for an encoding. Two checks: the blob of DEC_ENC_TEXT is 16 bytes
(R75, R153), and the fall-through row DECODE does not stand for a request that a more specific row takes
(spec/30_encoding.md section 4: rows 1 to 4 are tried first). -/

namespace Sys2Proof

/-- The lengths of the three binary variants (R70). -/
def binaryLength (len : BitVec 16) : Bool :=
  len.toNat == Config.lenPS || len.toNat == Config.lenPX || len.toNat == Config.lenEB

/-- The check on the operand of DEC_ENC_TEXT: a blob of 16 bytes (R75). -/
def Instr.blobOk : Instr → Bool
  | .decEncText _ _ blob => blob.length == Config.blobLen
  | .decPlainShort | .decPlainExt | .decEncBin | .decode _ _ | .classify _ _ | .geoDec _ _ | .geoEnc _ _
  | .voltDec _ _ | .voltEnc _ _ | .csumSum _ _ | .csumVerify _ _ => true

/-- The check on the operands of the fall-through row: no binary length of another row. -/
def Instr.fallThroughOk : Instr → Bool
  | .decode .binary len => !binaryLength len
  | .decode .text _ => true
  | .decPlainShort | .decPlainExt | .decEncBin | .decEncText _ _ _ | .classify _ _ | .geoDec _ _ | .geoEnc _ _
  | .voltDec _ _ | .voltEnc _ _ | .csumSum _ _ | .csumVerify _ _ => true

/-- A term of `Instr` that some request encodes. -/
def Instr.wellFormed (i : Instr) : Bool := i.blobOk && i.fallThroughOk

end Sys2Proof
end

