-- ==== Sys2Proof/Decode.lean ====
section
/-! DEFINITION. The decoder, total on any bytes, and after it the encoder, both from spec/30_encoding.md R50 and the
twelve rows of spec/opcode_table.json. The bytes of an instruction are the selector, three bytes, least significant
first, and after them the bytes of IN (log 7); a byte that is not there reads as 00 (log 5). -/

namespace Sys2Proof

/-- Why bytes are no instruction. -/
inductive Reject where
  /-- `op` 8 to 15 (R66). The step then takes IllegalRequest. -/
  | reservedOp (op : BitVec 4)
  /-- One of the three bits above the 21 of the selector is set: no request has such a selector (log 7). -/
  | wideSelector
  deriving DecidableEq, Repr

/-- The row a class selects (R50, the dispatch table under op = 0). -/
def rowOfClass : PacketClass → Instr
  | .plaintextShort => .decPlainShort
  | .plaintextExtended => .decPlainExt
  | .encryptedBinary => .decEncBin
  | .encryptedText a b blob => .decEncText a b blob

/-- Row selection by the selector word and the line: the more specific rows of `op = 0` first, then the fall-through
row, then the rows selected by `op` alone (spec/30 section 4). -/
def decodeSel (sel : Sel) (line : Bytes) : Except Reject Instr :=
  let op := sel.extractLsb' 17 4
  let kind : InKind := if sel.getLsbD 16 then .text else .binary
  let len : BitVec 16 := sel.extractLsb' 0 16
  match op.toNat with
  | 0 =>
    match Machine.classifyBytes kind len.toNat line with
    | .ok c => .ok (rowOfClass c)
    | .error _ => .ok (.decode kind len)
  | 1 => .ok (.classify kind len)
  | 2 => .ok (.geoDec kind len)
  | 3 => .ok (.geoEnc kind len)
  | 4 => .ok (.voltDec kind len)
  | 5 => .ok (.voltEnc kind len)
  | 6 => .ok (.csumSum kind len)
  | 7 => .ok (.csumVerify kind len)
  | _ => .error (.reservedOp op)

/-- The bytes `IN[0 .. n-1]` that follow the selector; a byte that is not there reads as 00 (log 5). -/
def presentedLine (n : Nat) (rest : Bytes) : Bytes := (List.range n).map fun k => rest.getD k Machine.unlistedByte

/-- The decoder: the selector is the little-endian number of the first three bytes, the line what follows them. -/
def decode (bytes : Bytes) : Except Reject Instr :=
  let w := Machine.le (Machine.slice bytes 0 3)
  if w < 2 ^ 21 then
    let sel : Sel := BitVec.ofNat 21 w
    let kind : InKind := if sel.getLsbD 16 then .text else .binary
    decodeSel sel (presentedLine (Machine.classifyReads kind (sel.extractLsb' 0 16 : BitVec 16).toNat) (bytes.drop 3))
  else .error .wideSelector

/-- The instruction the decoder reads from an instruction word (the host's numbering of bits). -/
def decodeTableWord (nbits w : Nat) : Option Instr :=
  match decode (Machine.wordBytes nbits w) with
  | .ok i => some i
  | .error _ => none

/-- The decimal digits of a number below 10^n, without leading zeros (the encoder's canonical form, log 13). -/
def decimalDigits : Nat → Nat → Bytes
  | 0, _ => []
  | n + 1, v => (if v < 10 then [] else decimalDigits n (v / 10)) ++ [BitVec.ofNat 8 (0x30 + v % 10)]

/-- The base64 character of a value 0 to 63 (R153). -/
def b64Char (v : Nat) : Byte :=
  if v < 26 then BitVec.ofNat 8 (0x41 + v)
  else if v < 52 then BitVec.ofNat 8 (0x61 + (v - 26))
  else if v < 62 then BitVec.ofNat 8 (0x30 + (v - 52))
  else if v = 62 then 0x2B else 0x2F

/-- The 24 base64 characters of 16 bytes: 22 of the alphabet, the surplus bits 0, and `==` (R56, R153; log 13). -/
def b64Enc16 (blob : Bytes) : Bytes :=
  let acc := Machine.be blob <<< 4
  ((List.range 22).map fun k => b64Char ((acc >>> (6 * (21 - k))) % 64)) ++ [Machine.padByte, Machine.padByte]

/-- The text line of a classified EncryptedText transmission (R56). -/
def encodeLine (id1 id2 : Word32) (blob : Bytes) : Bytes :=
  decimalDigits Config.idMaxDigits id1.toNat ++ [Machine.commaByte] ++ decimalDigits Config.idMaxDigits id2.toNat
    ++ [Machine.commaByte] ++ b64Enc16 blob

/-- The selector word of three fields (R50). -/
def selOf (op : BitVec 4) (kind : InKind) (len : BitVec 16) : Sel := op ++ Machine.kindBit kind ++ len

/-- The selector word of an instruction (spec/opcode_table.json, column match). -/
def encodeSel : Instr → Sel
  | .decPlainShort => selOf 0 .binary 15
  | .decPlainExt => selOf 0 .binary 18
  | .decEncBin => selOf 0 .binary 25
  | .decEncText a b blob => selOf 0 .text (BitVec.ofNat 16 (encodeLine a b blob).length)
  | .decode kind len => selOf 0 kind len
  | .classify kind len => selOf 1 kind len
  | .geoDec kind len => selOf 2 kind len
  | .geoEnc kind len => selOf 3 kind len
  | .voltDec kind len => selOf 4 kind len
  | .voltEnc kind len => selOf 5 kind len
  | .csumSum kind len => selOf 6 kind len
  | .csumVerify kind len => selOf 7 kind len

/-- The bytes of IN that belong to the encoding: the line of DEC_ENC_TEXT. The other rows are selected without them
(the fall-through row of a TEXT request by an unpresented line, which holds no comma). -/
def encodeIn : Instr → Bytes
  | .decEncText a b blob => encodeLine a b blob
  | .decPlainShort | .decPlainExt | .decEncBin | .decode _ _ | .classify _ _ | .geoDec _ _ | .geoEnc _ _
  | .voltDec _ _ | .voltEnc _ _ | .csumSum _ _ | .csumVerify _ _ => []

/-- The encoder: selector and line. -/
def encode (i : Instr) : Bytes := Machine.selBytes (encodeSel i) ++ encodeIn i

/-- The row of spec/opcode_table.json an instruction belongs to, as its columns (match, mask) over SEL. -/
def tableRow : Instr → Sel × Sel
  | .decPlainShort => (0x00000F, 0x1FFFFF)
  | .decPlainExt => (0x000012, 0x1FFFFF)
  | .decEncBin => (0x000019, 0x1FFFFF)
  | .decEncText _ _ _ => (0x010000, 0x1F0000)
  | .decode _ _ => (0x000000, 0x1E0000)
  | .classify _ _ => (0x020000, 0x1E0000)
  | .geoDec _ _ => (0x040000, 0x1E0000)
  | .geoEnc _ _ => (0x060000, 0x1E0000)
  | .voltDec _ _ => (0x080000, 0x1E0000)
  | .voltEnc _ _ => (0x0A0000, 0x1E0000)
  | .csumSum _ _ => (0x0C0000, 0x1E0000)
  | .csumVerify _ _ => (0x0E0000, 0x1E0000)

end Sys2Proof
end

