-- ==== Sys2Proof/Machine/GeoCodec.lean ====
section
/-! DEFINITION. The geo fixed-point codec: GEO_DEC (R85) and GEO_ENC (R86), as functions and as operations (R67). -/

namespace Sys2Proof.Machine

/-- `GEO_DEC(b0, b1, b2)`: the signed number of 1/10000 degrees (R85). -/
def geoDec (b0 b1 b2 : Byte) : Int :=
  let u : Nat := (b0.toNat <<< 16) ||| (b1.toNat <<< 8) ||| b2.toNat
  if u &&& 0x800000 ≠ 0 then (u : Int) - 0x1000000 else u

/-- The port form of a geo integer: `sext_32(e4)` (R85, R19). -/
def geoBits32 (e4 : Int) : Word32 := BitVec.ofInt 32 e4

/-- `sext_32(GEO_DEC(..))` of the three bytes at `off` of a layout (R113, R123). -/
def geoField (f : Bytes) (off : Nat) : Word32 :=
  geoBits32 (geoDec (byteAt f off) (byteAt f (off + 1)) (byteAt f (off + 2)))

/-- The range check and byte split of GEO_ENC: three bytes, most significant first (R86, R89). -/
def geoSplit (e4 : Int) : Except ErrorKind (Byte × Byte × Byte) :=
  if e4 < Config.geoMin ∨ e4 > Config.geoMax then .error .coordinateOutOfRange
  else
    let u : Nat := (e4 % 2 ^ Config.geoBits).toNat
    .ok (BitVec.ofNat 8 (u >>> 16), BitVec.ofNat 8 (u >>> 8), BitVec.ofNat 8 u)

/-- The rounding of GEO_ENC in port form: `(|e6| + 50) div 100` with the sign restored (R86). -/
def roundE6 (e6 : Int) : Int :=
  let m : Nat := (e6.natAbs + 50) / 100
  if 0 ≤ e6 then m else -m

/-- `GEO_ENC` in port form, `e6 = S_32(arg)` (R86). -/
def geoEnc (arg : Word32) : Except ErrorKind (Byte × Byte × Byte) := geoSplit (roundE6 (signedReading arg))

/-- `res` of GEO_ENC: `b0 : b1 : b2` zero-extended (R67). -/
def geoEncRes (b : Byte × Byte × Byte) : Word32 :=
  BitVec.ofNat 32 ((b.1.toNat <<< 16) ||| (b.2.1.toNat <<< 8) ||| b.2.2.toNat)

/-- The response of GEO_DEC to the bytes `IN[0..2]` (R67, R85). -/
def geoDecResponse (f : Bytes) : Response := leafResponse (geoField f 0)

/-- The response of GEO_ENC to its operand (R67, R86). -/
def geoEncResponse (arg : Word32) : Response := responseOf none (fun b => leafResponse (geoEncRes b)) (geoEnc arg)

/-- GEO_DEC (R85): legal only with `in_len = 3` (R66, R67). -/
def execGeoDec (_kind : InKind) (len : BitVec 16) (s : State) : StepOutcome :=
  if len.toNat ≠ 3 then .next (s.raise .illegalRequest none)
  else completeFromInput s 3 geoDecResponse

/-- GEO_ENC (R86): `in_kind` and `in_len` ignored. -/
def execGeoEnc (_kind : InKind) (_len : BitVec 16) (s : State) : StepOutcome := complete s (geoEncResponse s.req.arg)

end Sys2Proof.Machine
end

