-- ==== Sys2Proof/Machine/VoltageQuantizer.lean ====
section
/-! DEFINITION. The voltage quantizer: VOLT_DEC (R95) and VOLT_ENC (R96), as functions and as operations (R67). -/

namespace Sys2Proof.Machine

/-- `VOLT_DEC(nibble)`: millivolts (R95). -/
def voltDec (nibble : Nibble) : BitVec 16 :=
  BitVec.ofNat 16 ((nibble.toNat + Config.voltOffset) * Config.voltStepMv)

/-- `VOLT_ENC(mv)`: the nearest step, a tie up; the range test is on the unrounded input (R96). -/
def voltEnc (mv : BitVec 16) : Except ErrorKind Nibble :=
  if mv.toNat < Config.voltMinMv ∨ mv.toNat > Config.voltMaxMv then .error .voltageOutOfRange
  else .ok (BitVec.ofNat 4 ((mv.toNat - Config.voltMinMv + 50) / Config.voltStepMv))

/-- The response of VOLT_DEC: only `arg[3:0]` is read (R67). -/
def voltDecResponse (arg : Word32) : Response := leafResponse ((voltDec (arg.extractLsb' 0 4)).setWidth 32)

/-- The response of VOLT_ENC: only `arg[15:0]` is read (R67). -/
def voltEncResponse (arg : Word32) : Response :=
  responseOf none (fun n : Nibble => leafResponse (n.setWidth 32)) (voltEnc (arg.extractLsb' 0 16))

/-- VOLT_DEC (R95): `in_kind` and `in_len` ignored. -/
def execVoltDec (_kind : InKind) (_len : BitVec 16) (s : State) : StepOutcome := complete s (voltDecResponse s.req.arg)

/-- VOLT_ENC (R96): `in_kind` and `in_len` ignored. -/
def execVoltEnc (_kind : InKind) (_len : BitVec 16) (s : State) : StepOutcome := complete s (voltEncResponse s.req.arg)

end Sys2Proof.Machine
end

