-- ==== Sys2Proof/Machine/PlaintextDecoder.lean ====
section
/-! DEFINITION. The plaintext packet decoder: DEC_PLAIN_SHORT (R113) and DEC_PLAIN_EXT (R114). Neither can fail (R115). -/

namespace Sys2Proof.Machine

/-- `DEC_PLAIN_SHORT(f)` over format F-PS (R52, R113). -/
def decPlainShort (f : Bytes) : Record :=
  let c := unpack (byteAt f 8)
  { id1 := le32 f 0, id2 := le32 f 4, hasVersion := true, packetVersion := c.1, batteryMv := voltDec c.2,
    coordFmt := .fixedE4, latBits := geoField f 9, lonBits := geoField f 12,
    hasAltitude := false, altitudeM := 0, hasSpeed := false, speedMps := 0, hasIntegrity := false, integrityOk := false }

/-- `DEC_PLAIN_EXT(f)` over format F-PX: the first 15 bytes as F-PS, then speed and a signed altitude (R53, R114). -/
def decPlainExt (f : Bytes) : Record :=
  { decPlainShort (slice f 0 Config.lenPS) with
    hasSpeed := true, speedMps := byteAt f 15, hasAltitude := true, altitudeM := sext32 (le16 f 16) }

/-- The response to a PlaintextShort frame (R73). -/
def plainShortResponse (f : Bytes) : Response := decodedResponse .plaintextShort (decPlainShort f)

/-- The response to a PlaintextExtended frame (R73). -/
def plainExtResponse (f : Bytes) : Response := decodedResponse .plaintextExtended (decPlainExt f)

/-- DEC_PLAIN_SHORT: the key is not an operand (R113, R16). -/
def execDecPlainShort (s : State) : StepOutcome := completeFromInput s Config.lenPS plainShortResponse

/-- DEC_PLAIN_EXT: the key is not an operand (R114, R16). -/
def execDecPlainExt (s : State) : StepOutcome := completeFromInput s Config.lenPX plainExtResponse

end Sys2Proof.Machine
end

