-- ==== Sys2Proof/Machine/ChecksumVerifier.lean ====
section
/-! DEFINITION. The checksum verifier: Sum8 (R105), CSUM_SUM (R106) and CSUM_VERIFY (R107). -/

namespace Sys2Proof.Machine

/-- `Sum8(b)`: the sum of the bytes modulo 256 (R105). -/
def sum8 (b : Bytes) : Byte := BitVec.ofNat 8 ((b.map BitVec.toNat).sum % 256)

/-- `CSUM_VERIFY(p)`: `p[15] = Sum8(p[0..14])`, 15 bytes summed (R107, D14). -/
def csumVerify (p : Bytes) : Bool := byteAt p 15 == sum8 (slice p 0 Config.csumLen)

/-- The response of CSUM_SUM: `zext_32(Sum8(..))` (R106). -/
def csumSumResponse (b : Bytes) : Response := leafResponse ((sum8 b).setWidth 32)

/-- The response of CSUM_VERIFY: the verdict is a value, status OK in both cases (R107). -/
def csumVerifyResponse (p : Bytes) : Response := leafResponse (if csumVerify p then 1 else 0)

/-- CSUM_SUM (R106): legal only with `in_len <= 64` (R66, R67). -/
def execCsumSum (_kind : InKind) (len : BitVec 16) (s : State) : StepOutcome :=
  if len.toNat > Config.inBufBytes then .next (s.raise .illegalRequest none)
  else completeFromInput s len.toNat csumSumResponse

/-- CSUM_VERIFY (R107): legal only with `in_len = 16` (R66, R67). -/
def execCsumVerify (_kind : InKind) (len : BitVec 16) (s : State) : StepOutcome :=
  if len.toNat ≠ Config.blobLen then .next (s.raise .illegalRequest none)
  else completeFromInput s Config.blobLen csumVerifyResponse

end Sys2Proof.Machine
end

