-- ==== Sys2Proof/Machine/AesEcbDecoder.lean ====
section
/-! DEFINITION. The AES-ECB packet decoder: DEC_ENC_BIN (R123), and the step that both encrypted decoders share,
decryption and then the integrity check on the whole decrypted block (R125, R127, R158). -/

namespace Sys2Proof.Machine

/-- Decrypt, then check; no field is decoded unless the checksum matches (R123 steps 2 and 3, R150 steps 1 and 2). -/
def decryptChecked (key : Option SuppliedKey) (ct : Bytes) : Except ErrorKind Bytes :=
  match aesEcbDec key ct with
  | .error e => .error e
  | .ok p => if csumVerify p then .ok p else .error .checksumMismatch

/-- The altitude of F-EBI: unsigned, or signed where `ENC_ALT_SIGNED` is set (R129). -/
def encAltitude (prm : Params) (v : BitVec 16) : Word32 := if prm.encAltSigned then sext32 v else zext32 v

/-- The record of a decrypted block over the outer frame `f` (F-EB, R54) and the inner layout `p` (F-EBI, R55): the
outer combined byte `f[8]` and the reserved bytes `p[10..14]` are not used (R128, R62). -/
def encBinRecord (prm : Params) (f p : Bytes) : Record :=
  let c := unpackInner prm (byteAt p 0)
  { id1 := be32 f 0, id2 := be32 f 4, hasVersion := true, packetVersion := c.1, batteryMv := voltDec c.2,
    coordFmt := .fixedE4, latBits := geoField p 1, lonBits := geoField p 4,
    hasSpeed := true, speedMps := byteAt p 7, hasAltitude := true, altitudeM := encAltitude prm (le16 p 8),
    hasIntegrity := true, integrityOk := true }

/-- `DEC_ENC_BIN(f, key)` (R123). -/
def decEncBin (prm : Params) (key : Option SuppliedKey) (f : Bytes) : Except ErrorKind Record :=
  match decryptChecked key (slice f 9 Config.blobLen) with
  | .error e => .error e
  | .ok p => .ok (encBinRecord prm f p)

/-- The response to an EncryptedBinary frame: the variant is kept where the decoder fails (R73, R173). -/
def encBinResponse (prm : Params) (key : Option SuppliedKey) (f : Bytes) : Response :=
  responseOf (some .encryptedBinary) (decodedResponse .encryptedBinary) (decEncBin prm key f)

/-- DEC_ENC_BIN (R123). -/
def execDecEncBin (s : State) : StepOutcome := completeFromInput s Config.lenEB (encBinResponse s.params s.req.key)

end Sys2Proof.Machine
end

