-- ==== Sys2Proof/Machine/TextDecoder.lean ====
section
/-! DEFINITION. The text-mode packet decoder: DEC_ENC_TEXT (R150). -/

namespace Sys2Proof.Machine

/-- The record of a decrypted block over the inner layout F-ETI (R57, R150): binary32 patterns passed through, raw
millivolts, no version, altitude or speed (R155, R156, R157). -/
def encTextRecord (id1 id2 : Word32) (p : Bytes) : Record :=
  { id1 := id1, id2 := id2, hasVersion := false, packetVersion := 0, batteryMv := le16 p 8,
    coordFmt := .f32, latBits := le32 p 0, lonBits := le32 p 4,
    hasAltitude := false, altitudeM := 0, hasSpeed := false, speedMps := 0, hasIntegrity := true, integrityOk := true }

/-- `DEC_ENC_TEXT(a, b, blob, key)` (R150). -/
def decEncText (id1 id2 : Word32) (blob : Bytes) (key : Option SuppliedKey) : Except ErrorKind Record :=
  match decryptChecked key blob with
  | .error e => .error e
  | .ok p => .ok (encTextRecord id1 id2 p)

/-- The response to a classified text line: the variant is kept where the decoder fails (R73, R173). -/
def encTextResponse (id1 id2 : Word32) (blob : Bytes) (key : Option SuppliedKey) : Response :=
  responseOf (some .encryptedText) (decodedResponse .encryptedText) (decEncText id1 id2 blob key)

/-- DEC_ENC_TEXT: the operands are what classification carried (R75, R150). -/
def execDecEncText (id1 id2 : Word32) (blob : Bytes) (s : State) : StepOutcome :=
  complete s (encTextResponse id1 id2 blob s.req.key)

end Sys2Proof.Machine
end

