-- ==== Sys2Proof/Machine/Classifier.lean ====
section
/-! DEFINITION. The classifier unit's operations: CLASSIFY (R72) and DECODE (R73). -/

namespace Sys2Proof.Machine

/-- Classify the transmission in hand, then go on with its class; a classification error ends the transaction with no
variant (R72, R73, R173). -/
def withClass (kind : InKind) (len : BitVec 16) (s : State) (go : PacketClass → StepOutcome) : StepOutcome :=
  match memRead s.req .input 0 (classifyReads kind len.toNat) with
  | none => .fault (.outsideSpace .input)
  | some line =>
    match classifyBytes kind len.toNat line with
    | .error e => .next (s.raise e none)
    | .ok c => go c

/-- Exactly one decoder runs, the one of the class (R73). -/
def runDecoder (s : State) : PacketClass → StepOutcome
  | .plaintextShort => execDecPlainShort s
  | .plaintextExtended => execDecPlainExt s
  | .encryptedBinary => execDecEncBin s
  | .encryptedText a b blob => execDecEncText a b blob s

/-- CLASSIFY (R72): only the variant is output; the key is not looked at. -/
def execClassify (kind : InKind) (len : BitVec 16) (s : State) : StepOutcome :=
  withClass kind len s fun c => complete s (classifiedResponse (classVariant c))

/-- DECODE (R73), the whole operation: classify, then the one decoder. A request that selects this row, and none of
the four more specific ones, fails in classification (log 14). -/
def execDecode (kind : InKind) (len : BitVec 16) (s : State) : StepOutcome := withClass kind len s (runDecoder s)

end Sys2Proof.Machine
end

