-- ==== Sys2Proof/Machine/Dispatch.lean ====
section
/-! DEFINITION. The dispatch: one arm per instruction (R162, R191). -/

namespace Sys2Proof.Machine

def exec (i : Instr) (s : State) : Host.Outcome State Fault Refusal :=
  match i with
  | .decPlainShort => Sys2Proof.Machine.execDecPlainShort s
  | .decPlainExt => Sys2Proof.Machine.execDecPlainExt s
  | .decEncBin => Sys2Proof.Machine.execDecEncBin s
  | .decEncText id1 id2 blob => Sys2Proof.Machine.execDecEncText id1 id2 blob s
  | .decode kind len => Sys2Proof.Machine.execDecode kind len s
  | .classify kind len => Sys2Proof.Machine.execClassify kind len s
  | .geoDec kind len => Sys2Proof.Machine.execGeoDec kind len s
  | .geoEnc kind len => Sys2Proof.Machine.execGeoEnc kind len s
  | .voltDec kind len => Sys2Proof.Machine.execVoltDec kind len s
  | .voltEnc kind len => Sys2Proof.Machine.execVoltEnc kind len s
  | .csumSum kind len => Sys2Proof.Machine.execCsumSum kind len s
  | .csumVerify kind len => Sys2Proof.Machine.execCsumVerify kind len s

end Sys2Proof.Machine
end

