-- ==== Sys2Proof/Machine/Step.lean ====
section
/-! DEFINITION. One step: one transaction (R191). The block takes the oldest request the host has issued, decodes its
selector and executes the row; a reserved selector takes IllegalRequest (R66). With nothing issued it is idle. -/

namespace Sys2Proof.Machine

/-- One transaction, or nothing where the host has issued none (R191; logs 1, 3, 8). -/
def step (s : State) : Host.Outcome State Fault Refusal :=
  match s.pending with
  | [] => .next s.idle
  | r :: rest =>
    match decode (fetchBytes r) with
    | .ok i => exec i (s.accept r rest)
    | .error _ => .next ((s.accept r rest).raise .illegalRequest none)

/-- The host issues, ahead of everything it has issued, a request whose selector bits are `w` (log 2). -/
def State.withFetchWord (s : State) (nbits w : Nat) : State := { s with pending := requestOfWord nbits w :: s.pending }

end Sys2Proof.Machine
end

