-- ==== Sys2Proof/Machine/Readings.lean ====
section
/-! DEFINITION. What the port fields stand for, for the consumer and for proofs: the rational readings of R20, F32Value
(R155), and GEO_ENC over rational degrees, of which the port form is an instance (R86, R88). The block computes none of
this and does no floating-point arithmetic (R161; log 12). -/

namespace Sys2Proof.Machine

/-- The number a coordinate field stands for: a rational, or what only a binary32 pattern can stand for (R155). -/
inductive Reading where
  | rational (q : Rat)
  | negZero
  | posInf
  | negInf
  | nan
  deriving DecidableEq, Repr

/-- `(-1)^s` of a sign bit. -/
def signFactor (s : Nat) : Rat := if s = 0 then 1 else -1

/-- `F32Value(w)`: the number a binary32 pattern stands for (R155). -/
def f32Value (w : Word32) : Reading :=
  let s := w.toNat >>> 31
  let e := (w.toNat >>> 23) &&& 0xFF
  let m := w.toNat &&& 0x7FFFFF
  if e = 255 ∧ m = 0 then (if s = 0 then .posInf else .negInf)
  else if e = 255 then .nan
  else if e = 0 then
    (if m = 0 ∧ s ≠ 0 then .negZero else .rational (signFactor s * m / 2 ^ 149))
  else .rational (signFactor s * ((2 ^ 23 + m) * 2 ^ e) / 2 ^ 150)

/-- `degrees(e4) = e4 / 10000` (R85). -/
def degrees (e4 : Int) : Rat := (e4 : Rat) / Config.geoScale

/-- `battery_volts = battery_mv / 1000` (R20). -/
def batteryVolts (r : Record) : Rat := (r.batteryMv.toNat : Rat) / 1000

/-- How a coordinate field is read under `coord_fmt` (R20). -/
def coordReading (fmt : CoordFmt) (bits : Word32) : Reading :=
  match fmt with
  | .fixedE4 => .rational (degrees (signedReading bits))
  | .f32 => f32Value bits

/-- `latitude` (R20). -/
def latitude (r : Record) : Reading := coordReading r.coordFmt r.latBits

/-- `longitude` (R20). -/
def longitude (r : Record) : Reading := coordReading r.coordFmt r.lonBits

/-- The nearest integer, a tie away from zero (R86, D10). -/
def roundHalfAway (x : Rat) : Int := if 0 ≤ x then (x + 1 / 2).floor else -(-x + 1 / 2).floor

/-- `GEO_ENC(v)` for a rational number of degrees (R86). -/
def geoEncDegrees (v : Rat) : Except ErrorKind (Byte × Byte × Byte) := geoSplit (roundHalfAway (v * Config.geoScale))

end Sys2Proof.Machine
end

