-- ==== Sys2Proof/Machine/Transaction.lean ====
section
/-! DEFINITION. The transaction as a function of its request alone, as R191, R162 and R73 write it down: it looks at the
request fields by name and uses neither the decoder, nor the rows of the table, nor the state. Statements compare the
machine's step with it. -/

namespace Sys2Proof.Machine

/-- The bytes `IN[0 .. n-1]` of a request. -/
def Request.input (r : Request) (n : Nat) : Bytes := r.inData.readBytes 0 n

/-- The classification of a request (R72, R73). -/
def Request.classified (r : Request) : Except ErrorKind PacketClass :=
  match r.inKind with
  | .binary => classifyBin r.inLen.toNat
  | .text => classifyTxt r.inLen.toNat (r.input (min r.inLen.toNat Config.inBufBytes))

/-- `CLASSIFY(req)` (R72). -/
def classifyTransaction (r : Request) : Response :=
  responseOf none (fun c => classifiedResponse (classVariant c)) r.classified

/-- The one decoder of a class (R73). -/
def decodeClass (p : Params) (r : Request) : PacketClass → Except ErrorKind Record
  | .plaintextShort => .ok (decPlainShort (r.input 15))
  | .plaintextExtended => .ok (decPlainExt (r.input 18))
  | .encryptedBinary => decEncBin p r.key (r.input 25)
  | .encryptedText a b blob => decEncText a b blob r.key

/-- `DECODE(req)` (R73). -/
def decodeTransaction (p : Params) (r : Request) : Response :=
  match r.classified with
  | .error e => failedResponse e none
  | .ok c => responseOf (some (classVariant c)) (decodedResponse (classVariant c)) (decodeClass p r c)

/-- `step(req)` of R191. -/
def transaction (p : Params) (r : Request) : Response :=
  match r.op.toNat with
  | 0 => decodeTransaction p r
  | 1 => classifyTransaction r
  | 2 => if r.inLen.toNat = 3 then geoDecResponse (r.input 3) else failedResponse .illegalRequest none
  | 3 => geoEncResponse r.arg
  | 4 => voltDecResponse r.arg
  | 5 => voltEncResponse r.arg
  | 6 => if r.inLen.toNat ≤ 64 then csumSumResponse (r.input r.inLen.toNat) else failedResponse .illegalRequest none
  | 7 => if r.inLen.toNat = 16 then csumVerifyResponse (r.input 16) else failedResponse .illegalRequest none
  | _ => failedResponse .illegalRequest none

end Sys2Proof.Machine
end

