-- ==== Sys2Proof/Safety.lean ====
section
/-! DEFINITION. The terms statements use for a safe run: a step that completes, the canonical form of the byte spaces, the
shape of a response (R17, R21, R22, R173), and the invariant made of them. -/

namespace Sys2Proof.Machine

/-- The step ends in a next state: neither a fault nor a refusal (R191). -/
def Completes (s : State) : Prop := ∃ t, step s = .next t

/-- The byte spaces of a request are in canonical form and within their buffers (R14; log 5). -/
def Request.wf (r : Request) : Bool := r.inData.wf Config.inBufBytes && r.keyData.wf Config.keyBufBytes

/-- What the record of a variant holds and leaves absent (R21, R22); an absent field is 0. -/
def Record.shapeOk (v : Variant) (r : Record) : Bool :=
  match v with
  | .plaintextShort =>
    r.hasVersion && r.coordFmt == .fixedE4 && !r.hasAltitude && r.altitudeM == 0 && !r.hasSpeed && r.speedMps == 0
      && !r.hasIntegrity && !r.integrityOk
  | .plaintextExtended =>
    r.hasVersion && r.coordFmt == .fixedE4 && r.hasAltitude && r.hasSpeed && !r.hasIntegrity && !r.integrityOk
  | .encryptedBinary =>
    r.hasVersion && r.coordFmt == .fixedE4 && r.hasAltitude && r.hasSpeed && r.hasIntegrity && r.integrityOk
  | .encryptedText =>
    !r.hasVersion && r.packetVersion == 0 && r.coordFmt == .f32 && !r.hasAltitude && r.altitudeM == 0 && !r.hasSpeed
      && r.speedMps == 0 && r.hasIntegrity && r.integrityOk

/-- The battery of a quantized variant is a step of the table of R95, 2700 to 4200 mV (R98). -/
def Record.batteryOk (v : Variant) (r : Record) : Bool :=
  match v with
  | .encryptedText => true
  | .plaintextShort | .plaintextExtended | .encryptedBinary =>
    decide (2700 ≤ r.batteryMv.toNat) && decide (r.batteryMv.toNat ≤ 4200) && r.batteryMv.toNat % 100 == 0

/-- The variant a code stands for (R17). -/
def variantOf (code : BitVec 2) : Variant :=
  match code.toNat with
  | 0 => .plaintextShort
  | 1 => .plaintextExtended
  | 2 => .encryptedBinary
  | _ => .encryptedText

/-- The shape of a response: a record exactly with status OK and a variant, and then of the variant's shape; otherwise
no record at all; nothing but the status and the variant in a failed one (R17, R21, R25, R173). -/
def Response.wf (r : Response) : Bool :=
  (if r.recValid then r.status == 0 && r.variantValid && r.res == 0 && r.record.shapeOk (variantOf r.variant)
      && r.record.batteryOk (variantOf r.variant)
   else r.record == Record.zero)
  && (r.variantValid || r.variant == 0)
  && (r.status == 0 || r.res == 0)

/-- What every step keeps: canonical byte spaces at the ports and in everything issued, and well-shaped responses at
the ports and in everything delivered. -/
def State.inv (s : State) : Bool :=
  s.req.wf && s.pending.all Request.wf && s.resp.wf && s.delivered.all Response.wf

/-- The host's run of a list of requests on an otherwise idle block (R191: a run is a finite list of requests). -/
def State.loaded (s : State) (rs : List Request) : State := { s with pending := rs }

end Sys2Proof.Machine

/-! ### The spec's arithmetic, written a second time over plain numbers

The statements say what a field or a result is by the formulas of the rules over `Nat` and `Int`, so that they do not
repeat the definitions of the model. -/

namespace Sys2Proof.Spec
open Sys2Proof.Machine

/-- The signed reading of 24 bits given as three bytes, most significant first (R59, R85). -/
def geoValue (b0 b1 b2 : Byte) : Int :=
  let u : Nat := b0.toNat * 65536 + b1.toNat * 256 + b2.toNat
  if u < 8388608 then u else (u : Int) - 16777216

/-- `f[0] + f[1]*2^8 + f[2]*2^16 + f[3]*2^24` (R59). -/
def leNumber (b0 b1 b2 b3 : Byte) : Nat :=
  b0.toNat + b1.toNat * 2 ^ 8 + b2.toNat * 2 ^ 16 + b3.toNat * 2 ^ 24

/-- `f[0]*2^24 + f[1]*2^16 + f[2]*2^8 + f[3]` (R59). -/
def beNumber (b0 b1 b2 b3 : Byte) : Nat :=
  b0.toNat * 2 ^ 24 + b1.toNat * 2 ^ 16 + b2.toNat * 2 ^ 8 + b3.toNat

/-- `S_16` of a number below 2^16 (R44). -/
def signed16 (v : Nat) : Int := if v < 32768 then v else (v : Int) - 65536

/-- The fifteen-byte record of R113 over the bytes `b 0 .. b 14` of a frame. -/
def plainRecord (b : Nat → Byte) : Record :=
  { id1 := BitVec.ofNat 32 (leNumber (b 0) (b 1) (b 2) (b 3))
    id2 := BitVec.ofNat 32 (leNumber (b 4) (b 5) (b 6) (b 7))
    hasVersion := true
    packetVersion := BitVec.ofNat 4 ((b 8).toNat / 16)
    batteryMv := BitVec.ofNat 16 (((b 8).toNat % 16 + 27) * 100)
    coordFmt := .fixedE4
    latBits := BitVec.ofInt 32 (geoValue (b 9) (b 10) (b 11))
    lonBits := BitVec.ofInt 32 (geoValue (b 12) (b 13) (b 14))
    hasAltitude := false
    altitudeM := 0
    hasSpeed := false
    speedMps := 0
    hasIntegrity := false
    integrityOk := false }

/-- The eighteen-byte record of R114. -/
def plainExtRecord (b : Nat → Byte) : Record :=
  { plainRecord b with
    hasSpeed := true
    speedMps := b 15
    hasAltitude := true
    altitudeM := BitVec.ofInt 32 (signed16 ((b 16).toNat + (b 17).toNat * 256)) }

/-- The record of R123 over the outer frame `f` and the decrypted block `p`, under the two open parameters (R126, R129). -/
def encBinRecord (prm : Params) (f p : Nat → Byte) : Record :=
  { id1 := BitVec.ofNat 32 (beNumber (f 0) (f 1) (f 2) (f 3))
    id2 := BitVec.ofNat 32 (beNumber (f 4) (f 5) (f 6) (f 7))
    hasVersion := true
    packetVersion :=
      BitVec.ofNat 4 (if prm.innerVoltNibble = .low then (p 0).toNat / 16 else (p 0).toNat % 16)
    batteryMv :=
      BitVec.ofNat 16
        (((if prm.innerVoltNibble = .low then (p 0).toNat % 16 else (p 0).toNat / 16) + 27) * 100)
    coordFmt := .fixedE4
    latBits := BitVec.ofInt 32 (geoValue (p 1) (p 2) (p 3))
    lonBits := BitVec.ofInt 32 (geoValue (p 4) (p 5) (p 6))
    hasSpeed := true
    speedMps := p 7
    hasAltitude := true
    altitudeM :=
      if prm.encAltSigned then BitVec.ofInt 32 (signed16 ((p 8).toNat + (p 9).toNat * 256))
      else BitVec.ofNat 32 ((p 8).toNat + (p 9).toNat * 256)
    hasIntegrity := true
    integrityOk := true }

/-- The record of R150 over the identifiers and the decrypted block `p`. -/
def encTextRecord (a b : Word32) (p : Nat → Byte) : Record :=
  { id1 := a
    id2 := b
    hasVersion := false
    packetVersion := 0
    batteryMv := BitVec.ofNat 16 ((p 8).toNat + (p 9).toNat * 256)
    coordFmt := .f32
    latBits := BitVec.ofNat 32 (leNumber (p 0) (p 1) (p 2) (p 3))
    lonBits := BitVec.ofNat 32 (leNumber (p 4) (p 5) (p 6) (p 7))
    hasAltitude := false
    altitudeM := 0
    hasSpeed := false
    speedMps := 0
    hasIntegrity := true
    integrityOk := true }

/-- The response ports all 0 (R24). -/
def allZero : Response :=
  { status := 0, variantValid := false, variant := 0, recValid := false, record := Record.zero, res := 0 }

/-- A response with OK, a variant and a record (R73). -/
def okRecord (variant : BitVec 2) (rec : Record) : Response :=
  { status := 0, variantValid := true, variant := variant, recValid := true, record := rec, res := 0 }

/-- A response with OK, a variant and no record (R72). -/
def okVariant (variant : BitVec 2) : Response :=
  { status := 0, variantValid := true, variant := variant, recValid := false, record := Record.zero, res := 0 }

/-- A response with OK and a scalar result (R25). -/
def okScalar (res : Word32) : Response :=
  { status := 0, variantValid := false, variant := 0, recValid := false, record := Record.zero, res := res }

/-- A failed response in or before classification, or of a leaf operation (R173). -/
def failed (status : BitVec 3) : Response :=
  { status := status, variantValid := false, variant := 0, recValid := false, record := Record.zero, res := 0 }

/-- A failed response of an encrypted decoder: the variant is kept (R173). -/
def failedAfter (status : BitVec 3) (variant : BitVec 2) : Response :=
  { status := status, variantValid := true, variant := variant, recValid := false, record := Record.zero, res := 0 }

/-- The integrity rule over the bytes of a decrypted block: the byte at 15 is the sum of those at 0 to 14, mod 256 (R107). -/
def Intact (p : Nat → Byte) : Prop := (p 15).toNat = ((List.range 15).map fun k => (p k).toNat).sum % 256

/-- The decimal value of a run of digit bytes (R152). -/
def decimalValue (f : Bytes) : Nat := f.foldl (fun v c => v * 10 + (c.toNat - 0x30)) 0

/-- `id` of the line grammar: 1 to 10 digits of value at most 4294967295 (R56). -/
def IsId (f : Bytes) : Prop :=
  1 ≤ f.length ∧ f.length ≤ 10 ∧ (∀ c ∈ f, 0x30 ≤ c.toNat ∧ c.toNat ≤ 0x39) ∧ decimalValue f ≤ 4294967295

/-- `B64CHAR` of the line grammar (R56). -/
def IsB64Char (c : Byte) : Prop :=
  (0x41 ≤ c.toNat ∧ c.toNat ≤ 0x5A) ∨ (0x61 ≤ c.toNat ∧ c.toNat ≤ 0x7A) ∨ (0x30 ≤ c.toNat ∧ c.toNat ≤ 0x39)
    ∨ c.toNat = 0x2B ∨ c.toNat = 0x2F

/-- `blob` of the line grammar: 22 characters of the alphabet and two `=` (R56). -/
def IsBlob (f : Bytes) : Prop := ∃ g : Bytes, f = g ++ [0x3D, 0x3D] ∧ g.length = 22 ∧ ∀ c ∈ g, IsB64Char c

/-- The shape of a text line, with its three parts: two identifiers and a third part without a comma (R61, R171). -/
def Shape (line d1 d2 f : Bytes) : Prop :=
  line = d1 ++ [0x2C] ++ d2 ++ [0x2C] ++ f ∧ IsId d1 ∧ IsId d2 ∧ (0x2C : Byte) ∉ f

/-- The value of a base64 character (R153). -/
def b64Value (c : Byte) : Nat :=
  if 0x41 ≤ c.toNat ∧ c.toNat ≤ 0x5A then c.toNat - 0x41
  else if 0x61 ≤ c.toNat ∧ c.toNat ≤ 0x7A then c.toNat - 0x61 + 26
  else if 0x30 ≤ c.toNat ∧ c.toNat ≤ 0x39 then c.toNat - 0x30 + 52
  else if c.toNat = 0x2B then 62 else 63

/-- The geo integer GEO_ENC rounds its operand to: nearest, a tie away from zero (R86). -/
def roundedE4 (arg : Word32) : Int :=
  if 0 ≤ arg.toInt then ((arg.toInt + 50) / 100) else -((-arg.toInt + 50) / 100)

/-- Two requests that differ at most in the key. -/
def SameButKey (r r' : Request) : Prop :=
  r.op = r'.op ∧ r.inKind = r'.inKind ∧ r.inLen = r'.inLen ∧ r.inData = r'.inData ∧ r.arg = r'.arg

/-- Two requests that present the same bytes: they may differ in bytes at or beyond `in_len` or `key_len`, and in every
byte of IN where `in_len` exceeds the buffer (R14, R38). -/
def SamePresented (r r' : Request) : Prop :=
  r.op = r'.op ∧ r.inKind = r'.inKind ∧ r.inLen = r'.inLen ∧ r.keyLen = r'.keyLen ∧ r.arg = r'.arg
    ∧ (r.inLen.toNat ≤ 64 → ∀ k, k < r.inLen.toNat → r.inData.read k = r'.inData.read k)
    ∧ (∀ k, k < min r.keyLen.toNat 32 → r.keyData.read k = r'.keyData.read k)

/-- The 25-byte frame F-EB with the given outer fields around a 16-byte block (R54). -/
def ebFrame (id1 id2 : Word32) (outer : Byte) (ct : Bytes) : Bytes :=
  [id1.extractLsb' 24 8, id1.extractLsb' 16 8, id1.extractLsb' 8 8, id1.extractLsb' 0 8,
   id2.extractLsb' 24 8, id2.extractLsb' 16 8, id2.extractLsb' 8 8, id2.extractLsb' 0 8, outer] ++ ct

end Sys2Proof.Spec
end

