-- ==== Sys2Proof/Certificates/Slice0/Obligations.lean ====
section
/-! DEFINITION. The statements for the provers. Each docstring names the rule of spec/ the statement formalises, or what
it rests on where it is derived. -/

open Sys2Proof Sys2Proof.Machine

/-- Decoding what the encoder writes gives the instruction back (derived: R50, R56, R152, R153, 30_encoding.md section
4). -/
def Obligations.DecodeOfEncodeIsTheInstruction : Prop :=
  ∀ i : Instr, i.wellFormed = true → decode (encode i) = .ok i

/-- Whatever the decoder reads is well-formed (derived: 30_encoding.md section 4, R75, R153). -/
def Obligations.DecodedInstructionIsWellFormed : Prop :=
  ∀ (bytes : Bytes) (i : Instr), decode bytes = .ok i → i.wellFormed = true

/-- A decoded instruction matches its row of the opcode table (derived: R50, 30_encoding.md section 4). The fields,
masks and matches are R50's and the table's; that the selector is read from three bytes, least significant first, and
that a wider number is refused (the first clause), are the model's choices (log 7). -/
def Obligations.DecodedInstructionMatchesItsTableRow : Prop :=
  ∀ (bytes : Bytes) (i : Instr), decode bytes = .ok i →
    le (slice bytes 0 3) < 2 ^ 21 ∧ BitVec.ofNat 21 (le (slice bytes 0 3)) &&& (tableRow i).2 = (tableRow i).1

/-- Words written out from the encoding decode to their instructions (derived: R50, 30_encoding.md section 4). The
selector words 0x00000F, 0x000019, 0x000010, 0x03002A and 0x0E0010 are R50's; that a word is written as three bytes,
least significant first, is the model's choice (log 7). -/
def Obligations.SampleWordsDecode : Prop :=
  decode [0x0F, 0, 0] = .ok .decPlainShort ∧ decode [0x19, 0, 0] = .ok .decEncBin ∧
    decode [0x10, 0, 0] = .ok (.decode .binary 16) ∧ decode [0x2A, 0, 3] = .ok (.classify .text 42) ∧
    decode [0x10, 0, 0x0E] = .ok (.csumVerify .binary 16)

/-- The selector word holds op, in_kind and in_len in their places (derived: R50). Three of the four clauses are
R50's; that the decoder is given the selector as three bytes, least significant first, is the model's choice (log 7).
-/
def Obligations.SelectorWordHoldsItsFields : Prop :=
  ∀ r : Request, r.sel.extractLsb' 17 4 = r.op ∧ (r.sel.getLsbD 16 = true ↔ r.inKind = .text) ∧
    r.sel.extractLsb' 0 16 = r.inLen ∧ le (slice (fetchBytes r) 0 3) = r.sel.toNat

/-- A step runs the decoded instruction (derived: R191, R162). -/
def Obligations.StepRunsTheDecodedInstruction : Prop :=
  ∀ (s : State) (r : Request) (rest : List Request) (i : Instr), s.pending = r :: rest →
    decode (fetchBytes r) = .ok i → i.wellFormed = true → step s = exec i { s with req := r, pending := rest }

/-- A step is the rules' transaction and changes nothing else (derived: R191, R162, R73, R72). -/
def Obligations.StepPerformsTheTransaction : Prop :=
  ∀ (s : State) (r : Request) (rest : List Request), s.pending = r :: rest →
    step s = .next
      { s with
        pending := rest
        req := r
        resp := transaction s.params r
        delivered := s.delivered ++ [transaction s.params r] }

/-- A run over a list of requests delivers the list of their responses (derived: R191, R195). -/
def Obligations.RunIsTheMapOfTheTransaction : Prop :=
  ∀ (s : State) (rs : List Request), ∃ t : State,
    Sys2Proof.core.run rs.length (s.loaded rs) = .next t ∧
    t.delivered = s.delivered ++ rs.map (transaction s.params) ∧ t.pending = [] ∧ t.params = s.params

/-- Every step completes: no fault, no refusal, from any state (derived: R191, R163, R32). 'A transaction always
completes' (R191); no load can fault (R163). That the step of a block with nothing pending is an idle one is the
model's choice (log 3). -/
def Obligations.EveryStepCompletes : Prop :=
  ∀ s : State, ∃ t : State, step s = .next t ∧ t.pending = s.pending.tail ∧ t.params = s.params

/-- With nothing pending the block is idle and its response ports are 0 (derived: R24, R190). The zeros are R24's and
R190's for an implementation that drives its ports outside a transaction; that the model drives them, and takes an
idle step at all, is the model's choice (log 3). -/
def Obligations.IdleStepDrivesThePortsToZero : Prop :=
  ∀ s : State, s.pending = [] → step s = .next { s with resp := Spec.allZero }

/-- Equal requests give equal responses, whatever came before (stated: R3). -/
def Obligations.ResponseIsAFunctionOfTheRequest : Prop :=
  ∀ (s₁ s₂ : State) (r : Request) (rest₁ rest₂ : List Request), s₁.params = s₂.params →
    s₁.pending = r :: rest₁ → s₂.pending = r :: rest₂ →
    ∃ t₁ t₂ : State, step s₁ = .next t₁ ∧ step s₂ = .next t₂ ∧ t₁.resp = t₂.resp

/-- Bytes that are not presented never influence a response (derived: R14, R38, 93_implementation_defined.md I11). -/
def Obligations.UnpresentedBytesNeverMatter : Prop :=
  ∀ (s : State) (r r' : Request) (rest : List Request), Spec.SamePresented r r' →
    ∃ t t' : State, step (s.loaded (r :: rest)) = .next t ∧ step (s.loaded (r' :: rest)) = .next t' ∧ t.resp = t'.resp

/-- The key matters only to DECODE of an encrypted variant (derived: R16, R180). -/
def Obligations.KeyIsIgnoredOutsideTheEncryptedVariants : Prop :=
  ∀ (s : State) (r r' : Request) (rest : List Request), Spec.SameButKey r r' →
    (r.op ≠ 0 ∨ (∃ e, r.classified = .error e) ∨ r.classified = .ok .plaintextShort ∨ r.classified = .ok .plaintextExtended) →
    ∃ t t' : State, step (s.loaded (r :: rest)) = .next t ∧ step (s.loaded (r' :: rest)) = .next t' ∧ t.resp = t'.resp

/-- Reserved op values and malformed leaf requests give IllegalRequest and nothing else (stated: R66). -/
def Obligations.ReservedAndMalformedRequestsAreIllegal : Prop :=
  ∀ (s : State) (r : Request) (rest : List Request), s.pending = r :: rest →
    (8 ≤ r.op.toNat ∨ (r.op = 2 ∧ r.inLen ≠ 3) ∨ (r.op = 6 ∧ 64 < r.inLen.toNat) ∨ (r.op = 7 ∧ r.inLen ≠ 16)) →
    step s = .next
      { s with pending := rest, req := r, resp := Spec.failed 7, delivered := s.delivered ++ [Spec.failed 7] }

/-- Every step keeps the canonical byte spaces and the shape of every response (derived: R17, R21, R22, R173, R98).
The shape of a response is the rules'; that the byte spaces have one canonical form is the model's choice (log 5), and
so are the two lists the invariant ranges over (logs 1 and 3). When a record is valid at all is
RecordAndVariantAreValidExactly. -/
def Obligations.StepKeepsTheInvariant : Prop :=
  ∀ s t : State, s.inv = true → step s = .next t → t.inv = true

/-- The state after reset meets the invariant (derived: R24, R190). R24 and R190 give the zero response ports, for an
implementation that drives them outside a transaction (log 3); the empty request spaces and their canonical form (logs
4 and 5) and the empty lists (logs 2 and 3) are the model's choices. -/
def Obligations.ResetMeetsTheInvariant : Prop :=
  State.reset.inv = true

/-- After reset every port is 0, no key is known and nothing is pending (derived: R24, R190). R24 gives the absence of
a key, and zero response ports only where an implementation drives them outside a transaction; that the model drives
them is its choice (log 3). The zeros of the other request ports (logs 4 and 5) and the empty lists (logs 2 and 3) are
the model's choices too; the parameters are the spec's defaults (log 6). -/
def Obligations.ResetLeavesAnIdleBlock : Prop :=
  State.reset.resp = Spec.allZero ∧ State.reset.req.keyLen = 0 ∧
    State.reset.req.op = 0 ∧ State.reset.req.inKind = .binary ∧ State.reset.req.inLen = 0 ∧ State.reset.req.arg = 0 ∧
    (∀ (sp : Space) (a : Nat), (State.reset.req.space sp).read a = 0) ∧
    State.reset.pending = [] ∧ State.reset.delivered = [] ∧
    State.reset.params = { innerVoltNibble := .low, encAltSigned := false }

/-- Reset abandons what is pending, and the next response is as if there had been no reset (derived: R190, R24). R190
abandons the transaction in hand. A transaction is atomic in the model, so the reset event falls between steps (log
11); that it then drops the requests not yet taken, that the ports are driven to 0, and that the responses already
delivered stay delivered are the model's choices (log 3). -/
def Obligations.ResetAbandonsWhatIsPending : Prop :=
  ∀ (s : State) (r : Request), s.takeReset.pending = [] ∧ s.takeReset.resp = Spec.allZero ∧
    s.takeReset.delivered = s.delivered ∧
    ∃ t : State, step (s.takeReset.issue r) = .next t ∧ t.resp = transaction s.params r ∧
      t.delivered = s.delivered ++ [t.resp]

/-- No instruction writes a byte space or a request field (stated: R164). -/
def Obligations.ExecWritesOnlyTheResponse : Prop :=
  ∀ (i : Instr) (s t : State), exec i s = .next t →
    t.req = s.req ∧ (∀ (sp : Space) (a : Nat), (t.req.space sp).read a = (s.req.space sp).read a) ∧
    t.params = s.params ∧ t.pending = s.pending ∧ t.delivered = s.delivered ++ [t.resp]

/-- MemRead gives the bytes of the space, and only where the space holds them (derived: R32). The first clause is
R32's; it gives a failing assertion no outcome, and that the read then answers nothing is the model's choice (log 9).
-/
def Obligations.MemReadIsTheRunOfBytes : Prop :=
  ∀ (r : Request) (sp : Space) (off n : Nat),
    (off + n ≤ r.spaceSize sp →
      ∃ b : Bytes, memRead r sp off n = some b ∧ b.length = n ∧ ∀ k, k < n → byteAt b k = (r.space sp).read (off + k)) ∧
    (r.spaceSize sp < off + n → memRead r sp off n = none)

/-- A failed response carries the status and at most the variant (stated: R173). -/
def Obligations.FailedResponsesCarryNoRecord : Prop :=
  ∀ (s : State) (r : Request) (rest : List Request), s.pending = r :: rest →
    ∃ t : State, step s = .next t ∧ (t.resp.status ≠ 0 →
      t.resp.recValid = false ∧ t.resp.record = Record.zero ∧ t.resp.res = 0 ∧
      (t.resp.variantValid = true ↔ t.resp.status = 4 ∨ t.resp.status = 5) ∧
      (t.resp.variantValid = true → r.op = 0 ∧ t.resp.variant = if r.inKind = .binary then 2 else 3) ∧
      (t.resp.variantValid = false → t.resp.variant = 0))

/-- Each error is reported under exactly its condition (stated: R171). -/
def Obligations.ExactErrorConditions : Prop :=
  ∀ (p : Params) (r : Request),
    let st := (transaction p r).status
    let len : Nat := r.inLen.toNat
    let line := r.inData.readBytes 0 len
    let shaped := len ≤ 64 ∧ ∃ d1 d2 f : Bytes, Spec.Shape line d1 d2 f
    let blobbed := len ≤ 64 ∧ ∃ d1 d2 f : Bytes, Spec.Shape line d1 d2 f ∧ Spec.IsBlob f
    let cipher : Option Bytes :=
      match r.classified with
      | .ok .encryptedBinary => some (r.inData.readBytes 9 16)
      | .ok (.encryptedText _ _ blob) => some blob
      | .ok .plaintextShort | .ok .plaintextExtended | .error _ => none
    let legalKey := r.keyLen = 16 ∨ r.keyLen = 24 ∨ r.keyLen = 32
    (st = 1 ↔ (r.op = 0 ∨ r.op = 1) ∧
      (r.inKind = .binary ∧ len ≠ 15 ∧ len ≠ 18 ∧ len ≠ 25 ∨ r.inKind = .text ∧ ¬ shaped)) ∧
    (st = 2 ↔ r.op = 5 ∧ (r.arg.toNat % 2 ^ 16 < 2700 ∨ 4200 < r.arg.toNat % 2 ^ 16)) ∧
    (st = 3 ↔ (r.op = 0 ∨ r.op = 1) ∧ r.inKind = .text ∧ shaped ∧ ¬ blobbed) ∧
    (st = 4 ↔ r.op = 0 ∧ (∃ ct, cipher = some ct) ∧ ¬ legalKey) ∧
    (st = 5 ↔ r.op = 0 ∧ legalKey ∧ ∃ ct pt, cipher = some ct ∧ aesEcbDec r.key ct = .ok pt ∧ ¬ Spec.Intact (byteAt pt)) ∧
    (st = 6 ↔ r.op = 3 ∧ (Spec.roundedE4 r.arg < -8388608 ∨ 8388607 < Spec.roundedE4 r.arg)) ∧
    (st = 7 ↔ 8 ≤ r.op.toNat ∨ (r.op = 2 ∧ len ≠ 3) ∨ (r.op = 6 ∧ 64 < len) ∨ (r.op = 7 ∧ len ≠ 16))

/-- integrity_ok is 1 in every delivered record of an encrypted variant and 0 in a plaintext one (stated: R22). -/
def Obligations.IntegrityFlagContract : Prop :=
  ∀ (s : State) (r : Request) (rest : List Request), s.pending = r :: rest →
    ∃ t : State, step s = .next t ∧ (t.resp.recValid = true →
      (t.resp.record.hasIntegrity = true ↔ t.resp.variant = 2 ∨ t.resp.variant = 3) ∧
      t.resp.record.integrityOk = t.resp.record.hasIntegrity ∧
      (t.resp.record.hasIntegrity = true → ∃ ct pt, aesEcbDec r.key ct = .ok pt ∧ Spec.Intact (byteAt pt) ∧
        (r.classified = .ok .encryptedBinary ∧ ct = r.inData.readBytes 9 16 ∨
          ∃ a b, r.classified = .ok (.encryptedText a b ct))))

/-- Every 15-byte and every 18-byte binary frame decodes (stated: R115). -/
def Obligations.PlaintextFramesAlwaysDecode : Prop :=
  ∀ (s : State) (r : Request) (rest : List Request), s.pending = r :: rest → r.op = 0 → r.inKind = .binary →
    (r.inLen = 15 ∨ r.inLen = 18) →
    ∃ t : State, step s = .next t ∧ t.resp.status = 0 ∧ t.resp.recValid = true ∧
      t.resp.record.hasIntegrity = false ∧ t.resp.record.integrityOk = false

/-- The outer combined byte of an encrypted frame has no effect (stated: R128). -/
def Obligations.OuterCombinedByteIsIgnored : Prop :=
  ∀ (s : State) (r r' : Request) (rest : List Request), (r.op = 0 ∨ r.op = 1) → r.inKind = .binary → r.inLen = 25 →
    r'.op = r.op → r'.inKind = r.inKind → r'.inLen = r.inLen → r'.keyLen = r.keyLen → r'.keyData = r.keyData →
    (∀ k, k ≠ 8 → r'.inData.read k = r.inData.read k) →
    ∃ t t' : State, step (s.loaded (r :: rest)) = .next t ∧ step (s.loaded (r' :: rest)) = .next t' ∧ t.resp = t'.resp

/-- DEC_PLAIN_SHORT delivers the fifteen-byte record, and cannot fail (stated: R113). -/
def Obligations.DecPlainShortRecord : Prop :=
  ∀ s : State, 15 ≤ s.req.inSize →
    exec .decPlainShort s = .next (s.deliver (Spec.okRecord 0 (Spec.plainRecord s.req.inData.read)))

/-- DEC_PLAIN_EXT adds an unsigned speed and a signed altitude, and cannot fail (stated: R114). -/
def Obligations.DecPlainExtRecord : Prop :=
  ∀ s : State, 18 ≤ s.req.inSize →
    exec .decPlainExt s = .next (s.deliver (Spec.okRecord 1 (Spec.plainExtRecord s.req.inData.read)))

/-- DEC_ENC_BIN: the record where key and checksum are good, else its two errors in order (stated: R123). -/
def Obligations.DecEncBinWhole : Prop :=
  ∀ s : State, 25 ≤ s.req.inSize →
    (s.req.keyLen ≠ 16 → s.req.keyLen ≠ 24 → s.req.keyLen ≠ 32 →
      exec .decEncBin s = .next (s.deliver (Spec.failedAfter 4 2))) ∧
    (∀ nk nr : Nat, aesParams s.req.keyLen.toNat = some (nk, nr) →
      let p := invCipher nr (s.req.inData.readBytes 9 16)
        (keyExpansion nk nr (s.req.keyData.readBytes 0 s.req.keyLen.toNat))
      (¬ Spec.Intact (byteAt p) → exec .decEncBin s = .next (s.deliver (Spec.failedAfter 5 2))) ∧
      (Spec.Intact (byteAt p) →
        exec .decEncBin s =
          .next (s.deliver (Spec.okRecord 2 (Spec.encBinRecord s.params s.req.inData.read (byteAt p))))))

/-- DEC_ENC_TEXT: the record where key and checksum are good, else its two errors in order (stated: R150). -/
def Obligations.DecEncTextWhole : Prop :=
  ∀ (s : State) (a b : Word32) (blob : Bytes),
    (s.req.keyLen ≠ 16 → s.req.keyLen ≠ 24 → s.req.keyLen ≠ 32 →
      exec (.decEncText a b blob) s = .next (s.deliver (Spec.failedAfter 4 3))) ∧
    (∀ nk nr : Nat, aesParams s.req.keyLen.toNat = some (nk, nr) →
      let p := invCipher nr blob (keyExpansion nk nr (s.req.keyData.readBytes 0 s.req.keyLen.toNat))
      (¬ Spec.Intact (byteAt p) → exec (.decEncText a b blob) s = .next (s.deliver (Spec.failedAfter 5 3))) ∧
      (Spec.Intact (byteAt p) →
        exec (.decEncText a b blob) s = .next (s.deliver (Spec.okRecord 3 (Spec.encTextRecord a b (byteAt p))))))

/-- DECODE classifies and runs exactly the decoder of the class (stated: R73). -/
def Obligations.DecodeIsTheWholeOperation : Prop :=
  ∀ s : State, exec (.decode s.req.inKind s.req.inLen) s = .next (s.deliver (decodeTransaction s.params s.req))

/-- DECODE delivers the record of the decoder classification chose (derived: R73, R17). -/
def Obligations.DecodeDeliversTheRecordOfItsClass : Prop :=
  ∀ (s : State) (c : PacketClass) (rec : Record), s.req.classified = .ok c → decodeClass s.params s.req c = .ok rec →
    exec (.decode s.req.inKind s.req.inLen) s =
      .next (s.deliver (Spec.okRecord
        (match c with | .plaintextShort => 0 | .plaintextExtended => 1 | .encryptedBinary => 2 | .encryptedText _ _ _ => 3)
        rec))

/-- A request that only the row DECODE takes fails in classification (derived: R61, R73, 30_encoding.md section 4). -/
def Obligations.FallThroughRowFailsInClassification : Prop :=
  ∀ (s : State) (r : Request) (rest : List Request) (kind : InKind) (len : BitVec 16), s.pending = r :: rest →
    decode (fetchBytes r) = .ok (.decode kind len) →
    step s = .next ({ s with req := r, pending := rest }.deliver (Spec.failed 1)) ∨
    kind = .text ∧ step s = .next ({ s with req := r, pending := rest }.deliver (Spec.failed 3))

/-- CLASSIFY of a binary transmission goes by the length alone (stated: R70). -/
def Obligations.ClassifyBinaryByLengthAlone : Prop :=
  ∀ (s : State) (len : BitVec 16),
    exec (.classify .binary len) s = .next (s.deliver
      (if len = 15 then Spec.okVariant 0 else if len = 18 then Spec.okVariant 1
       else if len = 25 then Spec.okVariant 2 else Spec.failed 1))

/-- CLASSIFY of a text line: its shape, then its blob (derived: R72, R71). -/
def Obligations.ClassifyTextByShape : Prop :=
  ∀ s : State,
    let len := s.req.inLen
    let line := s.req.inData.readBytes 0 len.toNat
    ((64 < len.toNat ∨ ¬ ∃ d1 d2 f : Bytes, Spec.Shape line d1 d2 f) →
      exec (.classify .text len) s = .next (s.deliver (Spec.failed 1))) ∧
    (∀ d1 d2 f : Bytes, len.toNat ≤ 64 → Spec.Shape line d1 d2 f → ¬ Spec.IsBlob f →
      exec (.classify .text len) s = .next (s.deliver (Spec.failed 3))) ∧
    (∀ d1 d2 f : Bytes, len.toNat ≤ 64 → Spec.Shape line d1 d2 f → Spec.IsBlob f →
      exec (.classify .text len) s = .next (s.deliver (Spec.okVariant 3)))

/-- The classifier accepts exactly the lines of the grammar, with their values (derived: R56, R71, R152, R153). The
grammar and the lengths are R56's, the acceptance R71's, the decimal values R152's and the bytes of the blob R153's.
-/
def Obligations.TextGrammarIsAcceptedExactly : Prop :=
  (∀ (line : Bytes) (a b : Word32) (blob : Bytes),
      classifyTxt line.length line = .ok (.encryptedText a b blob) ↔
        ∃ d1 d2 f : Bytes, Spec.Shape line d1 d2 f ∧ Spec.IsBlob f ∧ a.toNat = Spec.decimalValue d1 ∧
          b.toNat = Spec.decimalValue d2 ∧ blob.length = 16 ∧
          be blob = (f.take 22).foldl (fun acc c => acc * 64 + Spec.b64Value c) 0 / 16) ∧
    (∀ line d1 d2 f : Bytes, Spec.Shape line d1 d2 f → Spec.IsBlob f → 28 ≤ line.length ∧ line.length ≤ 46) ∧
    (∃ line d1 d2 f : Bytes, Spec.Shape line d1 d2 f ∧ Spec.IsBlob f ∧ line.length = 28) ∧
    (∃ line d1 d2 f : Bytes, Spec.Shape line d1 d2 f ∧ Spec.IsBlob f ∧ line.length = 46)

/-- The classifier is total with exactly the two errors (stated: R74). -/
def Obligations.ClassifierIsTotal : Prop :=
  (∀ n : Nat, n ≠ 15 → n ≠ 18 → n ≠ 25 → classifyBin n = .error .unrecognizedLength) ∧
    classifyBin 15 = .ok .plaintextShort ∧ classifyBin 18 = .ok .plaintextExtended ∧ classifyBin 25 = .ok .encryptedBinary ∧
    (∀ line : Bytes, (∃ a b blob, classifyTxt line.length line = .ok (.encryptedText a b blob)) ∨
      classifyTxt line.length line = .error .unrecognizedLength ∨ classifyTxt line.length line = .error .base64Invalid) ∧
    (∀ line d1 d2 f : Bytes, line.length ≤ 64 → Spec.Shape line d1 d2 f → b64Dec16 f = none →
      classifyTxt line.length line = .error .base64Invalid)

/-- DecU32 accepts 1 to 10 digits of value below 2^32 and gives the value (stated: R152). -/
def Obligations.DecimalIdentifierIsItsValue : Prop :=
  ∀ f : Bytes, (∀ v : Word32, decU32 f = some v ↔ Spec.IsId f ∧ v.toNat = Spec.decimalValue f) ∧
    (¬ Spec.IsId f → decU32 f = none)

/-- The base64 blob decodes group by group (derived: R153). -/
def Obligations.Base64GroupByGroup : Prop :=
  (∀ f : Bytes, (∃ blob, b64Dec16 f = some blob) ↔ Spec.IsBlob f) ∧
    (∀ f blob : Bytes, b64Dec16 f = some blob →
      let d : Nat → Nat := fun k => Spec.b64Value (byteAt f k)
      blob.length = 16 ∧
      (∀ g, g < 5 →
        (byteAt blob (3 * g)).toNat = d (4 * g) * 4 + d (4 * g + 1) / 16 ∧
        (byteAt blob (3 * g + 1)).toNat = (d (4 * g + 1) % 16) * 16 + d (4 * g + 2) / 4 ∧
        (byteAt blob (3 * g + 2)).toNat = (d (4 * g + 2) % 4) * 64 + d (4 * g + 3)) ∧
      (byteAt blob 15).toNat = d 20 * 4 + d 21 / 16)

/-- GEO_DEC gives the signed 24-bit number of its three bytes (stated: R85). -/
def Obligations.GeoDecResult : Prop :=
  ∀ (s : State) (kind : InKind), (3 ≤ s.req.inSize →
      exec (.geoDec kind 3) s = .next (s.deliver (Spec.okScalar (BitVec.ofInt 32
        (Spec.geoValue (s.req.inData.read 0) (s.req.inData.read 1) (s.req.inData.read 2)))))) ∧
    (∀ len : BitVec 16, len ≠ 3 → exec (.geoDec kind len) s = .next (s.deliver (Spec.failed 7)))

/-- GEO_DEC is a bijection from three bytes onto the 24-bit range (derived: R85, R87). -/
def Obligations.GeoDecIsABijection : Prop :=
  (∀ b0 b1 b2 : Byte, -8388608 ≤ geoDec b0 b1 b2 ∧ geoDec b0 b1 b2 ≤ 8388607) ∧
    (∀ b0 b1 b2 c0 c1 c2 : Byte, geoDec b0 b1 b2 = geoDec c0 c1 c2 → b0 = c0 ∧ b1 = c1 ∧ b2 = c2) ∧
    (∀ e4 : Int, -8388608 ≤ e4 → e4 ≤ 8388607 → ∃ b0 b1 b2 : Byte, geoDec b0 b1 b2 = e4)

/-- GEO_ENC rounds to the nearest step and refuses what does not fit 24 bits (derived: R86, R67). -/
def Obligations.GeoEncResult : Prop :=
  ∀ (s : State) (kind : InKind) (len : BitVec 16),
    let e4 : Int := Spec.roundedE4 s.req.arg
    (-8388608 ≤ e4 → e4 ≤ 8388607 →
      exec (.geoEnc kind len) s = .next (s.deliver (Spec.okScalar (BitVec.ofInt 32 (e4 % 16777216))))) ∧
    ((e4 < -8388608 ∨ 8388607 < e4) → exec (.geoEnc kind len) s = .next (s.deliver (Spec.failed 6)))

/-- The port form of GEO_ENC agrees with rounding the rational number of degrees (derived: R86). -/
def Obligations.GeoEncAgreesWithRationalRounding : Prop :=
  ∀ arg : Word32, geoEnc arg = geoEncDegrees ((arg.toInt : Rat) / 1000000)

/-- The geo round-trip laws (stated: R88). -/
def Obligations.GeoRoundTripLaw : Prop :=
  (∀ v : Rat, |v| < 838 → ∃ b : Byte × Byte × Byte, geoEncDegrees v = .ok b ∧
        |degrees (geoDec b.1 b.2.1 b.2.2) - v| ≤ 1 / 20000 ∧
        (|degrees (geoDec b.1 b.2.1 b.2.2) - v| = 1 / 20000 ↔ ∃ k : Int, v * 10000 = k + 1 / 2)) ∧
    (∀ b0 b1 b2 : Byte, geoEncDegrees (degrees (geoDec b0 b1 b2)) = .ok (b0, b1, b2)) ∧
    (∀ b0 b1 b2 : Byte, geoEnc (BitVec.ofInt 32 (100 * geoDec b0 b1 b2)) = .ok (b0, b1, b2))

/-- VOLT_DEC gives (nibble + 27) * 100 millivolts (stated: R95). -/
def Obligations.VoltDecResult : Prop :=
  ∀ (s : State) (kind : InKind) (len : BitVec 16),
    exec (.voltDec kind len) s =
      .next (s.deliver (Spec.okScalar (BitVec.ofNat 32 ((s.req.arg.toNat % 16 + 27) * 100))))

/-- VOLT_ENC gives the nearest step inside the closed interval and refuses outside it (stated: R96). -/
def Obligations.VoltEncResult : Prop :=
  ∀ (s : State) (kind : InKind) (len : BitVec 16),
    let mv : Nat := s.req.arg.toNat % 2 ^ 16
    (2700 ≤ mv → mv ≤ 4200 →
      exec (.voltEnc kind len) s = .next (s.deliver (Spec.okScalar (BitVec.ofNat 32 ((mv - 2700 + 50) / 100))))) ∧
    ((mv < 2700 ∨ 4200 < mv) → exec (.voltEnc kind len) s = .next (s.deliver (Spec.failed 2)))

/-- The voltage round-trip laws (stated: R98). -/
def Obligations.VoltageRoundTripLaw : Prop :=
  (∀ n : Nibble, voltEnc (voltDec n) = .ok n ∧ 2700 ≤ (voltDec n).toNat ∧ (voltDec n).toNat ≤ 4200) ∧
    (∀ mv : BitVec 16, 2700 ≤ mv.toNat → mv.toNat ≤ 4200 → ∃ n : Nibble, voltEnc mv = .ok n ∧
      (voltDec n = mv ↔ mv.toNat % 100 = 0) ∧
      (voltDec n).toNat ≤ mv.toNat + 50 ∧ mv.toNat ≤ (voltDec n).toNat + 50) ∧
    (∀ (s : State) (enc dec : Request), enc.op = 5 → dec.op = 4 →
      2700 ≤ enc.arg.toNat % 2 ^ 16 → enc.arg.toNat % 2 ^ 16 ≤ 4200 →
      ∃ t u : State, step (s.loaded [enc]) = .next t ∧ t.resp.status = 0 ∧
        step (t.loaded [{ dec with arg := t.resp.res }]) = .next u ∧ u.resp.status = 0 ∧
        u.resp.res.toNat ≤ enc.arg.toNat % 2 ^ 16 + 50 ∧ enc.arg.toNat % 2 ^ 16 ≤ u.resp.res.toNat + 50)

/-- CSUM_SUM gives the sum of the presented bytes modulo 256 (stated: R106). -/
def Obligations.CsumSumResult : Prop :=
  ∀ (s : State) (kind : InKind) (len : BitVec 16),
    (len.toNat ≤ 64 → len.toNat ≤ s.req.inSize →
      exec (.csumSum kind len) s = .next (s.deliver (Spec.okScalar (BitVec.ofNat 32
        (((List.range len.toNat).map fun k => (s.req.inData.read k).toNat).sum % 256))))) ∧
    (64 < len.toNat → exec (.csumSum kind len) s = .next (s.deliver (Spec.failed 7)))

/-- CSUM_VERIFY gives its verdict as a value (derived: R107, R67). -/
def Obligations.CsumVerifyResult : Prop :=
  ∀ (s : State) (kind : InKind), (16 ≤ s.req.inSize →
      (Spec.Intact s.req.inData.read → exec (.csumVerify kind 16) s = .next (s.deliver (Spec.okScalar 1))) ∧
      (¬ Spec.Intact s.req.inData.read → exec (.csumVerify kind 16) s = .next (s.deliver (Spec.okScalar 0)))) ∧
    (∀ len : BitVec 16, len ≠ 16 → exec (.csumVerify kind len) s = .next (s.deliver (Spec.failed 7)))

/-- Changing any one byte of a verifying block makes it fail (derived: R107). -/
def Obligations.OneChangedByteDefeatsTheChecksum : Prop :=
  ∀ (p q : Bytes) (k : Nat), p.length = 16 → q.length = 16 → k < 16 → byteAt p k ≠ byteAt q k →
    (∀ j, j ≠ k → byteAt p j = byteAt q j) → csumVerify p = true → csumVerify q = false

/-- Sum8 is the sum of the bytes: it adds over concatenation, wraps at 256 and does not see the order (derived: R105,
R106). -/
def Obligations.SumOfBytesIsAdditiveAndOrderBlind : Prop :=
  sum8 [] = 0 ∧ (∀ b : Byte, sum8 [b] = b) ∧ (∀ a b : Bytes, sum8 (a ++ b) = sum8 a + sum8 b) ∧
    (∀ a b : Bytes, a.Perm b → sum8 a = sum8 b)

/-- The inverse cipher and the forward cipher undo each other (stated: R147). -/
def Obligations.CiphersAreInverse : Prop :=
  ∀ (nr : Nat) (x : Bytes) (w : List Column), x.length = 16 →
    invCipher nr (fwdCipher nr x w) w = x ∧ fwdCipher nr (invCipher nr x w) w = x

/-- The two S-box tables are inverse permutations (derived: R139, R138). -/
def Obligations.InverseSboxUndoesTheSbox : Prop :=
  ∀ a : Byte, invSbox (sbox a) = a ∧ sbox (invSbox a) = a

/-- The S-box table is the affine image of the multiplicative inverse (derived: R138, R137). -/
def Obligations.SboxIsTheAffineImageOfTheInverse : Prop :=
  (∀ a b : Byte, (gmul a b = 1 ∨ (a = 0 ∧ b = 0)) →
      sbox a = b ^^^ b.rotateLeft 1 ^^^ b.rotateLeft 2 ^^^ b.rotateLeft 3 ^^^ b.rotateLeft 4 ^^^ 0x63) ∧
    (∀ a : Byte, a ≠ 0 → ∃ b : Byte, gmul a b = 1)

/-- gmul is bilinear, commutative and associative, with xtime as multiplication by 2 (derived: R137). -/
def Obligations.GmulIsAFieldMultiplication : Prop :=
  ∀ a b c : Byte, gmul (a ^^^ b) c = gmul a c ^^^ gmul b c ∧ gmul a b = gmul b a ∧
    gmul (gmul a b) c = gmul a (gmul b c) ∧ gmul a 1 = a ∧ gmul a 2 = xtime a

/-- The key schedule follows its recurrence (stated: R141). -/
def Obligations.KeyScheduleRecurrence : Prop :=
  (∀ (keyLen nk nr : Nat) (key : Bytes), aesParams keyLen = some (nk, nr) →
    let w := keyExpansion nk nr key
    w.length = 4 * (nr + 1) ∧
    (∀ i, i < nk → wordAt w i = ⟨byteAt key (4 * i), byteAt key (4 * i + 1), byteAt key (4 * i + 2), byteAt key (4 * i + 3)⟩) ∧
    (∀ i, nk ≤ i → i < 4 * (nr + 1) →
      wordAt w i = (wordAt w (i - nk)).xor
        (if i % nk = 0 then (subWord (rotWord (wordAt w (i - 1)))).xor ⟨rcon (i / nk), 0, 0, 0⟩
         else if 6 < nk ∧ i % nk = 4 then subWord (wordAt w (i - 1)) else wordAt w (i - 1)))) ∧
    (∀ a0 a1 a2 a3 : Byte, rotWord ⟨a0, a1, a2, a3⟩ = ⟨a1, a2, a3, a0⟩ ∧
      subWord ⟨a0, a1, a2, a3⟩ = ⟨sbox a0, sbox a1, sbox a2, sbox a3⟩) ∧
    (∀ a0 a1 a2 a3 b0 b1 b2 b3 : Byte,
      Column.xor ⟨a0, a1, a2, a3⟩ ⟨b0, b1, b2, b3⟩ = ⟨a0 ^^^ b0, a1 ^^^ b1, a2 ^^^ b2, a3 ^^^ b3⟩) ∧
    rcon 1 = 1 ∧ (∀ j, 1 ≤ j → rcon (j + 1) = xtime (rcon j))

/-- AES_ECB_DEC refuses by the key length alone and otherwise deciphers (stated: R135). -/
def Obligations.DecryptionFailsByKeyLengthAlone : Prop :=
  ∀ (bytes ct : Bytes), aesEcbDec none ct = .error .decryptFailed ∧
    (∀ n, n ≠ 16 → n ≠ 24 → n ≠ 32 → aesEcbDec (some ⟨n, bytes⟩) ct = .error .decryptFailed) ∧
    aesEcbDec (some ⟨16, bytes⟩) ct = .ok (invCipher 10 ct (keyExpansion 4 10 bytes)) ∧
    aesEcbDec (some ⟨24, bytes⟩) ct = .ok (invCipher 12 ct (keyExpansion 6 12 bytes)) ∧
    aesEcbDec (some ⟨32, bytes⟩) ct = .ok (invCipher 14 ct (keyExpansion 8 14 bytes))

/-- A frame enciphered under the key presented decodes to its record, or is refused if its integrity byte is wrong
(derived: R130, R123, R127, R147). -/
def Obligations.EncryptedFrameDecodesWithItsKey : Prop :=
  ∀ (s : State) (rest : List Request) (id1 id2 : Word32) (outer : Byte) (p key : Bytes) (nk nr : Nat) (arg : Word32),
    p.length = 16 → aesParams key.length = some (nk, nr) →
    let frame := Spec.ebFrame id1 id2 outer (fwdCipher nr p (keyExpansion nk nr key))
    let r : Request :=
      { op := 0, inKind := .binary, inLen := 25, inData := Memory.ofBytes frame,
        keyLen := BitVec.ofNat 6 key.length, keyData := Memory.ofBytes key, arg := arg }
    ∃ t : State, step (s.loaded (r :: rest)) = .next t ∧
      (Spec.Intact (byteAt p) →
        t.resp = Spec.okRecord 2 { Spec.encBinRecord s.params (byteAt frame) (byteAt p) with id1 := id1, id2 := id2 } ∧
        2700 ≤ t.resp.record.batteryMv.toNat ∧ t.resp.record.batteryMv.toNat ≤ 4200) ∧
      (¬ Spec.Intact (byteAt p) → t.resp = Spec.failedAfter 5 2)

/-- What the battery and coordinate fields of the records of all four variants stand for (derived: R20, R95, R85,
R126, R155, R156). That the readings are definitions beside the machine is log 12; INNER_VOLT_NIBBLE is a parameter
(log 6). -/
def Obligations.ReadingsOfTheRecords : Prop :=
  (∀ f : Bytes,
      let volts : Rat := (((byteAt f 8).toNat % 16 : Nat) + 27) / 10
      let lat : Int := Spec.geoValue (byteAt f 9) (byteAt f 10) (byteAt f 11)
      let lon : Int := Spec.geoValue (byteAt f 12) (byteAt f 13) (byteAt f 14)
      ∀ rec ∈ [decPlainShort f, decPlainExt f],
        batteryVolts rec = volts ∧ latitude rec = .rational ((lat : Rat) / 10000) ∧
        longitude rec = .rational ((lon : Rat) / 10000)) ∧
    (∀ (prm : Params) (f p : Bytes),
      let n : Nat := if prm.innerVoltNibble = .low then (byteAt p 0).toNat % 16 else (byteAt p 0).toNat / 16
      let lat : Int := Spec.geoValue (byteAt p 1) (byteAt p 2) (byteAt p 3)
      let lon : Int := Spec.geoValue (byteAt p 4) (byteAt p 5) (byteAt p 6)
      batteryVolts (encBinRecord prm f p) = ((n : Rat) + 27) / 10 ∧
      latitude (encBinRecord prm f p) = .rational ((lat : Rat) / 10000) ∧
      longitude (encBinRecord prm f p) = .rational ((lon : Rat) / 10000)) ∧
    (∀ (a b : Word32) (p : Bytes), p.length = 16 →
      batteryVolts (encTextRecord a b p) = (((byteAt p 8).toNat + (byteAt p 9).toNat * 256 : Nat) : Rat) / 1000 ∧
      latitude (encTextRecord a b p) =
        f32Value (BitVec.ofNat 32 (Spec.leNumber (byteAt p 0) (byteAt p 1) (byteAt p 2) (byteAt p 3))) ∧
      longitude (encTextRecord a b p) =
        f32Value (BitVec.ofNat 32 (Spec.leNumber (byteAt p 4) (byteAt p 5) (byteAt p 6) (byteAt p 7))))

/-- What a binary32 pattern stands for (derived: R155). R155's function returns a rational, an infinity or NaN, keeps
the sign of zero and gives 80000000 as -0; that -0 is a reading of its own and not the rational 0 (the third clause,
and the exception in the fourth) is the model's deduction (log 12). -/
def Obligations.Binary32Reading : Prop :=
  ∀ w : Word32,
    let s : Nat := w.toNat / 2 ^ 31
    let e : Nat := w.toNat / 2 ^ 23 % 256
    let m : Nat := w.toNat % 2 ^ 23
    (e = 255 → m = 0 → f32Value w = if s = 0 then .posInf else .negInf) ∧
    (e = 255 → m ≠ 0 → f32Value w = .nan) ∧
    (e = 0 → m = 0 → s = 1 → f32Value w = .negZero) ∧
    (e = 0 → (m ≠ 0 ∨ s = 0) → f32Value w = .rational ((-1 : Rat) ^ s * m * (2 : Rat) ^ (-149 : Int))) ∧
    (e ≠ 255 → e ≠ 0 → f32Value w = .rational ((-1 : Rat) ^ s * (2 ^ 23 + m) * (2 : Rat) ^ ((e : Int) - 150)))

/-- rec_valid exactly for a DECODE that ends with OK, variant_valid exactly where classification succeeded (derived:
R17). The field by field meaning R17 gives the ports but the codes of the status, which ExactErrorConditions states.
-/
def Obligations.RecordAndVariantAreValidExactly : Prop :=
  ∀ (s : State) (r : Request) (rest : List Request), s.pending = r :: rest →
    ∃ t : State, step s = .next t ∧
      (t.resp.recValid = true ↔ r.op = 0 ∧ t.resp.status = 0) ∧
      (t.resp.variantValid = true ↔ (r.op = 0 ∨ r.op = 1) ∧ ∃ c, r.classified = .ok c) ∧
      (∀ c, (r.op = 0 ∨ r.op = 1) → r.classified = .ok c →
        t.resp.variant =
          match c with
          | .plaintextShort => 0
          | .plaintextExtended => 1
          | .encryptedBinary => 2
          | .encryptedText _ _ _ => 3) ∧
      (t.resp.variantValid = false → t.resp.variant = 0) ∧
      ((r.op = 0 ∨ r.op = 1) → t.resp.res = 0)
end

