-- ==== Sys2Proof/Laws/Memory.lean ====
section
/-! SUPPORT. The byte spaces: the canonical form is kept by every operation, a read after a write, a read of what was
presented, and the length and entries of a run of bytes. -/

namespace Sys2Proof.Machine

theorem Memory.wfFrom_cons {lo cap a : Nat} {b : Byte} {m : Memory} :
    Memory.wfFrom lo cap ((a, b) :: m) = true ↔
      lo ≤ a ∧ a < cap ∧ b ≠ unlistedByte ∧ Memory.wfFrom (a + 1) cap m = true := by
  simp [Memory.wfFrom, and_assoc]

theorem Memory.wfFrom_mono {lo lo' cap : Nat} (h : lo' ≤ lo) :
    ∀ {m : Memory}, Memory.wfFrom lo cap m = true → Memory.wfFrom lo' cap m = true
  | [], _ => rfl
  | (_, _) :: _, hm => by
    rw [Memory.wfFrom_cons] at hm ⊢
    exact ⟨le_trans h hm.1, hm.2⟩

/-- A cell below the least offset of a canonical space is not listed. -/
theorem Memory.read_of_lt {cap i : Nat} :
    ∀ {lo : Nat} {m : Memory}, Memory.wfFrom lo cap m = true → i < lo → m.read i = unlistedByte
  | _, [], _, _ => rfl
  | _, (a, b) :: m, hm, hi => by
    rw [Memory.wfFrom_cons] at hm
    have hne : a ≠ i := by omega
    simp only [Memory.read, hne, if_false]
    exact Memory.read_of_lt hm.2.2.2 (by omega)

theorem Memory.write_wfFrom {cap i : Nat} {v : Byte} (hi : i < cap) :
    ∀ {lo : Nat} {m : Memory}, lo ≤ i → Memory.wfFrom lo cap m = true → Memory.wfFrom lo cap (m.write i v) = true
  | lo, [], hlo, _ => by
    by_cases hv : v = unlistedByte
    · simp [Memory.write, hv, Memory.wfFrom]
    · simp [Memory.write, hv, Memory.wfFrom, hlo, hi]
  | lo, (a, b) :: m, hlo, hm => by
    have hm' := Memory.wfFrom_cons.1 hm
    unfold Memory.write
    by_cases h1 : i < a
    · by_cases hv : v = unlistedByte
      · simpa [h1, hv] using hm
      · rw [if_pos h1, if_neg hv, Memory.wfFrom_cons, Memory.wfFrom_cons]
        exact ⟨hlo, hi, hv, by omega, hm'.2⟩
    · by_cases h2 : i = a
      · subst h2
        by_cases hv : v = unlistedByte
        · simpa [hv] using Memory.wfFrom_mono (by omega) hm'.2.2.2
        · rw [if_neg h1, if_pos rfl, if_neg hv, Memory.wfFrom_cons]
          exact ⟨hlo, hi, hv, hm'.2.2.2⟩
      · rw [if_neg h1, if_neg h2, Memory.wfFrom_cons]
        exact ⟨hm'.1, hm'.2.1, hm'.2.2.1, Memory.write_wfFrom hi (by omega) hm'.2.2.2⟩

/-- A write keeps the canonical form. -/
theorem Memory.write_wf {cap i : Nat} {v : Byte} {m : Memory} (hi : i < cap) (hm : m.wf cap = true) :
    (m.write i v).wf cap = true :=
  Memory.write_wfFrom hi (Nat.zero_le i) hm

/-- A read after a write: the written byte at its offset, every other byte as before. -/
theorem Memory.read_write {cap i j : Nat} {v : Byte} :
    ∀ {lo : Nat} {m : Memory}, Memory.wfFrom lo cap m = true →
      (m.write i v).read j = if j = i then v else m.read j
  | _, [], _ => by
    by_cases hv : v = unlistedByte
    · simp [Memory.write, Memory.read, hv]
    · by_cases hj : j = i
      · simp [Memory.write, Memory.read, hv, hj]
      · simp [Memory.write, Memory.read, hv, hj, Ne.symm hj]
  | lo, (a, b) :: m, hm => by
    have hm' := Memory.wfFrom_cons.1 hm
    unfold Memory.write
    by_cases h1 : i < a
    · by_cases hj : j = i
      · subst hj
        have hne : a ≠ j := by omega
        have hlow : Memory.read m j = unlistedByte := Memory.read_of_lt hm'.2.2.2 (by omega)
        by_cases hv : v = unlistedByte <;> simp [h1, hv, Memory.read, hne, hlow]
      · have hne : i ≠ j := fun h => hj h.symm
        by_cases hv : v = unlistedByte <;> simp [h1, hv, Memory.read, hne, hj]
    · by_cases h2 : i = a
      · subst h2
        by_cases hj : j = i
        · subst hj
          have hlow : Memory.read m j = unlistedByte := Memory.read_of_lt hm'.2.2.2 (by omega)
          by_cases hv : v = unlistedByte <;> simp [hv, Memory.read, hlow]
        · have hne : i ≠ j := fun h => hj h.symm
          by_cases hv : v = unlistedByte <;> simp [hv, Memory.read, hne, hj]
      · have ih := Memory.read_write (i := i) (j := j) (v := v) hm'.2.2.2
        rw [if_neg h1, if_neg h2, Memory.read, Memory.read, ih]
        by_cases haj : a = j
        · have hj : j ≠ i := by omega
          simp [haj, hj]
        · simp [haj]

theorem Memory.ofBytesAt_wfFrom {cap : Nat} :
    ∀ {off : Nat} {bs : Bytes}, off + bs.length ≤ cap → Memory.wfFrom off cap (Memory.ofBytesAt off bs) = true
  | _, [], _ => rfl
  | off, b :: bs, h => by
    have h' : off + 1 + bs.length ≤ cap := by simp at h; omega
    have ih := Memory.ofBytesAt_wfFrom h'
    by_cases hb : b = unlistedByte
    · simpa [Memory.ofBytesAt, hb] using Memory.wfFrom_mono (by omega) ih
    · rw [Memory.ofBytesAt, if_neg hb, Memory.wfFrom_cons]
      exact ⟨le_rfl, by omega, hb, ih⟩

/-- What the host presents is in canonical form. -/
theorem Memory.ofBytes_wf {cap : Nat} {bs : Bytes} (h : bs.length ≤ cap) : (Memory.ofBytes bs).wf cap = true :=
  Memory.ofBytesAt_wfFrom (by omega)

theorem Memory.read_ofBytesAt {i : Nat} :
    ∀ {off : Nat} {bs : Bytes}, (Memory.ofBytesAt off bs).read i = if i < off then unlistedByte else bs.getD (i - off) unlistedByte
  | off, [] => by simp [Memory.ofBytesAt, Memory.read]
  | off, b :: bs => by
    have ih := Memory.read_ofBytesAt (i := i) (off := off + 1) (bs := bs)
    rcases Nat.lt_trichotomy i off with h | h | h
    · have h1 : i < off + 1 := by omega
      have h2 : off ≠ i := by omega
      by_cases hb : b = unlistedByte <;> simp [Memory.ofBytesAt, Memory.read, hb, ih, h, h1, h2]
    · subst h
      by_cases hb : b = unlistedByte <;> simp [Memory.ofBytesAt, Memory.read, hb, ih]
    · have h1 : ¬ i < off + 1 := by omega
      have h2 : off ≠ i := by omega
      have h3 : ¬ i < off := by omega
      have h4 : i - off = (i - (off + 1)) + 1 := by omega
      by_cases hb : b = unlistedByte <;> simp [Memory.ofBytesAt, Memory.read, hb, ih, h1, h2, h3, h4]

/-- Reading what the host presented gives the sequence's bytes. -/
theorem Memory.read_ofBytes {bs : Bytes} {i : Nat} : (Memory.ofBytes bs).read i = bs.getD i unlistedByte := by
  simp [Memory.ofBytes, Memory.read_ofBytesAt]

@[simp] theorem Memory.length_readBytes (m : Memory) (off n : Nat) : (m.readBytes off n).length = n := by
  simp [Memory.readBytes]

theorem Memory.getD_readBytes {m : Memory} {off n i : Nat} (h : i < n) (d : Byte) :
    (m.readBytes off n).getD i d = m.read (off + i) := by
  simp [Memory.readBytes, List.getD_eq_getElem?_getD, List.getElem?_range h]

/-- Reading back the whole of what the host presented. -/
theorem Memory.readBytes_ofBytes (bs : Bytes) : (Memory.ofBytes bs).readBytes 0 bs.length = bs := by
  apply List.ext_getElem
  · simp
  · intro i h1 h2
    simp [Memory.readBytes, Memory.read_ofBytes, h2]

/-- Two spaces that agree on a run of offsets give the same run of bytes. -/
theorem Memory.readBytes_congr {m m' : Memory} {off n : Nat} (h : ∀ k, k < n → m.read (off + k) = m'.read (off + k)) :
    m.readBytes off n = m'.readBytes off n := by
  simp only [Memory.readBytes]
  exact List.map_congr_left fun k hk => h k (List.mem_range.1 hk)

end Sys2Proof.Machine
end

