-- ==== Sys2Proof/Laws/Decode.lean ====
section
/-! SUPPORT. What the decoder is given of a request, and what of it decides: the three selector bytes are the selector
word, the fields come out of it as they went in, and the line is the one classification reads. -/

namespace Sys2Proof

open Machine

/-- The three bytes of a selector word read back as its number (log 7). -/
theorem le_selBytes (sel : Sel) (rest : Bytes) : le (slice (selBytes sel ++ rest) 0 3) = sel.toNat := by
  have h := sel.isLt
  simp only [selBytes, slice, List.drop_zero, List.cons_append, List.take_succ_cons, List.take_zero,
    le, BitVec.toNat_ofNat, Nat.shiftRight_eq_div_pow]
  omega

/-- The `op` field of a selector word. -/
theorem selOf_op (op : BitVec 4) (kind : InKind) (len : BitVec 16) : (selOf op kind len).extractLsb' 17 4 = op := by
  apply BitVec.eq_of_getLsbD_eq
  intro i hi
  simp only [selOf, BitVec.getLsbD_extractLsb', BitVec.getLsbD_append, hi, decide_true, Bool.true_and]
  rw [if_neg (by omega), if_neg (by omega)]
  congr 1
  omega

/-- The `in_kind` bit of a selector word. -/
theorem selOf_kind (op : BitVec 4) (kind : InKind) (len : BitVec 16) :
    (selOf op kind len).getLsbD 16 = (kind == .text) := by
  simp only [selOf, BitVec.getLsbD_append]
  cases kind <;> simp [kindBit]

/-- The `in_len` field of a selector word. -/
theorem selOf_len (op : BitVec 4) (kind : InKind) (len : BitVec 16) : (selOf op kind len).extractLsb' 0 16 = len := by
  apply BitVec.eq_of_getLsbD_eq
  intro i hi
  simp only [selOf, BitVec.getLsbD_extractLsb', BitVec.getLsbD_append, hi, decide_true, Bool.true_and, Nat.zero_add]
  rfl

/-- A request's selector word is made of its three fields (R50). -/
theorem sel_eq_selOf (r : Request) : r.sel = selOf r.op r.inKind r.inLen := rfl

/-- The kind read back from the `in_kind` bit. -/
theorem kind_of_bit (kind : InKind) : (if (kind == .text) = true then InKind.text else .binary) = kind := by
  cases kind <;> rfl

/-- Row selection on the fields of a selector word (R50, R66). -/
theorem decodeSel_selOf (op : BitVec 4) (kind : InKind) (len : BitVec 16) (line : Bytes) :
    decodeSel (selOf op kind len) line =
      match op.toNat with
      | 0 =>
        match classifyBytes kind len.toNat line with
        | .ok c => .ok (rowOfClass c)
        | .error _ => .ok (.decode kind len)
      | 1 => .ok (.classify kind len)
      | 2 => .ok (.geoDec kind len)
      | 3 => .ok (.geoEnc kind len)
      | 4 => .ok (.voltDec kind len)
      | 5 => .ok (.voltEnc kind len)
      | 6 => .ok (.csumSum kind len)
      | 7 => .ok (.csumVerify kind len)
      | _ => .error (.reservedOp op) := by
  simp only [decodeSel, selOf_op, selOf_kind, selOf_len, kind_of_bit] <;> rfl

/-- Decoding selector bytes followed by anything: row selection on the selector and the line. -/
theorem decode_selBytes (op : BitVec 4) (kind : InKind) (len : BitVec 16) (rest : Bytes) :
    decode (selBytes (selOf op kind len) ++ rest) =
      decodeSel (selOf op kind len) (presentedLine (classifyReads kind len.toNat) rest) := by
  have hlt := (selOf op kind len).isLt
  simp only [decode, le_selBytes, if_pos hlt, BitVec.ofNat_toNat, BitVec.setWidth_eq, selOf_kind, selOf_len, kind_of_bit]
  rfl

/-- The line the decoder takes from the buffer is the line classification reads (R50, R71). -/
theorem presentedLine_readBytes (m : Memory) {n cap : Nat} (h : n ≤ cap) :
    presentedLine n (m.readBytes 0 cap) = m.readBytes 0 n := by
  simp only [presentedLine, Memory.readBytes]
  apply List.map_congr_left
  intro k hk
  have hk : k < n := List.mem_range.1 hk
  have : k < cap := by omega
  simp [List.getD_eq_getElem?_getD, List.getElem?_range this]

/-- Classification reads at most a buffer. -/
theorem classifyReads_le (kind : InKind) (len : Nat) : classifyReads kind len ≤ Config.inBufBytes := by
  cases kind
  · exact Nat.zero_le _
  · by_cases h : Config.inBufBytes < len
    · simp [classifyReads, h]
    · simp [classifyReads, h]; omega

/-- The decoder on a request: row selection on its selector and on the line classification reads (R50). -/
theorem decode_fetchBytes (r : Request) :
    decode (fetchBytes r) =
      decodeSel (selOf r.op r.inKind r.inLen) (r.inData.readBytes 0 (classifyReads r.inKind r.inLen.toNat)) := by
  rw [fetchBytes, sel_eq_selOf, decode_selBytes, presentedLine_readBytes _ (classifyReads_le _ _)]

end Sys2Proof
end

