-- ==== Sys2Proof/Laws/Operands.lean ====
section
/-! SUPPORT. The operand forms in plain arithmetic: runs of bytes, little-endian and big-endian fields, nibbles and the
24-bit coordinate, as sums and quotients instead of shifts. -/

namespace Sys2Proof.Machine

/-- A byte of a run read from a space. -/
theorem byteAt_readBytes {m : Memory} {off n i : Nat} (h : i < n) : byteAt (m.readBytes off n) i = m.read (off + i) :=
  Memory.getD_readBytes h 0

/-- A part of a run read from a space is a shorter run. -/
theorem slice_readBytes {m : Memory} {off n k len : Nat} (h : k + len ≤ n) :
    slice (m.readBytes off n) k len = m.readBytes (off + k) len := by
  apply List.ext_getElem
  · simp [slice]; omega
  · intro i h1 h2
    simp [slice, Memory.readBytes, Nat.add_assoc]

/-- A byte of a part of a sequence. -/
theorem byteAt_slice {b : Bytes} {off n i : Nat} (h : i < n) : byteAt (slice b off n) i = byteAt b (off + i) := by
  simp [byteAt, slice, List.getD_eq_getElem?_getD, h]

/-- A part of a sequence that holds it all, byte by byte. -/
theorem slice_eq_map {b : Bytes} {off n : Nat} (h : off + n ≤ b.length) :
    slice b off n = (List.range n).map fun k => byteAt b (off + k) := by
  apply List.ext_getElem
  · simp [slice]; omega
  · intro i h1 h2
    have hi : off + i < b.length := by simp [slice] at h1; omega
    simp [slice, byteAt, hi]

/-- A little-endian field of four bytes (R59). -/
theorem le32_eq {b : Bytes} {off : Nat} (h : off + 4 ≤ b.length) :
    le32 b off = BitVec.ofNat 32 ((byteAt b off).toNat + (byteAt b (off + 1)).toNat * 2 ^ 8
      + (byteAt b (off + 2)).toNat * 2 ^ 16 + (byteAt b (off + 3)).toNat * 2 ^ 24) := by
  rw [le32, slice_eq_map h]
  simp only [List.range_succ, List.range_zero, List.nil_append, List.cons_append, List.map_cons, List.map_nil, le,
    Nat.add_zero]
  refine congrArg (BitVec.ofNat _) ?_
  omega

/-- A big-endian field of four bytes (R59). -/
theorem be32_eq {b : Bytes} {off : Nat} (h : off + 4 ≤ b.length) :
    be32 b off = BitVec.ofNat 32 ((byteAt b off).toNat * 2 ^ 24 + (byteAt b (off + 1)).toNat * 2 ^ 16
      + (byteAt b (off + 2)).toNat * 2 ^ 8 + (byteAt b (off + 3)).toNat) := by
  rw [be32, slice_eq_map h]
  simp only [List.range_succ, List.range_zero, List.nil_append, List.cons_append, List.map_cons, List.map_nil, be,
    List.foldl_cons, List.foldl_nil, Nat.add_zero]
  refine congrArg (BitVec.ofNat _) ?_
  omega

/-- A little-endian field of two bytes (R59). -/
theorem le16_eq {b : Bytes} {off : Nat} (h : off + 2 ≤ b.length) :
    le16 b off = BitVec.ofNat 16 ((byteAt b off).toNat + (byteAt b (off + 1)).toNat * 2 ^ 8) := by
  rw [le16, slice_eq_map h]
  simp only [List.range_succ, List.range_zero, List.nil_append, List.cons_append, List.map_cons, List.map_nil, le,
    Nat.add_zero]
  refine congrArg (BitVec.ofNat _) ?_
  omega

theorem hiNibble_eq (c : Byte) : hiNibble c = BitVec.ofNat 4 (c.toNat / 16) := by revert c; decide
theorem loNibble_eq (c : Byte) : loNibble c = BitVec.ofNat 4 (c.toNat % 16) := by revert c; decide

/-- Two values side by side: the lower one fits its place. -/
theorem shiftLeft_or_eq {a b n : Nat} (h : b < 2 ^ n) : (a <<< n) ||| b = a * 2 ^ n + b := by
  rw [Nat.shiftLeft_eq, Nat.mul_comm, Nat.two_pow_add_eq_or_of_lt h]

/-- Three bytes, most significant first, as a sum (R85). -/
theorem bytes24_eq (b0 b1 b2 : Byte) :
    (b0.toNat <<< 16) ||| (b1.toNat <<< 8) ||| b2.toNat = b0.toNat * 65536 + b1.toNat * 256 + b2.toNat := by
  have h1 := b1.isLt
  have h2 := b2.isLt
  rw [Nat.or_assoc, shiftLeft_or_eq (n := 8) h2, shiftLeft_or_eq (n := 16) (by omega)]
  omega

/-- The sign test on bit 23 (R85) as a comparison. -/
theorem and_bit23_ne_zero {u : Nat} (h : u < 16777216) : u &&& 0x800000 ≠ 0 ↔ 8388608 ≤ u := by
  rw [show (0x800000 : Nat) = 2 ^ 23 from rfl, Nat.and_two_pow, Nat.testBit_eq_decide_div_mod_eq]
  by_cases hu : 8388608 ≤ u
  · simp [hu]; omega
  · simp [hu]; omega

/-- GEO_DEC as a sum and a comparison (R85). -/
theorem geoDec_eq (b0 b1 b2 : Byte) :
    geoDec b0 b1 b2 =
      if b0.toNat * 65536 + b1.toNat * 256 + b2.toNat < 8388608
      then ((b0.toNat * 65536 + b1.toNat * 256 + b2.toNat : Nat) : Int)
      else ((b0.toNat * 65536 + b1.toNat * 256 + b2.toNat : Nat) : Int) - 16777216 := by
  have h0 := b0.isLt
  have h1 := b1.isLt
  have h2 := b2.isLt
  have hu : b0.toNat * 65536 + b1.toNat * 256 + b2.toNat < 16777216 := by omega
  unfold geoDec
  rw [bytes24_eq]
  simp only [and_bit23_ne_zero hu]
  split <;> split <;> first | rfl | omega

end Sys2Proof.Machine
end

