-- ==== Sys2Proof/Laws/State.lean ====
section
/-! SUPPORT. One lemma per field per update of State, so that no later proof unfolds a record update. -/

namespace Sys2Proof.Machine

@[simp] theorem State.issue_params (s : State) (r : Request) : (s.issue r).params = s.params := rfl
@[simp] theorem State.issue_pending (s : State) (r : Request) : (s.issue r).pending = s.pending ++ [r] := rfl
@[simp] theorem State.issue_req (s : State) (r : Request) : (s.issue r).req = s.req := rfl
@[simp] theorem State.issue_resp (s : State) (r : Request) : (s.issue r).resp = s.resp := rfl
@[simp] theorem State.issue_delivered (s : State) (r : Request) : (s.issue r).delivered = s.delivered := rfl

@[simp] theorem State.accept_params (s : State) (r : Request) (rest : List Request) : (s.accept r rest).params = s.params := rfl
@[simp] theorem State.accept_pending (s : State) (r : Request) (rest : List Request) : (s.accept r rest).pending = rest := rfl
@[simp] theorem State.accept_req (s : State) (r : Request) (rest : List Request) : (s.accept r rest).req = r := rfl
@[simp] theorem State.accept_resp (s : State) (r : Request) (rest : List Request) : (s.accept r rest).resp = s.resp := rfl
@[simp] theorem State.accept_delivered (s : State) (r : Request) (rest : List Request) : (s.accept r rest).delivered = s.delivered := rfl

@[simp] theorem State.deliver_params (s : State) (r : Response) : (s.deliver r).params = s.params := rfl
@[simp] theorem State.deliver_pending (s : State) (r : Response) : (s.deliver r).pending = s.pending := rfl
@[simp] theorem State.deliver_req (s : State) (r : Response) : (s.deliver r).req = s.req := rfl
@[simp] theorem State.deliver_resp (s : State) (r : Response) : (s.deliver r).resp = r := rfl
@[simp] theorem State.deliver_delivered (s : State) (r : Response) : (s.deliver r).delivered = s.delivered ++ [r] := rfl

@[simp] theorem State.raise_params (s : State) (e : ErrorKind) (v : Option Variant) : (s.raise e v).params = s.params := rfl
@[simp] theorem State.raise_pending (s : State) (e : ErrorKind) (v : Option Variant) : (s.raise e v).pending = s.pending := rfl
@[simp] theorem State.raise_req (s : State) (e : ErrorKind) (v : Option Variant) : (s.raise e v).req = s.req := rfl
@[simp] theorem State.raise_resp (s : State) (e : ErrorKind) (v : Option Variant) : (s.raise e v).resp = failedResponse e v := rfl
@[simp] theorem State.raise_delivered (s : State) (e : ErrorKind) (v : Option Variant) : (s.raise e v).delivered = s.delivered ++ [failedResponse e v] := rfl

@[simp] theorem State.idle_params (s : State) : (s.idle).params = s.params := rfl
@[simp] theorem State.idle_pending (s : State) : (s.idle).pending = s.pending := rfl
@[simp] theorem State.idle_req (s : State) : (s.idle).req = s.req := rfl
@[simp] theorem State.idle_resp (s : State) : (s.idle).resp = Response.idle := rfl
@[simp] theorem State.idle_delivered (s : State) : (s.idle).delivered = s.delivered := rfl

@[simp] theorem State.takeReset_params (s : State) : (s.takeReset).params = s.params := rfl
@[simp] theorem State.takeReset_pending (s : State) : (s.takeReset).pending = [] := rfl
@[simp] theorem State.takeReset_req (s : State) : (s.takeReset).req = Request.zero := rfl
@[simp] theorem State.takeReset_resp (s : State) : (s.takeReset).resp = Response.idle := rfl
@[simp] theorem State.takeReset_delivered (s : State) : (s.takeReset).delivered = s.delivered := rfl

@[simp] theorem State.withFetchWord_params (s : State) (nbits w : Nat) : (s.withFetchWord nbits w).params = s.params := rfl
@[simp] theorem State.withFetchWord_pending (s : State) (nbits w : Nat) : (s.withFetchWord nbits w).pending = requestOfWord nbits w :: s.pending := rfl
@[simp] theorem State.withFetchWord_req (s : State) (nbits w : Nat) : (s.withFetchWord nbits w).req = s.req := rfl
@[simp] theorem State.withFetchWord_resp (s : State) (nbits w : Nat) : (s.withFetchWord nbits w).resp = s.resp := rfl
@[simp] theorem State.withFetchWord_delivered (s : State) (nbits w : Nat) : (s.withFetchWord nbits w).delivered = s.delivered := rfl

@[simp] theorem State.loaded_params (s : State) (rs : List Request) : (s.loaded rs).params = s.params := rfl
@[simp] theorem State.loaded_pending (s : State) (rs : List Request) : (s.loaded rs).pending = rs := rfl
@[simp] theorem State.loaded_req (s : State) (rs : List Request) : (s.loaded rs).req = s.req := rfl
@[simp] theorem State.loaded_resp (s : State) (rs : List Request) : (s.loaded rs).resp = s.resp := rfl
@[simp] theorem State.loaded_delivered (s : State) (rs : List Request) : (s.loaded rs).delivered = s.delivered := rfl

@[simp] theorem State.reset_params : State.reset.params = Params.default := rfl
@[simp] theorem State.reset_pending : State.reset.pending = [] := rfl
@[simp] theorem State.reset_req : State.reset.req = Request.zero := rfl
@[simp] theorem State.reset_resp : State.reset.resp = Response.idle := rfl
@[simp] theorem State.reset_delivered : State.reset.delivered = [] := rfl

/-- The byte spaces after reset are in canonical form. -/
theorem State.reset_inData_wf : State.reset.req.inData.wf Config.inBufBytes = true := rfl
theorem State.reset_keyData_wf : State.reset.req.keyData.wf Config.keyBufBytes = true := rfl

end Sys2Proof.Machine
end

