-- ==== Sys2Proof/Laws/Ops.lean ====
section
/-! SUPPORT. For each shared operation one lemma that says once all it can do. Proofs about the meanings cite these
instead of unfolding the operations. -/

namespace Sys2Proof.Machine

/-! ### Reading -/

/-- MemRead, both ways (R32). -/
theorem memRead_eq (r : Request) (sp : Space) (off n : Nat) :
    memRead r sp off n = if off + n ≤ r.spaceSize sp then some ((r.space sp).readBytes off n) else none := rfl

theorem memRead_of_le {r : Request} {sp : Space} {off n : Nat} (h : off + n ≤ r.spaceSize sp) :
    memRead r sp off n = some ((r.space sp).readBytes off n) := if_pos h

/-- The bytes a read answers: as many as asked for, each the byte at its offset. -/
theorem memRead_some {r : Request} {sp : Space} {off n : Nat} {b : Bytes} (h : memRead r sp off n = some b) :
    off + n ≤ r.spaceSize sp ∧ b = (r.space sp).readBytes off n := by
  unfold memRead at h
  split at h
  · exact ⟨‹_›, (Option.some.inj h).symm⟩
  · cases h

theorem memRead_none {r : Request} {sp : Space} {off n : Nat} (h : memRead r sp off n = none) :
    r.spaceSize sp < off + n := by
  unfold memRead at h
  split at h
  · cases h
  · omega

@[simp] theorem Request.space_input (r : Request) : r.space .input = r.inData := rfl
@[simp] theorem Request.space_key (r : Request) : r.space .key = r.keyData := rfl
@[simp] theorem Request.spaceSize_input (r : Request) : r.spaceSize .input = r.inSize := rfl
@[simp] theorem Request.spaceSize_key (r : Request) : r.spaceSize .key = r.keySize := rfl

/-- The key of a request (R73): absent, or the presented bytes with the true length; the read cannot fail. -/
theorem Request.key_eq (r : Request) :
    r.key = if r.keyLen = 0 then none
      else some { len := r.keyLen.toNat, bytes := r.keyData.readBytes 0 (min r.keyLen.toNat 32) } := by
  unfold Request.key
  split
  · rfl
  · rw [memRead_of_le (by simp [Request.keySize])]
    rfl

/-- The length of the input the block reads at most. -/
theorem Request.inSize_le (r : Request) : r.inSize ≤ r.inLen.toNat ∧ r.inSize ≤ 64 := by
  simp [Request.inSize, Config.inBufBytes]

/-! ### Ending a transaction -/

@[simp] theorem complete_eq (s : State) (r : Response) : complete s r = .next (s.deliver r) := rfl

/-- Taking an error is delivering the failed response (R173, R174). -/
theorem State.raise_eq (s : State) (e : ErrorKind) (v : Option Variant) : s.raise e v = s.deliver (failedResponse e v) := rfl

/-- All a transaction over the input can do: deliver its response, or fault where IN does not hold the bytes. -/
theorem completeFromInput_eq (s : State) (n : Nat) (respond : Bytes → Response) :
    completeFromInput s n respond =
      if n ≤ s.req.inSize then .next (s.deliver (respond (s.req.inData.readBytes 0 n))) else .fault (.outsideSpace .input) := by
  unfold completeFromInput memRead
  by_cases h : n ≤ s.req.inSize <;> simp [h]

theorem completeFromInput_of_le {s : State} {n : Nat} {respond : Bytes → Response} (h : n ≤ s.req.inSize) :
    completeFromInput s n respond = .next (s.deliver (respond (s.req.inData.readBytes 0 n))) := by
  rw [completeFromInput_eq, if_pos h]

theorem completeFromInput_next {s t : State} {n : Nat} {respond : Bytes → Response}
    (h : completeFromInput s n respond = .next t) :
    n ≤ s.req.inSize ∧ t = s.deliver (respond (s.req.inData.readBytes 0 n)) := by
  rw [completeFromInput_eq] at h
  split at h
  · exact ⟨‹_›, (Host.Outcome.next.inj h).symm⟩
  · cases h

@[simp] theorem responseOf_ok {α : Type} (v : Option Variant) (f : α → Response) (a : α) :
    responseOf v f (.ok a) = f a := rfl
@[simp] theorem responseOf_error {α : Type} (v : Option Variant) (f : α → Response) (e : ErrorKind) :
    responseOf v f (.error e) = failedResponse e v := rfl

/-! ### Classification -/

/-- All that classifying the transmission in hand can do (R72, R73). -/
theorem withClass_eq (kind : InKind) (len : BitVec 16) (s : State) (go : PacketClass → StepOutcome) :
    withClass kind len s go =
      if classifyReads kind len.toNat ≤ s.req.inSize then
        match classifyBytes kind len.toNat (s.req.inData.readBytes 0 (classifyReads kind len.toNat)) with
        | .error e => .next (s.deliver (failedResponse e none))
        | .ok c => go c
      else .fault (.outsideSpace .input) := by
  unfold withClass
  by_cases h : classifyReads kind len.toNat ≤ s.req.inSize
  · rw [memRead_of_le (by simpa using h)]
    simp only [h, if_true, State.raise_eq] <;> rfl
  · have : memRead s.req .input 0 (classifyReads kind len.toNat) = none := by simp [memRead_eq, h]
    simp [this, h]

/-- If classification and what follows answer a next state, either an error was taken or a class was found. -/
theorem withClass_next {kind : InKind} {len : BitVec 16} {s t : State} {go : PacketClass → StepOutcome}
    (h : withClass kind len s go = .next t) :
    (∃ e, t = s.deliver (failedResponse e none)) ∨ (∃ c, go c = .next t) := by
  rw [withClass_eq] at h
  split at h
  · split at h
    · exact .inl ⟨_, (Host.Outcome.next.inj h).symm⟩
    · exact .inr ⟨_, h⟩
  · cases h

/-- Classification of the request in hand reads what the space holds. -/
theorem classifyReads_le_inSize (r : Request) : classifyReads r.inKind r.inLen.toNat ≤ r.inSize := by
  cases hk : r.inKind with
  | binary => simp [classifyReads]
  | text =>
    by_cases h : Config.inBufBytes < r.inLen.toNat
    · simp [classifyReads, h]
    · simp [classifyReads, h, Request.inSize]; omega

/-! ### Decryption -/

/-- All that decryption and the check on the decrypted block can do (R123, R150). -/
theorem decryptChecked_eq (key : Option SuppliedKey) (ct : Bytes) :
    decryptChecked key ct =
      match aesEcbDec key ct with
      | .error e => .error e
      | .ok p => if csumVerify p = true then .ok p else .error .checksumMismatch := rfl

/-- A block that passes was decrypted and verifies. -/
theorem decryptChecked_ok {key : Option SuppliedKey} {ct p : Bytes} (h : decryptChecked key ct = .ok p) :
    aesEcbDec key ct = .ok p ∧ csumVerify p = true := by
  rw [decryptChecked_eq] at h
  split at h
  · cases h
  · split at h
    · cases h; exact ⟨‹_›, ‹_›⟩
    · cases h

/-- The only errors of the two encrypted decoders. -/
theorem decryptChecked_error {key : Option SuppliedKey} {ct : Bytes} {e : ErrorKind} (h : decryptChecked key ct = .error e) :
    (e = .decryptFailed ∧ aesEcbDec key ct = .error .decryptFailed) ∨
      (e = .checksumMismatch ∧ ∃ p, aesEcbDec key ct = .ok p ∧ csumVerify p = false) := by
  have herr : ∀ e', aesEcbDec key ct = .error e' → e' = .decryptFailed := by
    intro e' he
    unfold aesEcbDec at he
    split at he
    · exact (Except.error.inj he).symm
    · split at he
      · exact (Except.error.inj he).symm
      · cases he
  rw [decryptChecked_eq] at h
  split at h
  next e' he =>
    cases h
    obtain rfl := herr _ he
    exact .inl ⟨rfl, he⟩
  next p hp =>
    split at h
    · cases h
    · cases h
      exact .inr ⟨rfl, p, hp, by simpa using ‹¬ csumVerify p = true›⟩

end Sys2Proof.Machine
end

