-- ==== Sys2Proof/Laws/PerInstr.lean ====
section
/-! SUPPORT. The per-instruction family RowMatch: the selector word the encoder writes for an instruction matches the
row of spec/opcode_table.json the instruction belongs to (R50, spec/30_encoding.md section 4). -/

namespace Sys2Proof.Laws

/-- The selector word of the instruction, under the row's mask, is the row's match. -/
def RowMatch.Statement (i : Instr) : Prop := encodeSel i &&& (tableRow i).2 = (tableRow i).1

/-- The upper five bits of a selector word are `op` and `in_kind`. -/
theorem selOf_and_kind (op : BitVec 4) (kind : InKind) (len : BitVec 16) :
    selOf op kind len &&& 0x1F0000 = selOf op kind 0 := by
  apply BitVec.eq_of_getLsbD_eq
  intro k hk
  rw [show (0x1F0000 : Sel) = (0x1F#5 ++ 0#16 : BitVec 21) from rfl]
  simp only [selOf, BitVec.getLsbD_and, BitVec.getLsbD_append, BitVec.getLsbD_zero]
  by_cases h : k < 16
  · simp [h]
  · have : k - 16 < 5 := by omega
    have h31 : ∀ j, j < 5 → BitVec.getLsbD (0x1F#5) j = true := by decide
    simp [h, h31 _ this]

/-- The upper four bits of a selector word are `op`. -/
theorem selOf_and_op (op : BitVec 4) (kind : InKind) (len : BitVec 16) :
    selOf op kind len &&& 0x1E0000 = selOf op .binary 0 := by
  rw [show (0x1E0000 : Sel) = 0x1F0000 &&& 0x1E0000 from rfl, ← BitVec.and_assoc, selOf_and_kind]
  revert op
  cases kind <;> decide

theorem RowMatch.decPlainShort : RowMatch.Statement .decPlainShort := rfl
theorem RowMatch.decPlainExt : RowMatch.Statement .decPlainExt := rfl
theorem RowMatch.decEncBin : RowMatch.Statement .decEncBin := rfl
theorem RowMatch.decEncText (id1 id2 : Word32) (blob : Bytes) : RowMatch.Statement (.decEncText id1 id2 blob) :=
  selOf_and_kind 0 .text _
theorem RowMatch.decode (kind : InKind) (len : BitVec 16) : RowMatch.Statement (.decode kind len) := selOf_and_op 0 kind len
theorem RowMatch.classify (kind : InKind) (len : BitVec 16) : RowMatch.Statement (.classify kind len) :=
  selOf_and_op 1 kind len
theorem RowMatch.geoDec (kind : InKind) (len : BitVec 16) : RowMatch.Statement (.geoDec kind len) := selOf_and_op 2 kind len
theorem RowMatch.geoEnc (kind : InKind) (len : BitVec 16) : RowMatch.Statement (.geoEnc kind len) := selOf_and_op 3 kind len
theorem RowMatch.voltDec (kind : InKind) (len : BitVec 16) : RowMatch.Statement (.voltDec kind len) :=
  selOf_and_op 4 kind len
theorem RowMatch.voltEnc (kind : InKind) (len : BitVec 16) : RowMatch.Statement (.voltEnc kind len) :=
  selOf_and_op 5 kind len
theorem RowMatch.csumSum (kind : InKind) (len : BitVec 16) : RowMatch.Statement (.csumSum kind len) :=
  selOf_and_op 6 kind len
theorem RowMatch.csumVerify (kind : InKind) (len : BitVec 16) : RowMatch.Statement (.csumVerify kind len) :=
  selOf_and_op 7 kind len

end Sys2Proof.Laws
end

