-- ==== Sys2Proof/Tests/Slice0.lean ====
section
/-! SUPPORT. Small tests. Every expected value is from spec/95_test_vectors.md, from an example of the rule named, or
written out from the encoding of R50; none is the model's own answer. -/

namespace Sys2Proof.Tests
open Sys2Proof Sys2Proof.Machine

-- One theorem after another: each of the many kernel evaluations would else be given a thread of its own.
set_option Elab.async false

/-! ### Ill-formed terms, one for each check -/

theorem test_wellFormed_refuses_short_blob : (Instr.decEncText 1 2 [0, 0, 0]).wellFormed = false := by decide
theorem test_wellFormed_refuses_binary_length : (Instr.decode .binary 18).wellFormed = false := by decide
theorem test_wellFormed_accepts_fall_through : (Instr.decode .binary 16).wellFormed = true := by decide

/-! ### Decoding, words written out from R50: op in bits 20..17, in_kind in bit 16, in_len in bits 15..0 -/

theorem test_decode_decPlainShort : decode [0x0F, 0x00, 0x00] = .ok (.decPlainShort) := by decide +kernel
theorem test_decode_decPlainExt : decode [0x12, 0x00, 0x00] = .ok (.decPlainExt) := by decide +kernel
theorem test_decode_decEncBin : decode [0x19, 0x00, 0x00] = .ok (.decEncBin) := by decide +kernel
theorem test_decode_decode : decode [0x10, 0x00, 0x00] = .ok (.decode .binary 16) := by decide +kernel
theorem test_decode_decode_text : decode [0x2A, 0x00, 0x01] = .ok (.decode .text 42) := by decide +kernel
theorem test_decode_classify : decode [0x2A, 0x00, 0x03] = .ok (.classify .text 42) := by decide +kernel
theorem test_decode_geoDec : decode [0x03, 0x00, 0x05] = .ok (.geoDec .text 3) := by decide +kernel
theorem test_decode_geoEnc : decode [0x34, 0x12, 0x06] = .ok (.geoEnc .binary 0x1234) := by decide +kernel
theorem test_decode_voltDec : decode [0x00, 0x00, 0x08] = .ok (.voltDec .binary 0) := by decide +kernel
theorem test_decode_voltEnc : decode [0x00, 0x00, 0x0A] = .ok (.voltEnc .binary 0) := by decide +kernel
theorem test_decode_csumSum : decode [0x0F, 0x00, 0x0C] = .ok (.csumSum .binary 15) := by decide +kernel
theorem test_decode_csumVerify : decode [0x10, 0x00, 0x0E] = .ok (.csumVerify .binary 16) := by decide +kernel

/-- The line of section 4.4, ET1. -/
def lineET1 : Bytes :=
  [0x31, 0x32, 0x33, 0x34, 0x35, 0x36, 0x2C, 0x34, 0x32, 0x39, 0x34, 0x39, 0x36, 0x37, 0x32, 0x39, 0x35, 0x2C, 0x5A, 0x2F, 0x4F, 0x38, 0x45, 0x65, 0x7A, 0x6A, 0x30, 0x4F, 0x54, 0x39, 0x4B, 0x2F, 0x54, 0x64, 0x52, 0x4A, 0x62, 0x37, 0x35, 0x41, 0x3D, 0x3D]

/-- The blob of section 3.2. -/
def blobET1 : Bytes := [0x67, 0xF3, 0xBC, 0x11, 0xEC, 0xE3, 0xD0, 0xE4, 0xFD, 0x2B, 0xF4, 0xDD, 0x44, 0x96, 0xFB, 0xE4]

theorem test_decode_decEncText :
    decode ([0x2A, 0x00, 0x01] ++ lineET1) = .ok (.decEncText 123456 4294967295 blobET1) := by decide +kernel

theorem test_decode_reserved_op : decode [0x00, 0x00, 0x10] = .error (.reservedOp 8) := by decide +kernel
theorem test_decode_wide_selector : decode [0x0F, 0x00, 0x20] = .error .wideSelector := by decide +kernel
theorem test_table_word_csumVerify : decodeTableWord 24 0x0E0010 = some (.csumVerify .binary 16) := by decide +kernel
/-- The table's word of DEC_ENC_TEXT alone is an empty line: R71 step 2 refuses it and the row DECODE applies. -/
theorem test_table_word_empty_line : decodeTableWord 24 0x010000 = some (.decode .text 0) := by decide +kernel

/-! ### One step on one request -/

/-- A request whose buffer holds the given bytes. -/
def ask (op : BitVec 4) (kind : InKind) (b : Bytes) (key : Bytes := []) (arg : Word32 := 0) : Request :=
  { op := op, inKind := kind, inLen := BitVec.ofNat 16 b.length, inData := Memory.ofBytes b,
    keyLen := BitVec.ofNat 6 key.length, keyData := Memory.ofBytes key, arg := arg }

/-- The response of one step after reset. -/
def answer (r : Request) : Option Response :=
  match step (State.reset.issue r) with
  | .next t => some t.resp
  | .fault _ => none
  | .refused _ => none

/-- `K128`, `K192`, `K256`: byte `i` is `i`. -/
def keyBytes (n : Nat) : Bytes := (List.range n).map (BitVec.ofNat 8)

/-- LOKO's short scenario (section 1.1). -/
theorem test_decPlainShort_scenario :
    answer (ask 0 .binary [0x00, 0x00, 0x00, 0x00, 0x00, 0x00, 0x00, 0x00, 0x1F, 0x05, 0xF1, 0xC2, 0x06, 0xF6, 0x72]) =
      some (decodedResponse .plaintextShort
        { Record.zero with
          hasVersion := true, packetVersion := 1, batteryMv := 4200, latBits := 389570, lonBits := 456306 }) := by
  decide +kernel

/-- Section 4.1: little-endian identifiers, a negative latitude. -/
theorem test_decPlainShort_bytes :
    decPlainShort [0x01, 0x02, 0x03, 0x04, 0xA0, 0xB0, 0xC0, 0xD0, 0x23, 0xFA, 0xD5, 0x00, 0x17, 0x12, 0x85] =
      { Record.zero with
          id1 := 67305985, id2 := 3502289056, hasVersion := true, packetVersion := 2, batteryMv := 3000,
          latBits := 0xFFFAD500, lonBits := 1512069 } := by decide +kernel

/-- LOKO's extended scenario (section 1.2). -/
theorem test_decPlainExt_scenario :
    answer (ask 0 .binary [0x00, 0x00, 0x00, 0x00, 0x00, 0x00, 0x00, 0x00, 0x1E, 0x08, 0x58, 0x24, 0x03, 0xDB, 0x94, 0x02, 0x7A, 0x00]) =
      some (decodedResponse .plaintextExtended
        { Record.zero with
          hasVersion := true, packetVersion := 1, batteryMv := 4100, latBits := 546852, lonBits := 252820,
          hasSpeed := true, speedMps := 2, hasAltitude := true, altitudeM := 122 }) := by
  decide +kernel

/-- R114: altitude bytes 85 FF are -123. -/
theorem test_decPlainExt_negative_altitude :
    (decPlainExt [0x01, 0x02, 0x03, 0x04, 0xA0, 0xB0, 0xC0, 0xD0, 0x23, 0xFA, 0xD5, 0x00, 0x17, 0x12, 0x85, 0xFF, 0x85, 0xFF]).altitudeM = 0xFFFFFF85 := by decide +kernel

/-- The frame EB1 of section 4.2. -/
def frameEB1 : Bytes :=
  [0x01, 0x02, 0x03, 0x04, 0xA0, 0xB0, 0xC0, 0xD0, 0x10, 0x3A, 0x11, 0x6B, 0x26, 0x4E, 0xB1, 0x51, 0x8C, 0xA4, 0xFB, 0xD4, 0xAD, 0x51, 0x3D, 0x0E, 0x34]

theorem test_decEncBin_EB1 :
    answer (ask 0 .binary frameEB1 (keyBytes 16)) =
      some (decodedResponse .encryptedBinary
        { id1 := 16909060, id2 := 2695938256, hasVersion := true, packetVersion := 1, batteryMv := 4200,
          coordFmt := .fixedE4, latBits := 389570, lonBits := 456306, hasSpeed := true, speedMps := 2,
          hasAltitude := true, altitudeM := 122, hasIntegrity := true, integrityOk := true }) := by
  decide +kernel

/-- The frame EB2 of section 4.2 (AES-256): unsigned altitude, non-zero reserved bytes. -/
theorem test_decEncBin_EB2 :
    ((answer (ask 0 .binary [0xFF, 0xFF, 0xFF, 0xFF, 0x00, 0x00, 0x00, 0x01, 0x20, 0xE9, 0xBD, 0x73, 0x95, 0xB3, 0x34, 0x6D, 0xE0, 0x2F, 0xA4, 0xD2, 0xD9, 0x30, 0x0C, 0x54, 0xF6]
      (keyBytes 32))).map fun r => (r.record.altitudeM, r.record.latBits, r.record.packetVersion)) =
      some (65413, 0xFFFAD500, 2) := by
  decide +kernel

/-- Section 4.4: the line ET1. -/
theorem test_decEncText_ET1 :
    answer (ask 0 .text lineET1 (keyBytes 16)) =
      some (decodedResponse .encryptedText
        { Record.zero with
          id1 := 123456, id2 := 4294967295, batteryMv := 4100, coordFmt := .f32, latBits := 0x425ABDA5,
          lonBits := 0x41CA4189, hasIntegrity := true, integrityOk := true }) := by
  decide +kernel

/-- Section 4.4: a 17-byte key. -/
theorem test_decEncText_bad_key :
    answer (ask 0 .text lineET1 (keyBytes 17)) = some (failedResponse .decryptFailed (some .encryptedText)) := by decide +kernel

/-- Section 5: a bare cipher block is no transmission. -/
theorem test_decode_unrecognized :
    answer (ask 0 .binary (keyBytes 16) (keyBytes 16)) = some (failedResponse .unrecognizedLength none) := by decide +kernel

/-- Section 5: the line `1,2,AAAA`; the blob is looked at before the key. -/
theorem test_decode_base64Invalid :
    answer (ask 0 .text [0x31, 0x2C, 0x32, 0x2C, 0x41, 0x41, 0x41, 0x41]) = some (failedResponse .base64Invalid none) := by decide +kernel

/-- Section 3.1: 25 bytes are EncryptedBinary, with no key. -/
theorem test_classify_binary : answer (ask 1 .binary (keyBytes 25)) = some (classifiedResponse .encryptedBinary) := by
  decide +kernel

/-- Section 3.2: the shortest legal line. -/
theorem test_classify_text :
    answer (ask 1 .text [0x31, 0x2C, 0x32, 0x2C, 0x5A, 0x2F, 0x4F, 0x38, 0x45, 0x65, 0x7A, 0x6A, 0x30, 0x4F, 0x54, 0x39, 0x4B, 0x2F, 0x54, 0x64, 0x52, 0x4A, 0x62, 0x37, 0x35, 0x41, 0x3D, 0x3D]) = some (classifiedResponse .encryptedText) := by
  decide +kernel

/-- Section 2.1: the smallest coordinate. -/
theorem test_geoDec_smallest : answer (ask 2 .binary [0x80, 0x00, 0x00]) = some (leafResponse 0xFF800000) := by decide +kernel

/-- Section 2.1: a malformed request. -/
theorem test_geoDec_illegal : answer (ask 2 .binary [0x80, 0x00, 0x00, 0x00]) = some (failedResponse .illegalRequest none) := by
  decide +kernel

/-- Section 2.2: a tie goes away from zero (e6 = -33868850). -/
theorem test_geoEnc_tie :
    answer (ask 3 .binary [] [] (BitVec.ofInt 32 (-33868850))) = some (leafResponse 0xFAD4FF) := by decide +kernel

/-- Section 2.2: the most negative operand. -/
theorem test_geoEnc_out_of_range :
    answer (ask 3 .text [] [] 0x80000000) = some (failedResponse .coordinateOutOfRange none) := by decide +kernel

/-- Section 2.3: bits 31 to 4 of the operand are ignored. -/
theorem test_voltDec : answer (ask 4 .binary [] [] 0xFFFFFFF3) = some (leafResponse 3000) := by decide +kernel

/-- Section 2.3: 3650 mV is a tie; bits 31 to 16 of the operand are ignored. -/
theorem test_voltEnc_tie : answer (ask 5 .binary [] [] 0x00010E42) = some (leafResponse 10) := by decide +kernel

/-- Section 2.3: 4201 mV. -/
theorem test_voltEnc_out_of_range : answer (ask 5 .binary [] [] 4201) = some (failedResponse .voltageOutOfRange none) := by
  decide +kernel

/-- Section 2.4: 64 bytes of FF. -/
theorem test_csumSum_largest : answer (ask 6 .binary (List.replicate 64 0xFF)) = some (leafResponse 0xC0) := by decide +kernel

/-- Section 2.4: 65 bytes cannot be presented. -/
theorem test_csumSum_illegal :
    answer { ask 6 .binary [] with inLen := 65 } = some (failedResponse .illegalRequest none) := by decide +kernel

/-- Section 2.4: a matching block and one with a reserved byte altered. -/
theorem test_csumVerify_match :
    answer (ask 7 .binary [0x1F, 0x05, 0xF1, 0xC2, 0x06, 0xF6, 0x72, 0x02, 0x7A, 0x00, 0x00, 0x00, 0x00, 0x00, 0x00, 0xC1]) = some (leafResponse 1) := by decide +kernel
theorem test_csumVerify_mismatch :
    answer (ask 7 .binary [0x1F, 0x05, 0xF1, 0xC2, 0x06, 0xF6, 0x72, 0x02, 0x7A, 0x00, 0x00, 0x00, 0x00, 0x00, 0x01, 0xC1]) = some (leafResponse 0) := by decide +kernel

/-- Section 5: a reserved selector. -/
theorem test_reserved_op : answer { ask 15 .text [] with inLen := 65535 } = some (failedResponse .illegalRequest none) := by
  decide +kernel

/-- A word put where the next step fetches: CSUM_VERIFY of sixteen bytes 00, whose sum is 00 (R107). -/
theorem test_withFetchWord_runs_next :
    (match step (State.reset.withFetchWord 24 0x0E0010) with
      | .next t => some t.resp
      | .fault _ => none
      | .refused _ => none) = some (leafResponse 1) := by decide +kernel

/-! ### The AES primitive: the published vectors of spec/46 section 5, and R137, R141, R145 -/

/-- `00 11 22 .. FF`. -/
def plainFips : Bytes := [0x00, 0x11, 0x22, 0x33, 0x44, 0x55, 0x66, 0x77, 0x88, 0x99, 0xAA, 0xBB, 0xCC, 0xDD, 0xEE, 0xFF]

theorem test_aes128 :
    (aesEcbDec (some ⟨16, keyBytes 16⟩) [0x69, 0xC4, 0xE0, 0xD8, 0x6A, 0x7B, 0x04, 0x30, 0xD8, 0xCD, 0xB7, 0x80, 0x70, 0xB4, 0xC5, 0x5A]).toOption =
      some plainFips := by decide +kernel
theorem test_aes192 :
    (aesEcbDec (some ⟨24, keyBytes 24⟩) [0xDD, 0xA9, 0x7C, 0xA4, 0x86, 0x4C, 0xDF, 0xE0, 0x6E, 0xAF, 0x70, 0xA0, 0xEC, 0x0D, 0x71, 0x91]).toOption =
      some plainFips := by decide +kernel
theorem test_aes256 :
    (aesEcbDec (some ⟨32, keyBytes 32⟩) [0x8E, 0xA2, 0xB7, 0xCA, 0x51, 0x67, 0x45, 0xBF, 0xEA, 0xFC, 0x49, 0x90, 0x4B, 0x49, 0x60, 0x89]).toOption =
      some plainFips := by decide +kernel
theorem test_forward_cipher :
    fwdCipher 10 plainFips (keyExpansion 4 10 (keyBytes 16)) =
      [0x69, 0xC4, 0xE0, 0xD8, 0x6A, 0x7B, 0x04, 0x30, 0xD8, 0xCD, 0xB7, 0x80, 0x70, 0xB4, 0xC5, 0x5A] := by decide +kernel
theorem test_gmul : gmul 0x57 0x13 = 0xFE ∧ gmul 0x57 0x83 = 0xC1 ∧ xtime 0x57 = 0xAE ∧ xtime 0xAE = 0x47 := by decide +kernel
theorem test_invMixColumn : invMixColumn ⟨0x8E, 0x4D, 0xA1, 0xBC⟩ = ⟨0xDB, 0x13, 0x53, 0x45⟩ := by decide +kernel

/-! ### Readings: the examples of R155 -/

theorem test_f32Value_example : f32Value 0x425ABDA5 = .rational (14335397 / 2 ^ 18) := by decide +kernel
theorem test_f32Value_special :
    f32Value 0 = .rational 0 ∧ f32Value 0x80000000 = .negZero ∧ f32Value 0x7F800000 = .posInf ∧ f32Value 0xFF800000 = .negInf
      ∧ f32Value 0x7FC00000 = .nan := by decide +kernel

/-! ### Witnesses: a concrete state and operands that meet the hypotheses of each statement together

Named after the statement; several where it has several clauses. Frames, lines, keys and blocks are those of
spec/95_test_vectors.md or written out here. -/

/-- The block with these requests issued, after reset. -/
def waiting (rs : List Request) : State := State.reset.loaded rs

/-- The block in the middle of the transaction of this request, after reset. -/
def inHand (r : Request) : State := { State.reset with req := r }

/-- A short frame, section 1.1. -/
def framePS : Bytes := [0x00, 0x00, 0x00, 0x00, 0x00, 0x00, 0x00, 0x00, 0x1F, 0x05, 0xF1, 0xC2, 0x06, 0xF6, 0x72]

/-- An extended frame, section 1.2. -/
def framePX : Bytes :=
  [0x00, 0x00, 0x00, 0x00, 0x00, 0x00, 0x00, 0x00, 0x1E, 0x08, 0x58, 0x24, 0x03, 0xDB, 0x94, 0x02, 0x7A, 0x00]

/-- The block of section 2.4 that matches its integrity byte; it is what EB1 carries. -/
def blockEB1 : Bytes := [0x1F, 0x05, 0xF1, 0xC2, 0x06, 0xF6, 0x72, 0x02, 0x7A, 0x00, 0x00, 0x00, 0x00, 0x00, 0x00, 0xC1]

/-- The same block with one byte altered. -/
def blockBad : Bytes := [0x1F, 0x05, 0xF1, 0xC2, 0x06, 0xF6, 0x72, 0x02, 0x7A, 0x00, 0x00, 0x00, 0x00, 0x00, 0x01, 0xC1]

/-- The base64 part of ET1. -/
def fieldET1 : Bytes :=
  [0x5A, 0x2F, 0x4F, 0x38, 0x45, 0x65, 0x7A, 0x6A, 0x30, 0x4F, 0x54, 0x39, 0x4B, 0x2F, 0x54, 0x64, 0x52, 0x4A, 0x62, 0x37, 0x35, 0x41, 0x3D, 0x3D]

/-- The line `1,2,AAAA` of section 5. -/
def lineShortBlob : Bytes := [0x31, 0x2C, 0x32, 0x2C, 0x41, 0x41, 0x41, 0x41]

theorem witness_DecodeOfEncodeIsTheInstruction :
    (Instr.decEncText 123456 4294967295 blobET1).wellFormed = true ∧ (Instr.decode .text 0xFFFF).wellFormed = true
      ∧ (Instr.decode .binary 0).wellFormed = true ∧ (Instr.geoEnc .text 0xFFFF).wellFormed = true := by decide +kernel

theorem witness_DecodedInstructionIsWellFormed :
    decode ([0x2A, 0x00, 0x01] ++ lineET1) = .ok (.decEncText 123456 4294967295 blobET1) := by decide +kernel

theorem witness_DecodedInstructionMatchesItsTableRow : decode [0xFF, 0xFF, 0x0F] = .ok (.csumVerify .text 0xFFFF) := by
  decide +kernel

theorem witness_StepRunsTheDecodedInstruction :
    (waiting [ask 0 .text lineET1]).pending = ask 0 .text lineET1 :: []
      ∧ decode (fetchBytes (ask 0 .text lineET1)) = .ok (.decEncText 123456 4294967295 blobET1)
      ∧ (Instr.decEncText 123456 4294967295 blobET1).wellFormed = true := by decide +kernel

theorem witness_StepPerformsTheTransaction :
    (waiting [ask 0 .binary frameEB1, ask 2 .binary []]).pending = ask 0 .binary frameEB1 :: [ask 2 .binary []] := rfl

theorem witness_IdleStepDrivesThePortsToZero : State.reset.pending = [] := rfl

theorem witness_ResponseIsAFunctionOfTheRequest :
    (waiting [ask 0 .binary frameEB1]).params
        = ((inHand (ask 1 .text lineET1)).deliver (Spec.failed 3)).params
      ∧ (waiting [ask 0 .binary frameEB1]).pending = ask 0 .binary frameEB1 :: []
      ∧ (((inHand (ask 1 .text lineET1)).deliver (Spec.failed 3)).loaded [ask 0 .binary frameEB1]).pending
        = ask 0 .binary frameEB1 :: [] := ⟨rfl, rfl, rfl⟩

/-- Fifteen bytes presented; the sixteenth and the key byte beyond the 16 of the key differ. -/
theorem witness_UnpresentedBytesNeverMatter :
    Spec.SamePresented
      { ask 0 .binary framePS (keyBytes 16) with inData := Memory.ofBytes (framePS ++ [0x77]) }
      { ask 0 .binary framePS (keyBytes 16) with keyData := Memory.ofBytes (keyBytes 17) } := by
  refine ⟨rfl, rfl, rfl, rfl, rfl, fun _ k hk => ?_, fun k hk => ?_⟩
  · have h : ∀ k, k < 15 → Memory.read (Memory.ofBytes (framePS ++ [0x77])) k = (Memory.ofBytes framePS).read k := by
      decide +kernel
    exact h k hk
  · have h : ∀ k, k < 16 → (Memory.ofBytes (keyBytes 16)).read k = (Memory.ofBytes (keyBytes 17)).read k := by
      decide +kernel
    exact h k hk

/-- Beyond 64 bytes nothing of IN is presented to a classification. -/
theorem witness_UnpresentedBytesNeverMatter_beyond_the_buffer :
    Spec.SamePresented { ask 6 .text [0x01] with inLen := 65 } { ask 6 .text [0x02] with inLen := 65 } := by
  refine ⟨rfl, rfl, rfl, rfl, rfl, fun h => absurd h (by decide), fun k hk => absurd hk ?_⟩
  simp [ask]

theorem witness_KeyIsIgnoredOutsideTheEncryptedVariants :
    Spec.SameButKey (ask 7 .binary blockEB1) (ask 7 .binary blockEB1 (keyBytes 16)) ∧ (ask 7 .binary blockEB1).op ≠ 0
      ∧ Spec.SameButKey (ask 0 .binary blockEB1) (ask 0 .binary blockEB1 (keyBytes 16))
      ∧ (ask 0 .binary blockEB1).classified = .error .unrecognizedLength
      ∧ Spec.SameButKey (ask 0 .binary framePS) (ask 0 .binary framePS (keyBytes 33))
      ∧ (ask 0 .binary framePS).classified = .ok .plaintextShort
      ∧ Spec.SameButKey (ask 0 .binary framePX) (ask 0 .binary framePX (keyBytes 33))
      ∧ (ask 0 .binary framePX).classified = .ok .plaintextExtended := by
  unfold Spec.SameButKey
  decide +kernel

/-- op 8 and 15; 2 and 4 bytes for GEO_DEC; 65 bytes for CSUM_SUM; 15 and 17 bytes for CSUM_VERIFY. -/
theorem witness_ReservedAndMalformedRequestsAreIllegal :
    (waiting [ask 8 .binary []]).pending = ask 8 .binary [] :: [] ∧ 8 ≤ (ask 8 .binary []).op.toNat
      ∧ 8 ≤ (ask 15 .binary []).op.toNat
      ∧ ((ask 2 .text [1, 2]).op = 2 ∧ (ask 2 .text [1, 2]).inLen ≠ 3)
      ∧ ((ask 2 .binary [1, 2, 3, 4]).op = 2 ∧ (ask 2 .binary [1, 2, 3, 4]).inLen ≠ 3)
      ∧ ((ask 6 .binary (keyBytes 65)).op = 6 ∧ 64 < (ask 6 .binary (keyBytes 65)).inLen.toNat)
      ∧ ((ask 7 .binary (keyBytes 15)).op = 7 ∧ (ask 7 .binary (keyBytes 15)).inLen ≠ 16)
      ∧ ((ask 7 .binary (keyBytes 17)).op = 7 ∧ (ask 7 .binary (keyBytes 17)).inLen ≠ 16) := by decide +kernel

theorem witness_StepKeepsTheInvariant :
    ((waiting [ask 0 .binary framePS (keyBytes 16)]).deliver (Spec.failed 3)).inv = true
      ∧ Completes ((waiting [ask 0 .binary framePS (keyBytes 16)]).deliver (Spec.failed 3)) :=
  ⟨by decide +kernel, _, rfl⟩

theorem witness_ExecWritesOnlyTheResponse :
    exec (.voltDec .binary 0) (inHand (ask 4 .binary [] [] 3)) =
      .next ((inHand (ask 4 .binary [] [] 3)).deliver (voltDecResponse 3)) := rfl

/-- At the last byte presented and one beyond it, in both spaces. -/
theorem witness_MemReadIsTheRunOfBytes :
    12 + 3 ≤ (ask 0 .binary framePS (keyBytes 16)).spaceSize .input
      ∧ (ask 0 .binary framePS (keyBytes 16)).spaceSize .input < 13 + 3
      ∧ 0 + 16 ≤ (ask 0 .binary framePS (keyBytes 16)).spaceSize .key
      ∧ (ask 0 .binary framePS (keyBytes 16)).spaceSize .key < 0 + 17 := by decide +kernel

/-- A failure before classification, and one of each encrypted decoder. -/
theorem witness_FailedResponsesCarryNoRecord :
    (waiting [ask 0 .binary blockEB1]).pending = ask 0 .binary blockEB1 :: []
      ∧ (answer (ask 0 .binary blockEB1)).map (fun r => (r.status, r.variantValid)) = some (1, false)
      ∧ (answer (ask 0 .binary frameEB1)).map (fun r => (r.status, r.variantValid)) = some (4, true)
      ∧ (answer (ask 0 .text lineET1)).map (fun r => (r.status, r.variantValid)) = some (4, true) := by decide +kernel

/-- Each of the seven errors has a request that meets its condition: its answer is that status. -/
theorem witness_ExactErrorConditions :
    (transaction Params.default (ask 1 .binary blockEB1)).status = 1
      ∧ (transaction Params.default (ask 5 .binary [] [] 2699)).status = 2
      ∧ (transaction Params.default (ask 1 .text lineShortBlob)).status = 3
      ∧ (transaction Params.default (ask 0 .text lineET1 (keyBytes 31))).status = 4
      ∧ (transaction Params.default (ask 0 .text lineET1 (keyBytes 32))).status = 5
      ∧ (transaction Params.default (ask 3 .binary [] [] 0x7FFFFFFF)).status = 6
      ∧ (transaction Params.default (ask 6 .binary (keyBytes 65))).status = 7 := by decide +kernel

/-- A record with an integrity byte and one without. -/
theorem witness_IntegrityFlagContract :
    (waiting [ask 0 .binary frameEB1 (keyBytes 16)]).pending = ask 0 .binary frameEB1 (keyBytes 16) :: []
      ∧ (answer (ask 0 .binary frameEB1 (keyBytes 16))).map (fun r => (r.recValid, r.record.hasIntegrity)) = some (true, true)
      ∧ (answer (ask 0 .binary framePS)).map (fun r => (r.recValid, r.record.hasIntegrity)) = some (true, false) := by
  decide +kernel

theorem witness_PlaintextFramesAlwaysDecode :
    (waiting [ask 0 .binary framePS]).pending = ask 0 .binary framePS :: [] ∧ (ask 0 .binary framePS).op = 0
      ∧ (ask 0 .binary framePS).inKind = .binary ∧ (ask 0 .binary framePS).inLen = 15
      ∧ (ask 0 .binary framePX).op = 0 ∧ (ask 0 .binary framePX).inKind = .binary ∧ (ask 0 .binary framePX).inLen = 18 := by
  decide +kernel

theorem witness_OuterCombinedByteIsIgnored :
    (∀ k, k ≠ 8 → (Memory.write (Memory.ofBytes frameEB1) 8 0xFF).read k = (Memory.ofBytes frameEB1).read k)
      ∧ (ask 0 .binary frameEB1 (keyBytes 16)).op = 0 ∧ (ask 0 .binary frameEB1 (keyBytes 16)).inKind = .binary
      ∧ (ask 0 .binary frameEB1 (keyBytes 16)).inLen = 25
      ∧ (Memory.write (Memory.ofBytes frameEB1) 8 0xFF).read 8 ≠ (Memory.ofBytes frameEB1).read 8 := by
  refine ⟨fun k hk => ?_, by decide +kernel⟩
  have hwf : Memory.wfFrom 0 64 (Memory.ofBytes frameEB1) = true := by decide +kernel
  rw [Memory.read_write hwf, if_neg hk]

/-- Exactly the bytes of the frame are presented. -/
theorem witness_DecPlainShortRecord : 15 ≤ (inHand (ask 0 .binary framePS)).req.inSize := by decide +kernel
theorem witness_DecPlainExtRecord : 18 ≤ (inHand (ask 0 .binary framePX)).req.inSize := by decide +kernel

/-- No key, and keys of 15, 17 and 33 bytes. -/
theorem witness_DecEncBinWhole_bad_key :
    ∀ n ∈ [0, 15, 17, 33], 25 ≤ (inHand (ask 0 .binary frameEB1 (keyBytes n))).req.inSize
      ∧ (inHand (ask 0 .binary frameEB1 (keyBytes n))).req.keyLen ≠ 16
      ∧ (inHand (ask 0 .binary frameEB1 (keyBytes n))).req.keyLen ≠ 24
      ∧ (inHand (ask 0 .binary frameEB1 (keyBytes n))).req.keyLen ≠ 32 := by decide +kernel

theorem witness_DecEncBinWhole_intact :
    25 ≤ (inHand (ask 0 .binary frameEB1 (keyBytes 16))).req.inSize
      ∧ aesParams (inHand (ask 0 .binary frameEB1 (keyBytes 16))).req.keyLen.toNat = some (4, 10)
      ∧ Spec.Intact (byteAt (invCipher 10 ((inHand (ask 0 .binary frameEB1 (keyBytes 16))).req.inData.readBytes 9 16)
          (keyExpansion 4 10 ((inHand (ask 0 .binary frameEB1 (keyBytes 16))).req.keyData.readBytes 0 16)))) := by
  unfold Spec.Intact
  decide +kernel

/-- The wrong key, of a legal length. -/
theorem witness_DecEncBinWhole_not_intact :
    25 ≤ (inHand (ask 0 .binary frameEB1 (keyBytes 32))).req.inSize
      ∧ aesParams (inHand (ask 0 .binary frameEB1 (keyBytes 32))).req.keyLen.toNat = some (8, 14)
      ∧ ¬ Spec.Intact (byteAt (invCipher 14 ((inHand (ask 0 .binary frameEB1 (keyBytes 32))).req.inData.readBytes 9 16)
          (keyExpansion 8 14 ((inHand (ask 0 .binary frameEB1 (keyBytes 32))).req.keyData.readBytes 0 32)))) := by
  unfold Spec.Intact
  decide +kernel

theorem witness_DecEncTextWhole_bad_key :
    ∀ n ∈ [0, 15, 17, 33], (inHand (ask 0 .text lineET1 (keyBytes n))).req.keyLen ≠ 16
      ∧ (inHand (ask 0 .text lineET1 (keyBytes n))).req.keyLen ≠ 24
      ∧ (inHand (ask 0 .text lineET1 (keyBytes n))).req.keyLen ≠ 32 := by decide +kernel

theorem witness_DecEncTextWhole_intact :
    aesParams (inHand (ask 0 .text lineET1 (keyBytes 16))).req.keyLen.toNat = some (4, 10)
      ∧ Spec.Intact (byteAt (invCipher 10 blobET1
          (keyExpansion 4 10 ((inHand (ask 0 .text lineET1 (keyBytes 16))).req.keyData.readBytes 0 16)))) := by
  unfold Spec.Intact
  decide +kernel

theorem witness_DecEncTextWhole_not_intact :
    aesParams (inHand (ask 0 .text lineET1 (keyBytes 24))).req.keyLen.toNat = some (6, 12)
      ∧ ¬ Spec.Intact (byteAt (invCipher 12 blobET1
          (keyExpansion 6 12 ((inHand (ask 0 .text lineET1 (keyBytes 24))).req.keyData.readBytes 0 24)))) := by
  unfold Spec.Intact
  decide +kernel

/-- One class of each kind, with its record. -/
theorem witness_DecodeDeliversTheRecordOfItsClass :
    (ask 0 .binary framePS).classified = .ok .plaintextShort
      ∧ (decodeClass Params.default (ask 0 .binary framePS) .plaintextShort).toOption.isSome
      ∧ (ask 0 .binary framePX).classified = .ok .plaintextExtended
      ∧ (decodeClass Params.default (ask 0 .binary framePX) .plaintextExtended).toOption.isSome
      ∧ (ask 0 .binary frameEB1 (keyBytes 16)).classified = .ok .encryptedBinary
      ∧ (decodeClass Params.default (ask 0 .binary frameEB1 (keyBytes 16)) .encryptedBinary).toOption.isSome
      ∧ (ask 0 .text lineET1 (keyBytes 16)).classified = .ok (.encryptedText 123456 4294967295 blobET1)
      ∧ (decodeClass Params.default (ask 0 .text lineET1 (keyBytes 16))
          (.encryptedText 123456 4294967295 blobET1)).toOption.isSome := by decide +kernel

/-- 16 bytes, a line without commas, and a line with a short blob. -/
theorem witness_FallThroughRowFailsInClassification :
    (waiting [ask 0 .binary blockEB1]).pending = ask 0 .binary blockEB1 :: []
      ∧ decode (fetchBytes (ask 0 .binary blockEB1)) = .ok (.decode .binary 16)
      ∧ decode (fetchBytes (ask 0 .text [0x31])) = .ok (.decode .text 1)
      ∧ decode (fetchBytes (ask 0 .text lineShortBlob)) = .ok (.decode .text 8) := by decide +kernel

/-- The parts of the line of section 3.2, of the longest line and of `1,2,AAAA`. -/
theorem shape_ET1 :
    Spec.Shape lineET1 [0x31, 0x32, 0x33, 0x34, 0x35, 0x36] [0x34, 0x32, 0x39, 0x34, 0x39, 0x36, 0x37, 0x32, 0x39, 0x35]
      fieldET1 := by
  unfold Spec.Shape Spec.IsId
  decide +kernel
theorem shape_short_blob : Spec.Shape lineShortBlob [0x31] [0x32] [0x41, 0x41, 0x41, 0x41] := by
  unfold Spec.Shape Spec.IsId
  decide +kernel
theorem blob_ET1 : Spec.IsBlob fieldET1 :=
  ⟨fieldET1.take 22, by decide +kernel, by decide +kernel, by unfold Spec.IsB64Char; decide +kernel⟩
theorem no_blob_short : ¬ Spec.IsBlob [0x41, 0x41, 0x41, 0x41] := by
  rintro ⟨g, hg, hl, -⟩
  have := congrArg List.length hg
  simp [hl] at this

theorem witness_ClassifyTextByShape :
    (inHand (ask 1 .text lineET1)).req.inLen.toNat ≤ 64
      ∧ Spec.Shape ((inHand (ask 1 .text lineET1)).req.inData.readBytes 0 (inHand (ask 1 .text lineET1)).req.inLen.toNat)
          [0x31, 0x32, 0x33, 0x34, 0x35, 0x36] [0x34, 0x32, 0x39, 0x34, 0x39, 0x36, 0x37, 0x32, 0x39, 0x35] fieldET1
      ∧ Spec.IsBlob fieldET1 := by
  refine ⟨by decide +kernel, ?_, blob_ET1⟩
  rw [show (inHand (ask 1 .text lineET1)).req.inData.readBytes 0 (inHand (ask 1 .text lineET1)).req.inLen.toNat = lineET1
    from by decide +kernel]
  exact shape_ET1

theorem witness_ClassifyTextByShape_bad_blob :
    (inHand (ask 1 .text lineShortBlob)).req.inLen.toNat ≤ 64
      ∧ Spec.Shape
          ((inHand (ask 1 .text lineShortBlob)).req.inData.readBytes 0 (inHand (ask 1 .text lineShortBlob)).req.inLen.toNat)
          [0x31] [0x32] [0x41, 0x41, 0x41, 0x41]
      ∧ ¬ Spec.IsBlob [0x41, 0x41, 0x41, 0x41] := by
  refine ⟨by decide +kernel, ?_, no_blob_short⟩
  rw [show (inHand (ask 1 .text lineShortBlob)).req.inData.readBytes 0 (inHand (ask 1 .text lineShortBlob)).req.inLen.toNat
    = lineShortBlob from by decide +kernel]
  exact shape_short_blob

/-- The empty line has no comma; a line of 65 bytes is not looked at. -/
theorem witness_ClassifyTextByShape_no_shape :
    (¬ ∃ d1 d2 f : Bytes, Spec.Shape ((inHand (ask 1 .text [])).req.inData.readBytes 0 0) d1 d2 f)
      ∧ 64 < (inHand (ask 1 .text (keyBytes 65))).req.inLen.toNat := by
  refine ⟨?_, by decide +kernel⟩
  rintro ⟨d1, d2, f, h, -⟩
  have := congrArg List.length h
  simp [Memory.readBytes] at this

theorem witness_TextGrammarIsAcceptedExactly :
    classifyTxt lineET1.length lineET1 = .ok (.encryptedText 123456 4294967295 blobET1) := by decide +kernel
theorem witness_TextGrammarIsAcceptedExactly_shape :
    ∃ line d1 d2 f : Bytes, Spec.Shape line d1 d2 f ∧ Spec.IsBlob f := ⟨_, _, _, _, shape_ET1, blob_ET1⟩

theorem witness_ClassifierIsTotal :
    (14 ≠ 15 ∧ 14 ≠ 18 ∧ 14 ≠ 25) ∧ lineShortBlob.length ≤ 64
      ∧ Spec.Shape lineShortBlob [0x31] [0x32] [0x41, 0x41, 0x41, 0x41] ∧ b64Dec16 [0x41, 0x41, 0x41, 0x41] = none :=
  ⟨by decide, by decide, shape_short_blob, by decide +kernel⟩

/-- 4294967296 is out of range. -/
theorem witness_DecimalIdentifierIsItsValue :
    ¬ Spec.IsId [0x34, 0x32, 0x39, 0x34, 0x39, 0x36, 0x37, 0x32, 0x39, 0x36] := by
  unfold Spec.IsId
  decide +kernel

theorem witness_Base64GroupByGroup : b64Dec16 fieldET1 = some blobET1 := by decide +kernel

theorem witness_GeoDecResult :
    3 ≤ (inHand (ask 2 .binary [0x80, 0x00, 0x00])).req.inSize ∧ (2 : BitVec 16) ≠ 3 ∧ (4 : BitVec 16) ≠ 3 := by
  decide +kernel

theorem witness_GeoDecIsABijection : geoDec 0x80 0x00 0x00 = -8388608 ∧ (-8388608 : Int) ≤ -8388608 ∧ (-8388608 : Int) ≤ 8388607 := by
  decide +kernel

/-- The least and the greatest operand that fit, and their neighbours that do not. -/
theorem witness_GeoEncResult :
    Spec.roundedE4 (inHand (ask 3 .binary [] [] (BitVec.ofInt 32 (-838860849)))).req.arg = -8388608
      ∧ Spec.roundedE4 (inHand (ask 3 .binary [] [] 838860749)).req.arg = 8388607
      ∧ Spec.roundedE4 (inHand (ask 3 .binary [] [] (BitVec.ofInt 32 (-838860850)))).req.arg < -8388608
      ∧ 8388607 < Spec.roundedE4 (inHand (ask 3 .binary [] [] 838860750)).req.arg := by decide +kernel

theorem witness_GeoRoundTripLaw : |(-1 / 20000 : Rat)| < 838 := by decide +kernel

/-- 2700 and 4200, 2699 and 4201 millivolts. -/
theorem witness_VoltEncResult :
    (2700 ≤ (inHand (ask 5 .binary [] [] 2700)).req.arg.toNat % 2 ^ 16
      ∧ (inHand (ask 5 .binary [] [] 2700)).req.arg.toNat % 2 ^ 16 ≤ 4200)
      ∧ (2700 ≤ (inHand (ask 5 .binary [] [] 0xFFFF1068)).req.arg.toNat % 2 ^ 16
        ∧ (inHand (ask 5 .binary [] [] 0xFFFF1068)).req.arg.toNat % 2 ^ 16 ≤ 4200)
      ∧ (inHand (ask 5 .binary [] [] 2699)).req.arg.toNat % 2 ^ 16 < 2700
      ∧ 4200 < (inHand (ask 5 .binary [] [] 4201)).req.arg.toNat % 2 ^ 16 := by decide +kernel

theorem witness_VoltageRoundTripLaw : 2700 ≤ (2700#16).toNat ∧ (2700#16).toNat ≤ 4200 ∧ 2700 ≤ (4200#16).toNat ∧ (4200#16).toNat ≤ 4200
    ∧ (ask 5 .text [] [] 2749).op = 5 ∧ (ask 4 .binary []).op = 4 ∧ 2700 ≤ (ask 5 .text [] [] 2749).arg.toNat % 2 ^ 16
    ∧ (ask 5 .text [] [] 2749).arg.toNat % 2 ^ 16 ≤ 4200 := by decide +kernel

/-- No byte, one byte and 64 bytes; 65 are refused. -/
theorem witness_CsumSumResult :
    ((0#16).toNat ≤ 64 ∧ (0#16).toNat ≤ (inHand (ask 6 .binary [])).req.inSize)
      ∧ ((1#16).toNat ≤ 64 ∧ (1#16).toNat ≤ (inHand (ask 6 .binary [0x7F])).req.inSize)
      ∧ ((64#16).toNat ≤ 64 ∧ (64#16).toNat ≤ (inHand (ask 6 .binary (keyBytes 64))).req.inSize)
      ∧ 64 < (65#16).toNat := by decide +kernel

theorem witness_CsumVerifyResult :
    (16 ≤ (inHand (ask 7 .binary blockEB1)).req.inSize ∧ Spec.Intact (inHand (ask 7 .binary blockEB1)).req.inData.read)
      ∧ (16 ≤ (inHand (ask 7 .binary blockBad)).req.inSize ∧ ¬ Spec.Intact (inHand (ask 7 .binary blockBad)).req.inData.read)
      ∧ (15 : BitVec 16) ≠ 16 ∧ (17 : BitVec 16) ≠ 16 := by
  unfold Spec.Intact
  decide +kernel

/-- The first and the last byte of the block. -/
theorem witness_OneChangedByteDefeatsTheChecksum :
    ∀ k ∈ [0, 15], blockEB1.length = 16 ∧ (blockEB1.set k 0xEE).length = 16 ∧ k < 16
      ∧ byteAt blockEB1 k ≠ byteAt (blockEB1.set k 0xEE) k
      ∧ (∀ j, j < 16 → j ≠ k → byteAt blockEB1 j = byteAt (blockEB1.set k 0xEE) j) ∧ csumVerify blockEB1 = true := by
  decide +kernel
/-- Beyond the block both read the same. -/
theorem witness_OneChangedByteDefeatsTheChecksum_beyond (k j : Nat) (hj : 16 ≤ j) :
    byteAt blockEB1 j = byteAt (blockEB1.set k 0xEE) j := by
  have h1 : blockEB1.length ≤ j := hj
  have h2 : (blockEB1.set k 0xEE).length ≤ j := by rw [List.length_set]; exact hj
  unfold byteAt
  rw [List.getD_eq_default _ _ h1, List.getD_eq_default _ _ h2]

theorem witness_SumOfBytesIsAdditiveAndOrderBlind : ([0x7F, 0x80, 0x01] : Bytes).Perm [0x01, 0x7F, 0x80] := by decide

theorem witness_CiphersAreInverse : plainFips.length = 16 := rfl

/-- 53 and CA are inverse to each other (their product written out by R137), 00 is its own image. -/
theorem witness_SboxIsTheAffineImageOfTheInverse : gmul 0x53 0xCA = 1 ∧ (0x53 : Byte) ≠ 0 := by decide +kernel

/-- The three key lengths; a first word of the recurrence and the last; the first and the last round constant used. -/
theorem witness_KeyScheduleRecurrence :
    aesParams 16 = some (4, 10) ∧ aesParams 24 = some (6, 12) ∧ aesParams 32 = some (8, 14)
      ∧ (4 ≤ 4 ∧ 4 < 4 * (10 + 1)) ∧ (8 ≤ 59 ∧ 59 < 4 * (14 + 1)) ∧ 1 ≤ 1 ∧ 1 ≤ 9 := by decide

theorem witness_DecryptionFailsByKeyLengthAlone : (33 ≠ 16) ∧ (33 ≠ 24) ∧ (33 ≠ 32) := by decide

theorem witness_EncryptedFrameDecodesWithItsKey :
    blockEB1.length = 16 ∧ aesParams (keyBytes 16).length = some (4, 10) ∧ Spec.Intact (byteAt blockEB1)
      ∧ blockBad.length = 16 ∧ ¬ Spec.Intact (byteAt blockBad) := by
  unfold Spec.Intact
  decide +kernel

theorem witness_ReadingsOfTheRecords :
    decPlainExt framePX ∈ [decPlainShort framePX, decPlainExt framePX] ∧ blockEB1.length = 16 := by decide +kernel

/-- A DECODE that delivers, one whose decoder fails, a CLASSIFY, and one that fails. -/
theorem witness_RecordAndVariantAreValidExactly :
    (waiting [ask 0 .binary framePS]).pending = ask 0 .binary framePS :: []
      ∧ (answer (ask 0 .binary framePS)).map (fun r => (r.recValid, r.variantValid)) = some (true, true)
      ∧ (answer (ask 0 .binary frameEB1)).map (fun r => (r.recValid, r.variantValid)) = some (false, true)
      ∧ (answer (ask 1 .text lineET1)).map (fun r => (r.recValid, r.variantValid)) = some (false, true)
      ∧ (answer (ask 1 .text [])).map (fun r => (r.recValid, r.variantValid)) = some (false, false)
      ∧ (ask 1 .text lineET1).classified = .ok (.encryptedText 123456 4294967295 blobET1) := by decide +kernel

/-- The infinities, a NaN, minus and plus zero, the least and the greatest subnormal, 1.0. -/
theorem witness_Binary32Reading :
    ((0x7F800000#32).toNat / 2 ^ 23 % 256 = 255 ∧ (0x7F800000#32).toNat % 2 ^ 23 = 0)
      ∧ ((0x7FC00000#32).toNat / 2 ^ 23 % 256 = 255 ∧ (0x7FC00000#32).toNat % 2 ^ 23 ≠ 0)
      ∧ ((0x80000000#32).toNat / 2 ^ 23 % 256 = 0 ∧ (0x80000000#32).toNat % 2 ^ 23 = 0 ∧ (0x80000000#32).toNat / 2 ^ 31 = 1)
      ∧ ((0#32).toNat / 2 ^ 23 % 256 = 0 ∧ (0#32).toNat / 2 ^ 31 = 0)
      ∧ ((0x007FFFFF#32).toNat / 2 ^ 23 % 256 = 0 ∧ (0x007FFFFF#32).toNat % 2 ^ 23 ≠ 0)
      ∧ ((0x3F800000#32).toNat / 2 ^ 23 % 256 ≠ 255 ∧ (0x3F800000#32).toNat / 2 ^ 23 % 256 ≠ 0) := by decide +kernel

end Sys2Proof.Tests
end

section
/-! The step as the rules' transaction. Each row, executed on the request that selects it, delivers the response that
`transaction` computes from the parameters and the request; so a step from any state that takes a request does (R191). -/

namespace Sys2Proof.Proofs

open Machine

/-! ### Classification of the request in hand -/

/-- Classifying the bytes that classification reads is the request's classification (R70, R71). -/
theorem classifyBytes_presented (r : Request) :
    classifyBytes r.inKind r.inLen.toNat (r.inData.readBytes 0 (classifyReads r.inKind r.inLen.toNat)) =
      r.classified := by
  unfold Request.classified
  cases r.inKind with
  | binary => rfl
  | text =>
    by_cases h : Config.inBufBytes < r.inLen.toNat
    · simp [classifyBytes, classifyTxt, h]
    · have hmin : min r.inLen.toNat Config.inBufBytes = r.inLen.toNat := by omega
      simp [classifyBytes, classifyReads, Request.input, h, hmin]

theorem withClass_of_error {s : State} {e : ErrorKind} (h : s.req.classified = .error e) (go : PacketClass → StepOutcome) :
    withClass s.req.inKind s.req.inLen s go = .next (s.deliver (failedResponse e none)) := by
  rw [withClass_eq, if_pos (classifyReads_le_inSize _), classifyBytes_presented, h]

theorem withClass_of_ok {s : State} {c : PacketClass} (h : s.req.classified = .ok c) (go : PacketClass → StepOutcome) :
    withClass s.req.inKind s.req.inLen s go = go c := by
  rw [withClass_eq, if_pos (classifyReads_le_inSize _), classifyBytes_presented, h]

/-- The number of bytes of IN the decoder of a class reads (R70); the line of EncryptedText was read before it. -/
def frameLength : PacketClass → Nat
  | .plaintextShort => Config.lenPS
  | .plaintextExtended => Config.lenPX
  | .encryptedBinary => Config.lenEB
  | .encryptedText _ _ _ => 0

theorem frameLength_le_buffer (c : PacketClass) : frameLength c ≤ Config.inBufBytes := by
  cases c <;> simp [frameLength, Config.lenPS, Config.lenPX, Config.lenEB, Config.inBufBytes]

/-- A length of a binary class is the class's frame length. -/
theorem classifyBin_frameLength {len : Nat} {c : PacketClass} (h : classifyBin len = .ok c) : frameLength c = len := by
  unfold classifyBin at h
  split_ifs at h <;> cases h <;> exact Eq.symm ‹_›

/-- A text line is classified as EncryptedText or not at all (R71). -/
theorem classifyTxt_frameLength {len : Nat} {line : Bytes} {c : PacketClass} (h : classifyTxt len line = .ok c) :
    frameLength c = 0 := by
  unfold classifyTxt at h
  split_ifs at h
  dsimp only at h
  split at h
  · split at h
    · cases h; rfl
    · cases h
  · cases h

/-- IN holds the frame of a classified request, so its decoder reads inside the space (R32, R163). -/
theorem frameLength_le_inSize {r : Request} {c : PacketClass} (h : r.classified = .ok c) : frameLength c ≤ r.inSize := by
  unfold Request.classified at h
  split at h
  · have hlen : frameLength c = r.inLen.toNat := classifyBin_frameLength h
    exact le_min hlen.le (frameLength_le_buffer c)
  · exact (classifyTxt_frameLength h).le.trans (Nat.zero_le _)

/-! ### Each row on the request that selects it -/

/-- The row of a class delivers what the class's decoder answers (R73). -/
theorem exec_rowOfClass {s : State} {c : PacketClass} (h : s.req.classified = .ok c) :
    exec (rowOfClass c) s = .next (s.deliver (decodeTransaction s.params s.req)) := by
  have hsize := frameLength_le_inSize h
  unfold decodeTransaction
  rw [h]
  cases c with
  | plaintextShort => exact completeFromInput_of_le hsize
  | plaintextExtended => exact completeFromInput_of_le hsize
  | encryptedBinary => exact completeFromInput_of_le hsize
  | encryptedText a b blob => rfl

/-- The fall-through row takes the error of the classification (R73; log 14). -/
theorem exec_decode_of_error {s : State} {e : ErrorKind} (h : s.req.classified = .error e) :
    exec (.decode s.req.inKind s.req.inLen) s = .next (s.deliver (decodeTransaction s.params s.req)) := by
  have hresp : decodeTransaction s.params s.req = failedResponse e none := by rw [decodeTransaction, h]
  rw [hresp]
  exact withClass_of_error h _

theorem exec_classify (s : State) :
    exec (.classify s.req.inKind s.req.inLen) s = .next (s.deliver (classifyTransaction s.req)) := by
  unfold classifyTransaction
  cases h : s.req.classified with
  | error e => exact withClass_of_error h _
  | ok c => exact withClass_of_ok h _

theorem exec_geoDec (s : State) :
    exec (.geoDec s.req.inKind s.req.inLen) s =
      .next (s.deliver (if s.req.inLen.toNat = 3 then geoDecResponse (s.req.input 3)
        else failedResponse .illegalRequest none)) := by
  by_cases h : s.req.inLen.toNat = 3
  · have hsize : 3 ≤ s.req.inSize := by simp [Request.inSize, h, Config.inBufBytes]
    simp [exec, execGeoDec, h, completeFromInput_of_le hsize, Request.input]
  · simp [exec, execGeoDec, h, State.raise_eq]

theorem exec_csumSum (s : State) :
    exec (.csumSum s.req.inKind s.req.inLen) s =
      .next (s.deliver (if s.req.inLen.toNat ≤ 64 then csumSumResponse (s.req.input s.req.inLen.toNat)
        else failedResponse .illegalRequest none)) := by
  by_cases h : s.req.inLen.toNat ≤ 64
  · have hsize : s.req.inLen.toNat ≤ s.req.inSize := by simp [Request.inSize, h, Config.inBufBytes]
    simp [exec, execCsumSum, h, completeFromInput_of_le hsize, Request.input, Config.inBufBytes]
  · simp [exec, execCsumSum, h, State.raise_eq, Config.inBufBytes]

theorem exec_csumVerify (s : State) :
    exec (.csumVerify s.req.inKind s.req.inLen) s =
      .next (s.deliver (if s.req.inLen.toNat = 16 then csumVerifyResponse (s.req.input 16)
        else failedResponse .illegalRequest none)) := by
  by_cases h : s.req.inLen.toNat = 16
  · have hsize : 16 ≤ s.req.inSize := by simp [Request.inSize, h, Config.inBufBytes]
    simp [exec, execCsumVerify, h, completeFromInput_of_le hsize, Request.input, Config.blobLen]
  · simp [exec, execCsumVerify, h, State.raise_eq, Config.blobLen]

/-! ### The step -/

/-- The row the decoder selects delivers the transaction's response (R50, R162). -/
theorem exec_of_decode {s : State} {i : Instr} (h : decode (fetchBytes s.req) = .ok i) :
    exec i s = .next (s.deliver (transaction s.params s.req)) := by
  rw [decode_fetchBytes, decodeSel_selOf, classifyBytes_presented] at h
  unfold transaction
  match hop : s.req.op.toNat with
  | 0 =>
    rw [hop] at h
    cases hc : s.req.classified with
    | ok c =>
      rw [hc] at h
      cases h
      exact exec_rowOfClass hc
    | error e =>
      rw [hc] at h
      cases h
      exact exec_decode_of_error hc
  | 1 => rw [hop] at h; cases h; exact exec_classify s
  | 2 => rw [hop] at h; cases h; exact exec_geoDec s
  | 3 => rw [hop] at h; cases h; rfl
  | 4 => rw [hop] at h; cases h; rfl
  | 5 => rw [hop] at h; cases h; rfl
  | 6 => rw [hop] at h; cases h; exact exec_csumSum s
  | 7 => rw [hop] at h; cases h; exact exec_csumVerify s
  | n + 8 => rw [hop] at h; cases h

/-- A request without a row is refused by the transaction as well (R66). -/
theorem transaction_of_decode_error (p : Params) {r : Request} {e : Reject} (h : decode (fetchBytes r) = .error e) :
    transaction p r = failedResponse .illegalRequest none := by
  rw [decode_fetchBytes, decodeSel_selOf, classifyBytes_presented] at h
  unfold transaction
  match hop : r.op.toNat with
  | 0 =>
    rw [hop] at h
    cases hc : r.classified <;> rw [hc] at h <;> cases h
  | 1 | 2 | 3 | 4 | 5 | 6 | 7 => rw [hop] at h; cases h
  | n + 8 => rfl

/-- A step that takes a request delivers its transaction, whatever the state (R191). -/
theorem step_of_pending {s : State} {r : Request} {rest : List Request} (h : s.pending = r :: rest) :
    step s = .next ((s.accept r rest).deliver (transaction s.params r)) := by
  cases hd : decode (fetchBytes r) with
  | ok i =>
    simp only [step, h, hd]
    exact exec_of_decode (s := s.accept r rest) hd
  | error e => simp only [step, h, hd, State.raise_eq, transaction_of_decode_error _ hd]

/-- Settles O11: both steps deliver the same transaction, which is a function of the parameters and the request. -/
theorem responseIsAFunctionOfTheRequest : Obligations.ResponseIsAFunctionOfTheRequest := by
  unfold Obligations.ResponseIsAFunctionOfTheRequest
  intro s₁ s₂ r rest₁ rest₂ hparams h₁ h₂
  refine ⟨_, _, step_of_pending h₁, step_of_pending h₂, ?_⟩
  rw [State.deliver_resp, State.deliver_resp, hparams]

end Sys2Proof.Proofs
end

section
/-! What a transaction can answer: one of six forms, each with the conditions under which it is given (R17, R72, R73,
R173). The shape of every response, the validity of its ports and the integrity flag of its record are read off them. -/

namespace Sys2Proof.Proofs

open Machine

/-! ### The operation selector -/

theorem op_eq_zero {op : BitVec 4} (h : op.toNat = 0) : op = 0 := BitVec.eq_of_toNat_eq h

theorem op_eq_one {op : BitVec 4} (h : op.toNat = 1) : op = 1 := BitVec.eq_of_toNat_eq h

/-- The operations other than DECODE and CLASSIFY. -/
theorem not_op_of_two_le {op : BitVec 4} (h : 2 ≤ op.toNat) : ¬(op = 0 ∨ op = 1) := by
  rintro (rfl | rfl) <;> exact absurd h (by decide)

/-! ### Codes -/

@[simp] theorem variantOf_variantCode (v : Variant) : variantOf (variantCode v) = v := by cases v <;> rfl

theorem errorCode_ne_zero (e : ErrorKind) : errorCode e ≠ 0 := by cases e <;> decide

/-! ### The shape of a record -/

theorem voltDec_toNat (n : Nibble) : (voltDec n).toNat = (n.toNat + 27) * 100 := by
  have hn := n.isLt
  simp only [voltDec, Config.voltOffset, Config.voltStepMv, BitVec.toNat_ofNat]
  omega

/-- A battery the quantizer gave is a step of its table, whatever the variant (R95, R98). -/
theorem batteryOk_of_voltDec {rec : Record} {n : Nibble} (h : rec.batteryMv = voltDec n) (v : Variant) :
    rec.batteryOk v = true := by
  have hn := n.isLt
  have hmv : rec.batteryMv.toNat = (n.toNat + 27) * 100 := by rw [h, voltDec_toNat]
  cases v with
  | encryptedText => rfl
  | plaintextShort | plaintextExtended | encryptedBinary =>
    simp only [Record.batteryOk, Bool.and_eq_true, decide_eq_true_eq, beq_iff_eq]
    omega

theorem decEncBin_ok {prm : Params} {key : Option SuppliedKey} {f : Bytes} {rec : Record}
    (h : decEncBin prm key f = .ok rec) :
    ∃ p, decryptChecked key (slice f 9 Config.blobLen) = .ok p ∧ rec = Machine.encBinRecord prm f p := by
  unfold decEncBin at h
  split at h
  · cases h
  · exact ⟨_, ‹_›, (Except.ok.inj h).symm⟩

theorem decEncText_ok {id1 id2 : Word32} {blob : Bytes} {key : Option SuppliedKey} {rec : Record}
    (h : decEncText id1 id2 blob key = .ok rec) :
    ∃ p, decryptChecked key blob = .ok p ∧ rec = Machine.encTextRecord id1 id2 p := by
  unfold decEncText at h
  split at h
  · cases h
  · exact ⟨_, ‹_›, (Except.ok.inj h).symm⟩

/-- The record a class's decoder delivers has the shape of the class's variant, and its battery is one of the
quantizer's where the variant is quantized (R21, R22, R98). -/
theorem decodeClass_shape {prm : Params} {r : Request} {c : PacketClass} {rec : Record}
    (h : decodeClass prm r c = .ok rec) :
    rec.shapeOk (classVariant c) = true ∧ rec.batteryOk (classVariant c) = true := by
  cases c with
  | plaintextShort => cases h; exact ⟨rfl, batteryOk_of_voltDec rfl _⟩
  | plaintextExtended => cases h; exact ⟨rfl, batteryOk_of_voltDec rfl _⟩
  | encryptedBinary => obtain ⟨p, -, rfl⟩ := decEncBin_ok h; exact ⟨rfl, batteryOk_of_voltDec rfl _⟩
  | encryptedText a b blob => obtain ⟨p, -, rfl⟩ := decEncText_ok h; exact ⟨rfl, rfl⟩

/-! ### The six answers -/

/-- What a transaction can answer, and when. -/
inductive Answer (prm : Params) (r : Request) : Response → Prop
  /-- DECODE delivers the record of its class (R73). -/
  | record {c : PacketClass} {rec : Record} (hop : r.op = 0) (hclass : r.classified = .ok c)
      (hrec : decodeClass prm r c = .ok rec) : Answer prm r (decodedResponse (classVariant c) rec)
  /-- The decoder of the class fails; the variant is kept (R73, R173). -/
  | decoderFailed {c : PacketClass} (e : ErrorKind) (hop : r.op = 0) (hclass : r.classified = .ok c) :
      Answer prm r (failedResponse e (some (classVariant c)))
  /-- CLASSIFY finds a class (R72). -/
  | variant {c : PacketClass} (hop : r.op = 1) (hclass : r.classified = .ok c) :
      Answer prm r (classifiedResponse (classVariant c))
  /-- DECODE or CLASSIFY fails in classification (R72, R73). -/
  | unclassified {e : ErrorKind} (hop : r.op = 0 ∨ r.op = 1) (hclass : r.classified = .error e) :
      Answer prm r (failedResponse e none)
  /-- A leaf operation gives its result (R67). -/
  | scalar (res : Word32) (hop : ¬(r.op = 0 ∨ r.op = 1)) : Answer prm r (leafResponse res)
  /-- A leaf operation fails, or the request is illegal (R66, R67). -/
  | leafFailed (e : ErrorKind) (hop : ¬(r.op = 0 ∨ r.op = 1)) : Answer prm r (failedResponse e none)

theorem decodeTransaction_of_error (prm : Params) {r : Request} {e : ErrorKind} (h : r.classified = .error e) :
    decodeTransaction prm r = failedResponse e none := by
  rw [decodeTransaction, h]

theorem decodeTransaction_of_ok (prm : Params) {r : Request} {c : PacketClass} (h : r.classified = .ok c) :
    decodeTransaction prm r =
      responseOf (some (classVariant c)) (decodedResponse (classVariant c)) (decodeClass prm r c) := by
  rw [decodeTransaction, h]

theorem decodeTransaction_answer (prm : Params) {r : Request} (hop : r.op = 0) :
    Answer prm r (decodeTransaction prm r) := by
  cases hclass : r.classified with
  | error e =>
    rw [decodeTransaction_of_error prm hclass]
    exact .unclassified (.inl hop) hclass
  | ok c =>
    rw [decodeTransaction_of_ok prm hclass]
    cases hrec : decodeClass prm r c with
    | error e => exact .decoderFailed e hop hclass
    | ok rec => exact .record hop hclass hrec

theorem classifyTransaction_answer (prm : Params) {r : Request} (hop : r.op = 1) :
    Answer prm r (classifyTransaction r) := by
  unfold classifyTransaction
  cases hclass : r.classified with
  | error e => exact .unclassified (.inr hop) hclass
  | ok c => exact .variant hop hclass

/-- A leaf operation whose result may be an error (R67). -/
theorem responseOf_leaf_answer (prm : Params) {r : Request} (hop : ¬(r.op = 0 ∨ r.op = 1)) {α : Type}
    (res : α → Word32) (x : Except ErrorKind α) : Answer prm r (responseOf none (fun a => leafResponse (res a)) x) := by
  cases x with
  | error e => exact .leafFailed e hop
  | ok a => exact .scalar _ hop

/-- A leaf operation that is legal under a condition (R66, R67). -/
theorem ite_leaf_answer (prm : Params) {r : Request} (hop : ¬(r.op = 0 ∨ r.op = 1)) {P : Prop} [Decidable P]
    (res : Word32) : Answer prm r (if P then leafResponse res else failedResponse .illegalRequest none) := by
  split
  · exact .scalar _ hop
  · exact .leafFailed _ hop

/-- Every transaction gives one of the six answers (R191). -/
theorem transaction_answer (prm : Params) (r : Request) : Answer prm r (transaction prm r) := by
  unfold transaction
  match hop : r.op.toNat with
  | 0 => exact decodeTransaction_answer prm (op_eq_zero hop)
  | 1 => exact classifyTransaction_answer prm (op_eq_one hop)
  | 2 => exact ite_leaf_answer prm (not_op_of_two_le (by omega)) _
  | 3 => exact responseOf_leaf_answer prm (not_op_of_two_le (by omega)) _ _
  | 4 => exact .scalar _ (not_op_of_two_le (by omega))
  | 5 => exact responseOf_leaf_answer prm (not_op_of_two_le (by omega)) _ _
  | 6 => exact ite_leaf_answer prm (not_op_of_two_le (by omega)) _
  | 7 => exact ite_leaf_answer prm (not_op_of_two_le (by omega)) _
  | n + 8 => exact .leafFailed _ (not_op_of_two_le (by omega))

/-! ### The invariant -/

theorem failedResponse_wf (e : ErrorKind) (v : Option Variant) : (failedResponse e v).wf = true := by
  cases v <;> simp [failedResponse, Response.wf]

theorem decodedResponse_wf {v : Variant} {rec : Record} (hshape : rec.shapeOk v = true)
    (hbattery : rec.batteryOk v = true) : (decodedResponse v rec).wf = true := by
  simp [decodedResponse, Response.wf, hshape, hbattery]

theorem classifiedResponse_wf (v : Variant) : (classifiedResponse v).wf = true := by
  simp [classifiedResponse, Response.wf]

theorem leafResponse_wf (res : Word32) : (leafResponse res).wf = true := by
  simp [leafResponse, Response.wf]

/-- Every answer has the shape the rules give a response (R17, R21, R22, R173). -/
theorem answer_wf {prm : Params} {r : Request} {a : Response} (h : Answer prm r a) : a.wf = true := by
  cases h with
  | record hop hclass hrec =>
    obtain ⟨hshape, hbattery⟩ := decodeClass_shape hrec
    exact decodedResponse_wf hshape hbattery
  | decoderFailed e hop hclass => exact failedResponse_wf e _
  | variant hop hclass => exact classifiedResponse_wf _
  | unclassified hop hclass => exact failedResponse_wf _ none
  | scalar res hop => exact leafResponse_wf res
  | leafFailed e hop => exact failedResponse_wf e none

theorem inv_iff {s : State} :
    s.inv = true ↔ s.req.wf = true ∧ (∀ r ∈ s.pending, r.wf = true) ∧ s.resp.wf = true ∧
      ∀ a ∈ s.delivered, a.wf = true := by
  simp [State.inv, and_assoc]

theorem inv_idle {s : State} (h : s.inv = true) : s.idle.inv = true := by
  obtain ⟨hreq, hpending, -, hdelivered⟩ := inv_iff.1 h
  exact inv_iff.2 ⟨hreq, hpending, rfl, hdelivered⟩

/-- A request in the queue is well-formed, so taking it keeps the invariant. -/
theorem inv_accept {s : State} {r : Request} {rest : List Request} (h : s.inv = true) (hp : s.pending = r :: rest) :
    (s.accept r rest).inv = true := by
  obtain ⟨-, hpending, hresp, hdelivered⟩ := inv_iff.1 h
  rw [hp, List.forall_mem_cons] at hpending
  exact inv_iff.2 ⟨hpending.1, hpending.2, hresp, hdelivered⟩

theorem inv_deliver {s : State} {a : Response} (h : s.inv = true) (ha : a.wf = true) : (s.deliver a).inv = true := by
  obtain ⟨hreq, hpending, -, hdelivered⟩ := inv_iff.1 h
  exact inv_iff.2 ⟨hreq, hpending, ha, List.forall_mem_append.2 ⟨hdelivered, List.forall_mem_singleton.2 ha⟩⟩

theorem step_of_idle {s : State} (h : s.pending = []) : step s = .next s.idle := by
  simp only [step, h]

/-- Settles O15: an idle step keeps the invariant, and so do the two halves of any other step, the taking of a request
that was pending and the delivery of a well-shaped response. -/
theorem stepKeepsTheInvariant : Obligations.StepKeepsTheInvariant := by
  unfold Obligations.StepKeepsTheInvariant
  intro s t hinv hstep
  cases hp : s.pending with
  | nil =>
    rw [step_of_idle hp] at hstep
    cases hstep
    exact inv_idle hinv
  | cons r rest =>
    rw [step_of_pending hp] at hstep
    cases hstep
    exact inv_deliver (inv_accept hinv hp) (answer_wf (transaction_answer _ _))

end Sys2Proof.Proofs
end

section
/-! What the ports of an answer say: when its record and its variant are valid (R17), and what a record's integrity
flag vouches for (R22). -/

namespace Sys2Proof.Proofs

open Machine

theorem step_answer {s : State} {r : Request} {rest : List Request} (h : s.pending = r :: rest) :
    ∃ t, step s = .next t ∧ Answer s.params r t.resp :=
  ⟨_, step_of_pending h, transaction_answer s.params r⟩

/-! ### Validity of the record and of the variant -/

/-- A failed response has no record and a status other than OK (R173). -/
theorem failedResponse_status_recValid (e : ErrorKind) (v : Option Variant) :
    (failedResponse e v).status ≠ 0 ∧ (failedResponse e v).recValid = false := by
  cases v <;> exact ⟨errorCode_ne_zero e, rfl⟩

theorem recValid_iff_of_failed (e : ErrorKind) (v : Option Variant) (P : Prop) :
    (failedResponse e v).recValid = true ↔ P ∧ (failedResponse e v).status = 0 := by
  obtain ⟨hstatus, hrec⟩ := failedResponse_status_recValid e v
  simp only [hrec, hstatus, Bool.false_eq_true, and_false]

theorem answer_recValid_iff {prm : Params} {r : Request} {a : Response} (h : Answer prm r a) :
    a.recValid = true ↔ r.op = 0 ∧ a.status = 0 := by
  cases h with
  | record hop hclass hrec => exact iff_of_true rfl ⟨hop, rfl⟩
  | variant hop hclass => simp [classifiedResponse, hop]
  | scalar res hop => exact iff_of_false Bool.false_ne_true fun hdecode => hop (.inl hdecode.1)
  | decoderFailed e hop hclass => exact recValid_iff_of_failed e _ _
  | unclassified hop hclass => exact recValid_iff_of_failed _ none _
  | leafFailed e hop => exact recValid_iff_of_failed e none _

/-- Classification succeeded: the answer carries the variant of the class and no scalar result, also where the decoder
then failed (R17, R173). -/
theorem answer_of_classified {prm : Params} {r : Request} {a : Response} {c : PacketClass} (h : Answer prm r a)
    (hop : r.op = 0 ∨ r.op = 1) (hc : r.classified = .ok c) :
    a.variantValid = true ∧ a.variant = variantCode (classVariant c) := by
  cases h with
  | record hop' hclass hrec => cases hclass.symm.trans hc; exact ⟨rfl, rfl⟩
  | decoderFailed e hop' hclass => cases hclass.symm.trans hc; exact ⟨rfl, rfl⟩
  | variant hop' hclass => cases hclass.symm.trans hc; exact ⟨rfl, rfl⟩
  | unclassified hop' hclass => cases hclass.symm.trans hc
  | scalar res hop' => exact absurd hop hop'
  | leafFailed e hop' => exact absurd hop hop'

theorem classified_of_variantValid {prm : Params} {r : Request} {a : Response} (h : Answer prm r a)
    (hv : a.variantValid = true) : (r.op = 0 ∨ r.op = 1) ∧ ∃ c, r.classified = .ok c := by
  cases h with
  | record hop hclass hrec => exact ⟨.inl hop, _, hclass⟩
  | decoderFailed e hop hclass => exact ⟨.inl hop, _, hclass⟩
  | variant hop hclass => exact ⟨.inr hop, _, hclass⟩
  | unclassified hop hclass => cases hv
  | scalar res hop => cases hv
  | leafFailed e hop => cases hv

theorem answer_variantValid_iff {prm : Params} {r : Request} {a : Response} (h : Answer prm r a) :
    a.variantValid = true ↔ (r.op = 0 ∨ r.op = 1) ∧ ∃ c, r.classified = .ok c :=
  ⟨classified_of_variantValid h, fun ⟨hop, _, hc⟩ => (answer_of_classified h hop hc).1⟩

theorem answer_variant_eq_zero {prm : Params} {r : Request} {a : Response} (h : Answer prm r a)
    (hv : a.variantValid = false) : a.variant = 0 := by
  have hwf := answer_wf h
  simp only [Response.wf, hv, Bool.false_or, Bool.and_eq_true, beq_iff_eq] at hwf
  exact hwf.1.2

theorem answer_res_eq_zero {prm : Params} {r : Request} {a : Response} (h : Answer prm r a)
    (hop : r.op = 0 ∨ r.op = 1) : a.res = 0 := by
  cases h with
  | record | decoderFailed | variant | unclassified => rfl
  | scalar res hop' => exact absurd hop hop'
  | leafFailed e hop' => rfl

/-- Settles O60: each clause is a fact about the answer of the transaction. -/
theorem recordAndVariantAreValidExactly : Obligations.RecordAndVariantAreValidExactly := by
  unfold Obligations.RecordAndVariantAreValidExactly
  intro s r rest hp
  obtain ⟨t, hstep, ha⟩ := step_answer hp
  refine ⟨t, hstep, answer_recValid_iff ha, answer_variantValid_iff ha, ?_, answer_variant_eq_zero ha,
    answer_res_eq_zero ha⟩
  intro c hop hc
  rw [(answer_of_classified ha hop hc).2]
  cases c <;> rfl

/-! ### The integrity flag -/

/-- A byte beyond the end of a sequence reads as 00, so a sum over the first bytes needs no bound on the length. -/
theorem sum_take_eq_sum_byteAt (p : Bytes) (n : Nat) :
    ((p.take n).map BitVec.toNat).sum = ((List.range n).map fun k => (byteAt p k).toNat).sum := by
  induction n with
  | zero => rfl
  | succ n ih =>
    have hlast : (p[n]?.toList.map BitVec.toNat).sum = (byteAt p n).toNat := by
      rw [byteAt, List.getD_eq_getElem?_getD]
      cases p[n]? <;> rfl
    rw [List.take_add_one, List.range_succ, List.map_append, List.sum_append, ih, hlast]
    simp

theorem intact_iff_csumVerify (p : Bytes) : Spec.Intact (byteAt p) ↔ csumVerify p = true := by
  have hsum : (sum8 (slice p 0 Config.csumLen)).toNat =
      ((List.range 15).map fun k => (byteAt p k).toNat).sum % 256 := by
    rw [← sum_take_eq_sum_byteAt, sum8, BitVec.toNat_ofNat, Nat.mod_mod]
    rfl
  rw [Spec.Intact, csumVerify, beq_iff_eq, ← BitVec.toNat_inj, hsum]

/-- A valid record comes from the decoder of the request's class (R17, R73). -/
theorem answer_record {prm : Params} {r : Request} {a : Response} (h : Answer prm r a) (hv : a.recValid = true) :
    ∃ c, r.classified = .ok c ∧ a.variant = variantCode (classVariant c) ∧ decodeClass prm r c = .ok a.record := by
  cases h with
  | record hop hclass hrec => exact ⟨_, hclass, rfl, hrec⟩
  | decoderFailed | variant | unclassified | scalar | leafFailed => cases hv

/-- The integrity flags of a record of a variant's shape: both 1 for an encrypted variant, both 0 for another (R22). -/
theorem shapeOk_integrity {v : Variant} {rec : Record} (h : rec.shapeOk v = true) :
    (rec.hasIntegrity = true ↔ variantCode v = 2 ∨ variantCode v = 3) ∧ rec.integrityOk = rec.hasIntegrity := by
  cases v <;> simp_all [Record.shapeOk, variantCode]

/-- A record with an integrity flag was read from a decrypted block whose checksum matched (R22, R125). -/
theorem decodeClass_intact {prm : Params} {r : Request} {c : PacketClass} {rec : Record}
    (h : decodeClass prm r c = .ok rec) (hint : rec.hasIntegrity = true) :
    ∃ ct pt, aesEcbDec r.key ct = .ok pt ∧ Spec.Intact (byteAt pt) ∧
      (c = .encryptedBinary ∧ ct = r.inData.readBytes 9 16 ∨ ∃ a b, c = .encryptedText a b ct) := by
  cases c with
  | plaintextShort => cases h; cases hint
  | plaintextExtended => cases h; cases hint
  | encryptedBinary =>
    obtain ⟨pt, hpt, -⟩ := decEncBin_ok h
    obtain ⟨haes, hcsum⟩ := decryptChecked_ok hpt
    exact ⟨_, pt, haes, (intact_iff_csumVerify pt).2 hcsum, .inl ⟨rfl, slice_readBytes (by decide)⟩⟩
  | encryptedText a b blob =>
    obtain ⟨pt, hpt, -⟩ := decEncText_ok h
    obtain ⟨haes, hcsum⟩ := decryptChecked_ok hpt
    exact ⟨blob, pt, haes, (intact_iff_csumVerify pt).2 hcsum, .inr ⟨a, b, rfl⟩⟩

/-- Settles O23: the flags are part of the shape of the variant's record, and the decoder of an encrypted class
answers a record only after the check on the decrypted block. -/
theorem integrityFlagContract : Obligations.IntegrityFlagContract := by
  unfold Obligations.IntegrityFlagContract
  intro s r rest hp
  obtain ⟨t, hstep, ha⟩ := step_answer hp
  refine ⟨t, hstep, fun hv => ?_⟩
  obtain ⟨c, hclass, hvariant, hrec⟩ := answer_record ha hv
  obtain ⟨hflag, hok⟩ := shapeOk_integrity (decodeClass_shape hrec).1
  refine ⟨by rw [hvariant]; exact hflag, hok, fun hint => ?_⟩
  obtain ⟨ct, pt, haes, hintact, hct⟩ := decodeClass_intact hrec hint
  refine ⟨ct, pt, haes, hintact, ?_⟩
  simpa [hclass] using hct

end Sys2Proof.Proofs
end

section
/-! What a transaction depends on: the request fields, the classification, the decoder of the class and the bytes of IN
up to `in_len`. Bytes that are not presented (R14, R38) and, outside the encrypted variants, the key (R16) are not among
them. -/

namespace Sys2Proof.Proofs

open Machine

/-- A classified transmission fits the buffer (R70, R71). -/
theorem inLen_le_of_classified {r : Request} {c : PacketClass} (h : r.classified = .ok c) : r.inLen.toNat ≤ 64 := by
  unfold Request.classified at h
  split at h
  · exact (classifyBin_frameLength h).symm.le.trans (frameLength_le_buffer c)
  · by_contra hlong
    rw [classifyTxt, if_pos (by simpa [Config.inBufBytes] using hlong)] at h
    cases h

theorem decodeTransaction_congr {prm : Params} {r r' : Request} (hclass : r.classified = r'.classified)
    (hdecode : ∀ c, r.classified = .ok c → decodeClass prm r c = decodeClass prm r' c) :
    decodeTransaction prm r = decodeTransaction prm r' := by
  cases hc : r.classified with
  | error e =>
    rw [decodeTransaction_of_error prm hc, decodeTransaction_of_error prm (hclass.symm.trans hc)]
  | ok c =>
    rw [decodeTransaction_of_ok prm hc, decodeTransaction_of_ok prm (hclass.symm.trans hc), hdecode c hc]

/-- Two requests have the same transaction when they agree in what a transaction looks at. -/
theorem transaction_congr {prm : Params} {r r' : Request} (hop : r.op = r'.op) (hlen : r.inLen = r'.inLen)
    (harg : r.arg = r'.arg) (hclass : r.classified = r'.classified)
    (hdecode : ∀ c, r.op = 0 → r.classified = .ok c → decodeClass prm r c = decodeClass prm r' c)
    (hinput : r.inLen.toNat ≤ 64 → r.input r.inLen.toNat = r'.input r.inLen.toNat) :
    transaction prm r = transaction prm r' := by
  have hframe : ∀ n, n ≤ 64 → r.inLen.toNat = n → r.input n = r'.input n := by
    rintro n hn rfl
    exact hinput hn
  unfold transaction
  rw [← hop, ← hlen, ← harg]
  match hcode : r.op.toNat with
  | 0 => exact decodeTransaction_congr hclass fun c => hdecode c (op_eq_zero hcode)
  | 1 => exact congrArg (responseOf none fun c => classifiedResponse (classVariant c)) hclass
  | 2 => exact ite_congr rfl (fun h => congrArg geoDecResponse (hframe 3 (by decide) h)) fun _ => rfl
  | 6 => exact ite_congr rfl (fun h => congrArg csumSumResponse (hinput h)) fun _ => rfl
  | 7 => exact ite_congr rfl (fun h => congrArg csumVerifyResponse (hframe 16 (by decide) h)) fun _ => rfl
  | 3 | 4 | 5 => rfl
  | n + 8 => rfl

/-- Where the transactions are the same, so are the responses of the two steps. -/
theorem steps_agree {s : State} {r r' : Request} (rest : List Request)
    (h : transaction s.params r = transaction s.params r') :
    ∃ t t' : State, step (s.loaded (r :: rest)) = .next t ∧ step (s.loaded (r' :: rest)) = .next t' ∧
      t.resp = t'.resp :=
  ⟨_, _, step_of_pending rfl, step_of_pending rfl, h⟩

/-! ### Bytes that are not presented -/

theorem input_of_samePresented {r r' : Request} (h : Spec.SamePresented r r') (hlen : r.inLen.toNat ≤ 64) {n : Nat}
    (hn : n ≤ r.inLen.toNat) : r.input n = r'.input n := by
  obtain ⟨-, -, -, -, -, hin, -⟩ := h
  refine Memory.readBytes_congr fun k hk => ?_
  rw [Nat.zero_add]
  exact hin hlen k (by omega)

theorem key_of_samePresented {r r' : Request} (h : Spec.SamePresented r r') : r.key = r'.key := by
  obtain ⟨-, -, -, hlen, -, -, hkey⟩ := h
  have hbytes : r.keyData.readBytes 0 (min r.keyLen.toNat 32) = r'.keyData.readBytes 0 (min r.keyLen.toNat 32) :=
    Memory.readBytes_congr fun k hk => by rw [Nat.zero_add]; exact hkey k hk
  rw [Request.key_eq, Request.key_eq, hbytes, hlen]

/-- A line longer than the buffer is refused unread; of any other the presented bytes are the whole line (R71, R38). -/
theorem classified_of_samePresented {r r' : Request} (h : Spec.SamePresented r r') : r.classified = r'.classified := by
  have ⟨_, hkind, hinLen, _⟩ := h
  unfold Request.classified
  rw [← hkind, ← hinLen]
  cases r.inKind with
  | binary => rfl
  | text =>
    by_cases hlen : r.inLen.toNat ≤ 64
    · simp only [input_of_samePresented h hlen (min_le_left _ _)]
    · have hlong : r.inLen.toNat > Config.inBufBytes := by simpa [Config.inBufBytes] using hlen
      simp only [classifyTxt, if_pos hlong]

theorem decodeClass_of_samePresented {prm : Params} {r r' : Request} {c : PacketClass} (h : Spec.SamePresented r r')
    (hc : r.classified = .ok c) : decodeClass prm r c = decodeClass prm r' c := by
  have hframe : r.input (frameLength c) = r'.input (frameLength c) :=
    input_of_samePresented h (inLen_le_of_classified hc) ((frameLength_le_inSize hc).trans r.inSize_le.1)
  cases c with
  | plaintextShort => exact congrArg (fun f => Except.ok (decPlainShort f)) hframe
  | plaintextExtended => exact congrArg (fun f => Except.ok (decPlainExt f)) hframe
  | encryptedBinary => exact congrArg₂ (decEncBin prm) (key_of_samePresented h) hframe
  | encryptedText a b blob => exact congrArg (decEncText a b blob) (key_of_samePresented h)

/-- Settles O12: classification, the decoder and the leaf operations read presented bytes only. -/
theorem unpresentedBytesNeverMatter : Obligations.UnpresentedBytesNeverMatter := by
  unfold Obligations.UnpresentedBytesNeverMatter
  intro s r r' rest h
  have ⟨hop, _, hlen, _, harg, _⟩ := h
  exact steps_agree rest <| transaction_congr hop hlen harg (classified_of_samePresented h)
    (fun c _ hc => decodeClass_of_samePresented h hc) (fun hle => input_of_samePresented h hle le_rfl)

/-! ### The key -/

theorem input_of_sameButKey {r r' : Request} (h : Spec.SameButKey r r') (n : Nat) : r.input n = r'.input n := by
  obtain ⟨-, -, -, hdata, -⟩ := h
  rw [Request.input, Request.input, hdata]

theorem classified_of_sameButKey {r r' : Request} (h : Spec.SameButKey r r') : r.classified = r'.classified := by
  have ⟨_, hkind, hlen, _⟩ := h
  simp only [Request.classified, hkind, hlen, input_of_sameButKey h]

/-- Settles O13: of all that a transaction looks at, only the decoders of the encrypted classes take the key. -/
theorem keyIsIgnoredOutsideTheEncryptedVariants : Obligations.KeyIsIgnoredOutsideTheEncryptedVariants := by
  unfold Obligations.KeyIsIgnoredOutsideTheEncryptedVariants
  intro s r r' rest h hplain
  have ⟨hop, _, hlen, _, harg⟩ := h
  refine steps_agree rest <| transaction_congr hop hlen harg (classified_of_sameButKey h) ?_
    fun _ => input_of_sameButKey h _
  intro c hop0 hc
  rcases hplain with hop1 | ⟨e, he⟩ | hshort | hext
  · exact absurd hop0 hop1
  · cases he.symm.trans hc
  · cases hshort.symm.trans hc
    simp only [decodeClass, input_of_sameButKey h]
  · cases hext.symm.trans hc
    simp only [decodeClass, input_of_sameButKey h]

end Sys2Proof.Proofs
end

section
/-! What the fields of a record stand for (R20): volts and degrees as exact rationals. -/

namespace Sys2Proof.Proofs

open Machine

/-! ### Volts -/

theorem batteryVolts_of_voltDec {rec : Record} {n : Nibble} (h : rec.batteryMv = voltDec n) :
    batteryVolts rec = ((n.toNat : Rat) + 27) / 10 := by
  rw [batteryVolts, h, voltDec_toNat]
  push_cast
  ring

theorem loNibble_toNat (c : Byte) : (loNibble c).toNat = c.toNat % 16 := by
  rw [loNibble_eq, BitVec.toNat_ofNat]
  omega

theorem hiNibble_toNat (c : Byte) : (hiNibble c).toNat = c.toNat / 16 := by
  have hc := c.isLt
  rw [hiNibble_eq, BitVec.toNat_ofNat]
  omega

/-- The voltage nibble of the inner combined byte (R58, R126). -/
theorem unpackInner_volt_toNat (prm : Params) (c : Byte) :
    (unpackInner prm c).2.toNat = if prm.innerVoltNibble = .low then c.toNat % 16 else c.toNat / 16 := by
  unfold unpackInner
  cases prm.innerVoltNibble with
  | low => exact loNibble_toNat c
  | high => exact hiNibble_toNat c

/-! ### Degrees -/

theorem geoDec_eq_geoValue (b0 b1 b2 : Byte) : geoDec b0 b1 b2 = Spec.geoValue b0 b1 b2 := geoDec_eq b0 b1 b2

theorem geoDec_bounds (b0 b1 b2 : Byte) : -8388608 ≤ geoDec b0 b1 b2 ∧ geoDec b0 b1 b2 ≤ 8388607 := by
  have h0 := b0.isLt
  have h1 := b1.isLt
  have h2 := b2.isLt
  rw [geoDec_eq]
  split <;> omega

theorem signedReading_eq_toInt (v : Word32) : signedReading v = v.toInt := by
  rw [signedReading, BitVec.toInt_eq_msb_cond]
  rfl

/-- The port form of a geo integer reads back as the integer (R44, R85). -/
theorem signedReading_geoBits32 {e4 : Int} (h : -8388608 ≤ e4 ∧ e4 ≤ 8388607) :
    signedReading (geoBits32 e4) = e4 := by
  rw [signedReading_eq_toInt, geoBits32]
  exact BitVec.toInt_ofInt_eq_self (by decide) (by omega) (by omega)

/-- A coordinate of three bytes stands for their signed number divided by 10000 (R20, R85). -/
theorem coordReading_geoField (f : Bytes) (off : Nat) :
    coordReading .fixedE4 (geoField f off) =
      .rational ((Spec.geoValue (byteAt f off) (byteAt f (off + 1)) (byteAt f (off + 2)) : Rat) / 10000) := by
  rw [coordReading, geoField, signedReading_geoBits32 (geoDec_bounds _ _ _), geoDec_eq_geoValue]
  rfl

/-- A coordinate of the first fifteen bytes of a longer frame (R53). -/
theorem geoField_slice {f : Bytes} {n off : Nat} (h : off + 2 < n) : geoField (slice f 0 n) off = geoField f off := by
  simp only [geoField, byteAt_slice (show off < n by omega), byteAt_slice (show off + 1 < n by omega), byteAt_slice h,
    Nat.zero_add]

/-! ### The records -/

theorem batteryVolts_plain {f : Bytes} {rec : Record} (h : rec.batteryMv = voltDec (loNibble (byteAt f 8))) :
    batteryVolts rec = (((byteAt f 8).toNat % 16 : Nat) + 27) / 10 := by
  rw [batteryVolts_of_voltDec h, loNibble_toNat]

theorem decPlainShort_readings (f : Bytes) :
    batteryVolts (decPlainShort f) = (((byteAt f 8).toNat % 16 : Nat) + 27) / 10 ∧
      latitude (decPlainShort f) =
        .rational ((Spec.geoValue (byteAt f 9) (byteAt f 10) (byteAt f 11) : Rat) / 10000) ∧
      longitude (decPlainShort f) =
        .rational ((Spec.geoValue (byteAt f 12) (byteAt f 13) (byteAt f 14) : Rat) / 10000) :=
  ⟨batteryVolts_plain rfl, coordReading_geoField f 9, coordReading_geoField f 12⟩

/-- The battery and the coordinates of an extended frame are those of its first fifteen bytes, which hold what a short
frame holds (R53, R114). -/
theorem decPlainExt_fields (f : Bytes) :
    batteryVolts (decPlainExt f) = batteryVolts (decPlainShort f) ∧
      latitude (decPlainExt f) = latitude (decPlainShort f) ∧
      longitude (decPlainExt f) = longitude (decPlainShort f) := by
  have hbattery : byteAt (slice f 0 Config.lenPS) 8 = byteAt f 8 := byteAt_slice (by decide)
  have hlat : geoField (slice f 0 Config.lenPS) 9 = geoField f 9 := geoField_slice (by decide)
  have hlon : geoField (slice f 0 Config.lenPS) 12 = geoField f 12 := geoField_slice (by decide)
  simp only [batteryVolts, latitude, longitude, decPlainExt, decPlainShort, hbattery, hlat, hlon, and_self]

theorem encBinRecord_readings (prm : Params) (f p : Bytes) :
    batteryVolts (Machine.encBinRecord prm f p) =
        (((if prm.innerVoltNibble = .low then (byteAt p 0).toNat % 16 else (byteAt p 0).toNat / 16 : Nat) : Rat)
          + 27) / 10 ∧
      latitude (Machine.encBinRecord prm f p) =
        .rational ((Spec.geoValue (byteAt p 1) (byteAt p 2) (byteAt p 3) : Rat) / 10000) ∧
      longitude (Machine.encBinRecord prm f p) =
        .rational ((Spec.geoValue (byteAt p 4) (byteAt p 5) (byteAt p 6) : Rat) / 10000) := by
  refine ⟨?_, coordReading_geoField p 1, coordReading_geoField p 4⟩
  rw [← unpackInner_volt_toNat]
  exact batteryVolts_of_voltDec rfl

/-- The binary32 patterns are passed through and the millivolts are raw (R155, R156). -/
theorem encTextRecord_readings (a b : Word32) {p : Bytes} (h : p.length = 16) :
    batteryVolts (Machine.encTextRecord a b p) = (((byteAt p 8).toNat + (byteAt p 9).toNat * 256 : Nat) : Rat) / 1000 ∧
      latitude (Machine.encTextRecord a b p) =
        f32Value (BitVec.ofNat 32 (Spec.leNumber (byteAt p 0) (byteAt p 1) (byteAt p 2) (byteAt p 3))) ∧
      longitude (Machine.encTextRecord a b p) =
        f32Value (BitVec.ofNat 32 (Spec.leNumber (byteAt p 4) (byteAt p 5) (byteAt p 6) (byteAt p 7))) := by
  have hmv : (le16 p 8).toNat = (byteAt p 8).toNat + (byteAt p 9).toNat * 256 := by
    have h8 := (byteAt p 8).isLt
    have h9 := (byteAt p 9).isLt
    have hfield : le16 p 8 = BitVec.ofNat 16 ((byteAt p 8).toNat + (byteAt p 9).toNat * 256) := le16_eq (by omega)
    rw [hfield, BitVec.toNat_ofNat]
    omega
  have hlat : le32 p 0 = _ := le32_eq (by omega)
  have hlon : le32 p 4 = _ := le32_eq (by omega)
  exact ⟨congrArg (fun n : Nat => (n : Rat) / 1000) hmv, congrArg f32Value hlat, congrArg f32Value hlon⟩

/-- Settles O58: the readings of the records of the four decoders. -/
theorem readingsOfTheRecords : Obligations.ReadingsOfTheRecords := by
  unfold Obligations.ReadingsOfTheRecords
  refine ⟨fun f => ?_, encBinRecord_readings, fun a b p h => encTextRecord_readings a b h⟩
  have hshort := decPlainShort_readings f
  obtain ⟨hbattery, hlat, hlon⟩ := decPlainExt_fields f
  refine List.forall_mem_cons.2 ⟨hshort, List.forall_mem_singleton.2 ?_⟩
  rw [hbattery, hlat, hlon]
  exact hshort

end Sys2Proof.Proofs
end

section
/-! The idle block: the step with nothing pending, and the state after reset (R24, R190). -/

namespace Sys2Proof.Proofs

open Machine

/-- Settles O10: nothing is taken, so the step is the idle one. -/
theorem idleStepDrivesThePortsToZero : Obligations.IdleStepDrivesThePortsToZero := by
  unfold Obligations.IdleStepDrivesThePortsToZero
  intro s h
  exact step_of_idle h

/-- Settles O16: the spaces after reset are empty, the ports are 0, and the lists are empty. -/
theorem resetMeetsTheInvariant : Obligations.ResetMeetsTheInvariant := by
  unfold Obligations.ResetMeetsTheInvariant
  have hreq : State.reset.req.wf = true := by
    rw [Request.wf, State.reset_inData_wf, State.reset_keyData_wf, Bool.and_self]
  refine inv_iff.2 ⟨hreq, ?_, rfl, ?_⟩
  · rw [State.reset_pending]; exact List.forall_mem_nil _
  · rw [State.reset_delivered]; exact List.forall_mem_nil _

/-- Settles O17: a space without a listed cell reads 00 at every offset; every other clause is a field of the state. -/
theorem resetLeavesAnIdleBlock : Obligations.ResetLeavesAnIdleBlock := by
  unfold Obligations.ResetLeavesAnIdleBlock
  have hread : ∀ (sp : Space) (a : Nat), (State.reset.req.space sp).read a = 0 := by
    intro sp a
    cases sp <;> rfl
  exact ⟨rfl, rfl, rfl, rfl, rfl, rfl, hread, rfl, rfl, rfl⟩

end Sys2Proof.Proofs
end

section
/-! MemRead: the bytes of a space, and only where the space holds them (R32). -/

namespace Sys2Proof.Proofs

open Machine

/-- Where R32's assertion fails, MemRead has no value. -/
theorem memRead_of_gt {r : Request} {sp : Space} {off n : Nat} (h : r.spaceSize sp < off + n) :
    memRead r sp off n = none := if_neg (Nat.not_le.2 h)

/-- Settles O20: within the space the read is the run of bytes at `off`; beyond it there is no value. -/
theorem memReadIsTheRunOfBytes : Obligations.MemReadIsTheRunOfBytes := by
  unfold Obligations.MemReadIsTheRunOfBytes
  intro r sp off n
  refine ⟨fun hle => ?_, memRead_of_gt⟩
  exact ⟨_, memRead_of_le hle, Memory.length_readBytes _ off n, fun _ hk => byteAt_readBytes hk⟩

end Sys2Proof.Proofs
end

section
/-! The selector word and the row it selects: the fields stand in their places, and whatever the decoder reads matches its
row of the opcode table (R50, spec/30_encoding.md section 4). -/

namespace Sys2Proof.Proofs

open Machine

/-- A selector word is made of the fields that are taken out of it (R50). -/
theorem selOf_fields (sel : Sel) :
    selOf (sel.extractLsb' 17 4) (if sel.getLsbD 16 then .text else .binary) (sel.extractLsb' 0 16) = sel := by
  have hbit : (kindBit (if sel.getLsbD 16 then .text else .binary)).getLsbD 0 = sel.getLsbD 16 := by
    cases sel.getLsbD 16 <;> rfl
  apply BitVec.eq_of_getLsbD_eq
  intro i hi
  simp only [selOf, BitVec.getLsbD_append, BitVec.getLsbD_extractLsb']
  rcases Nat.lt_trichotomy i 16 with h | rfl | h
  · simp [h]
  · simpa using hbit
  · have hlen : ¬ i < 16 := by omega
    have hkind : ¬ i - 16 < 1 := by omega
    have hop : i - 16 - 1 < 4 := by omega
    simp only [hlen, hkind, hop, if_false, decide_true, Bool.true_and]
    congr 1
    omega

/-- Of `op` 0, a transmission that classifies selects the row of its class (R50). -/
theorem decodeSel_of_class {kind : InKind} {len : BitVec 16} {line : Bytes} {c : PacketClass}
    (h : classifyBytes kind len.toNat line = .ok c) : decodeSel (selOf 0 kind len) line = .ok (rowOfClass c) := by
  rw [decodeSel_selOf, h]
  rfl

/-- Of `op` 0, any other selects the fall-through row (30_encoding.md section 4). -/
theorem decodeSel_of_no_class {kind : InKind} {len : BitVec 16} {line : Bytes} {e : ErrorKind}
    (h : classifyBytes kind len.toNat line = .error e) : decodeSel (selOf 0 kind len) line = .ok (.decode kind len) := by
  rw [decodeSel_selOf, h]
  rfl

/-- Every instruction's own selector word matches its row. -/
theorem rowMatch (i : Instr) : Laws.RowMatch.Statement i := by
  cases i with
  | decPlainShort => exact Laws.RowMatch.decPlainShort
  | decPlainExt => exact Laws.RowMatch.decPlainExt
  | decEncBin => exact Laws.RowMatch.decEncBin
  | decEncText a b blob => exact Laws.RowMatch.decEncText a b blob
  | decode kind len => exact Laws.RowMatch.decode kind len
  | classify kind len => exact Laws.RowMatch.classify kind len
  | geoDec kind len => exact Laws.RowMatch.geoDec kind len
  | geoEnc kind len => exact Laws.RowMatch.geoEnc kind len
  | voltDec kind len => exact Laws.RowMatch.voltDec kind len
  | voltEnc kind len => exact Laws.RowMatch.voltEnc kind len
  | csumSum kind len => exact Laws.RowMatch.csumSum kind len
  | csumVerify kind len => exact Laws.RowMatch.csumVerify kind len

theorem encodeSel_of_classifyBin {len : BitVec 16} {c : PacketClass} (h : classifyBin len.toNat = .ok c) :
    encodeSel (rowOfClass c) = selOf 0 .binary len := by
  have hlen : BitVec.ofNat 16 (frameLength c) = len := by
    rw [classifyBin_frameLength h, BitVec.ofNat_toNat, BitVec.setWidth_eq]
  subst hlen
  cases c with
  | plaintextShort | plaintextExtended | encryptedBinary => rfl
  | encryptedText a b blob => cases h

/-- A selector whose transmission classifies matches the row of the class: a binary one is the row's whole word, a text
one has any length (R50). -/
theorem matches_rowOfClass {kind : InKind} {len : BitVec 16} {line : Bytes} {c : PacketClass}
    (h : classifyBytes kind len.toNat line = .ok c) :
    selOf 0 kind len &&& (tableRow (rowOfClass c)).2 = (tableRow (rowOfClass c)).1 := by
  cases kind with
  | binary =>
    rw [← encodeSel_of_classifyBin h]
    exact rowMatch _
  | text =>
    have hzero : frameLength c = 0 := classifyTxt_frameLength h
    cases c with
    | plaintextShort | plaintextExtended | encryptedBinary => cases hzero
    | encryptedText a b blob => exact Laws.selOf_and_kind 0 .text len

/-- What row selection answers: of `op` 0 the row of the class, else an instruction of exactly this selector word. -/
theorem decodeSel_ok {op : BitVec 4} {kind : InKind} {len : BitVec 16} {line : Bytes} {i : Instr}
    (h : decodeSel (selOf op kind len) line = .ok i) :
    (op = 0 ∧ ∃ c, classifyBytes kind len.toNat line = .ok c ∧ i = rowOfClass c) ∨ encodeSel i = selOf op kind len := by
  rw [decodeSel_selOf] at h
  match hop : op.toNat with
  | 0 =>
    obtain rfl := op_eq_zero hop
    rw [hop] at h
    cases hc : classifyBytes kind len.toNat line with
    | ok c => rw [hc] at h; cases h; exact .inl ⟨rfl, c, rfl, rfl⟩
    | error e => rw [hc] at h; cases h; exact .inr rfl
  | 1 | 2 | 3 | 4 | 5 | 6 | 7 =>
    rw [hop] at h
    cases h
    exact .inr (congrArg (selOf · kind len) (BitVec.eq_of_toNat_eq hop.symm))
  | n + 8 => rw [hop] at h; cases h

theorem decodeSel_matches_tableRow {op : BitVec 4} {kind : InKind} {len : BitVec 16} {line : Bytes} {i : Instr}
    (h : decodeSel (selOf op kind len) line = .ok i) : selOf op kind len &&& (tableRow i).2 = (tableRow i).1 := by
  rcases decodeSel_ok h with ⟨rfl, c, hc, rfl⟩ | hsel
  · exact matches_rowOfClass hc
  · rw [← hsel]
    exact rowMatch i

/-- What the decoder answers, it has selected by a number that fits the selector (log 7). -/
theorem decode_ok {bytes : Bytes} {i : Instr} (h : decode bytes = .ok i) :
    le (slice bytes 0 3) < 2 ^ 21 ∧ ∃ line, decodeSel (BitVec.ofNat 21 (le (slice bytes 0 3))) line = .ok i := by
  unfold decode at h
  dsimp only at h
  split at h
  next hlt => exact ⟨hlt, _, h⟩
  next => cases h

/-- Settles O3: the selector word is made of its fields, and row selection on them answers a matching row. -/
theorem decodedInstructionMatchesItsTableRow : Obligations.DecodedInstructionMatchesItsTableRow := by
  unfold Obligations.DecodedInstructionMatchesItsTableRow
  intro bytes i h
  obtain ⟨hlt, line, hsel⟩ := decode_ok h
  rw [← selOf_fields (BitVec.ofNat 21 _)] at hsel ⊢
  exact ⟨hlt, decodeSel_matches_tableRow hsel⟩

/-- Settles O4: each word is run through the decoder. -/
theorem sampleWordsDecode : Obligations.SampleWordsDecode := by
  unfold Obligations.SampleWordsDecode
  exact ⟨rfl, rfl, rfl, rfl, rfl⟩

/-- Settles O5: the selector is put together from the three fields, and each is taken out as it went in. -/
theorem selectorWordHoldsItsFields : Obligations.SelectorWordHoldsItsFields := by
  unfold Obligations.SelectorWordHoldsItsFields
  intro r
  refine ⟨selOf_op _ _ _, ?_, selOf_len _ _ _, le_selBytes _ _⟩
  rw [sel_eq_selOf, selOf_kind, beq_iff_eq]

end Sys2Proof.Proofs
end

section
/-! Requests that end in an error before any decoder runs: reserved and malformed ones (R66), and those the fall-through
row takes (R73, log 14). -/

namespace Sys2Proof.Proofs

open Machine

/-- A reserved `op` or a leaf request of a malformed length is refused by the transaction (R66). -/
theorem transaction_of_illegal (prm : Params) {r : Request}
    (h : 8 ≤ r.op.toNat ∨ (r.op = 2 ∧ r.inLen ≠ 3) ∨ (r.op = 6 ∧ 64 < r.inLen.toNat) ∨ (r.op = 7 ∧ r.inLen ≠ 16)) :
    transaction prm r = failedResponse .illegalRequest none := by
  unfold transaction
  rcases h with hop | ⟨hop, hlen⟩ | ⟨hop, hlen⟩ | ⟨hop, hlen⟩
  · obtain ⟨n, hn⟩ := Nat.exists_eq_add_of_le' hop
    rw [hn]
    rfl
  · rw [hop]
    exact if_neg fun h => hlen (BitVec.eq_of_toNat_eq h)
  · rw [hop]
    exact if_neg (Nat.not_le.2 hlen)
  · rw [hop]
    exact if_neg fun h => hlen (BitVec.eq_of_toNat_eq h)

/-- Settles O14: the step delivers the transaction of an illegal request. -/
theorem reservedAndMalformedRequestsAreIllegal : Obligations.ReservedAndMalformedRequestsAreIllegal := by
  unfold Obligations.ReservedAndMalformedRequestsAreIllegal
  intro s r rest hp hillegal
  rw [step_of_pending hp, transaction_of_illegal _ hillegal]
  rfl

/-- The decoder gives the fall-through row only to a DECODE that has no class (30_encoding.md section 4). -/
theorem decode_fetchBytes_eq_decode {r : Request} {kind : InKind} {len : BitVec 16}
    (h : decode (fetchBytes r) = .ok (.decode kind len)) :
    r.op = 0 ∧ r.inKind = kind ∧ ∃ e, r.classified = .error e := by
  rw [decode_fetchBytes, decodeSel_selOf, classifyBytes_presented] at h
  match hop : r.op.toNat with
  | 0 =>
    rw [hop] at h
    cases hc : r.classified with
    | ok c => rw [hc] at h; cases c <;> cases h
    | error e => rw [hc] at h; cases h; exact ⟨op_eq_zero hop, rfl, e, rfl⟩
  | 1 | 2 | 3 | 4 | 5 | 6 | 7 | n + 8 => rw [hop] at h; cases h

theorem classifyBin_error {len : Nat} {e : ErrorKind} (h : classifyBin len = .error e) : e = .unrecognizedLength := by
  unfold classifyBin at h
  split_ifs at h
  exact (Except.error.inj h).symm

theorem classifyTxt_error {len : Nat} {line : Bytes} {e : ErrorKind} (h : classifyTxt len line = .error e) :
    e = .unrecognizedLength ∨ e = .base64Invalid := by
  unfold classifyTxt at h
  split_ifs at h
  · exact .inl (Except.error.inj h).symm
  · exact .inl (Except.error.inj h).symm
  · dsimp only at h
    split at h
    · split at h <;> cases h
      exact .inr rfl
    · exact .inl (Except.error.inj h).symm

/-- The errors of classification (R74). -/
theorem classified_error {r : Request} {e : ErrorKind} (h : r.classified = .error e) :
    e = .unrecognizedLength ∨ (r.inKind = .text ∧ e = .base64Invalid) := by
  unfold Request.classified at h
  split at h
  · exact .inl (classifyBin_error h)
  next hkind =>
    exact (classifyTxt_error h).imp_right fun he => ⟨hkind, he⟩

/-- Settles O32: DECODE of a request without a class takes the error of the classification. -/
theorem fallThroughRowFailsInClassification : Obligations.FallThroughRowFailsInClassification := by
  unfold Obligations.FallThroughRowFailsInClassification
  intro s r rest kind len hp hdecode
  obtain ⟨hop, rfl, e, hclass⟩ := decode_fetchBytes_eq_decode hdecode
  have hresp : transaction s.params r = failedResponse e none := by
    rw [transaction, hop]
    exact decodeTransaction_of_error _ hclass
  rw [step_of_pending hp, hresp]
  rcases classified_error hclass with rfl | ⟨hkind, rfl⟩
  · exact .inl rfl
  · exact .inr ⟨hkind, rfl⟩

end Sys2Proof.Proofs
end

section
/-! The primitives on a text line against the grammar of R56: DecU32 accepts exactly the identifiers (R152) and B64Dec16
exactly the blobs (R153), each with its value; the encoder's digits and characters are of the grammar. -/

namespace Sys2Proof.Proofs

open Machine

/-! ### Numbers and their digits -/

/-- The digits of a number to the base `B`, most significant first, give the number back. -/
theorem foldl_digits (B x n : Nat) :
    (List.range n).foldl (fun acc k => acc * B + x / B ^ (n - 1 - k) % B) 0 = x % B ^ n := by
  induction n generalizing x with
  | zero => simp [Nat.mod_one]
  | succ n ih =>
    have hstep : ∀ (acc : Nat), ∀ k ∈ List.range n,
        acc * B + x / B ^ (n + 1 - 1 - k) % B = acc * B + x / B / B ^ (n - 1 - k) % B := by
      intro acc k hk
      have hexp : n + 1 - 1 - k = n - 1 - k + 1 := by have := List.mem_range.1 hk; omega
      rw [Nat.div_div_eq_div_mul, ← Nat.pow_succ', hexp]
    rw [List.range_succ, List.foldl_append, List.foldl_ext _ _ _ hstep, ih (x / B), List.foldl_cons, List.foldl_nil,
      Nat.add_sub_cancel, Nat.sub_self, Nat.pow_zero, Nat.div_one, Nat.pow_succ', Nat.mod_mul, Nat.mul_comm,
      Nat.add_comm]

theorem length_blockOfNat (n : Nat) : (blockOfNat n).length = 16 := by
  rw [blockOfNat, List.length_map, List.length_range, Config.blobLen]

theorem be_blockOfNat (n : Nat) : be (blockOfNat n) = n % 2 ^ 128 := by
  have h := foldl_digits 256 n 16
  simp only [be, blockOfNat, List.foldl_map, BitVec.toNat_ofNat, Nat.shiftRight_eq_div_pow, pow_mul]
  exact h

theorem be_concat (b : Bytes) (c : Byte) : be (b ++ [c]) = be b * 256 + c.toNat := by
  rw [be, List.foldl_append]
  rfl

theorem be_lt (b : Bytes) : be b < 256 ^ b.length := by
  induction b using List.reverseRecOn with
  | nil => decide
  | append_singleton b c ih =>
    have hc := c.isLt
    rw [be_concat, List.length_append, List.length_singleton, Nat.pow_succ]
    omega

/-- Two sequences of one length with the same big-endian number are the same. -/
theorem be_inj {b b' : Bytes} (hlen : b.length = b'.length) (h : be b = be b') : b = b' := by
  induction b using List.reverseRecOn generalizing b' with
  | nil => exact (List.length_eq_zero_iff.1 hlen.symm).symm
  | append_singleton b c ih =>
    induction b' using List.reverseRecOn with
    | nil => simp at hlen
    | append_singleton b' c' =>
      have hc := c.isLt
      have hc' := c'.isLt
      rw [be_concat, be_concat] at h
      have hlast : c = c' := BitVec.eq_of_toNat_eq (by omega)
      rw [ih (by simpa using hlen) (by omega), hlast]

/-! ### Identifiers (R152) -/

theorem digitVal_eq_some_iff {c : Byte} {d : Nat} :
    digitVal c = some d ↔ (0x30 ≤ c.toNat ∧ c.toNat ≤ 0x39) ∧ c.toNat - 0x30 = d := by
  simp [digitVal]

theorem decDigits_cons (v : Nat) (c : Byte) (f : Bytes) :
    decDigits v (c :: f) = (digitVal c).bind fun d => decDigits (v * 10 + d) f := by
  rw [decDigits]
  cases digitVal c <;> rfl

theorem decDigits_eq_some_iff {v n : Nat} {f : Bytes} :
    decDigits v f = some n ↔
      (∀ c ∈ f, 0x30 ≤ c.toNat ∧ c.toNat ≤ 0x39) ∧ f.foldl (fun v c => v * 10 + (c.toNat - 0x30)) v = n := by
  induction f generalizing v with
  | nil => simp [decDigits]
  | cons c f ih => simp [decDigits_cons, Option.bind_eq_some_iff, digitVal_eq_some_iff, ih, and_assoc]

/-- An identifier is accepted exactly by the grammar, and its value is the decimal one (R56, R152). -/
theorem decU32_eq_some_iff {f : Bytes} {v : Word32} :
    decU32 f = some v ↔ Spec.IsId f ∧ v.toNat = Spec.decimalValue f := by
  constructor
  · intro h
    unfold decU32 at h
    split_ifs at h with hlen
    split at h
    · cases h
    next n hn =>
      obtain ⟨hdigit, hvalue : Spec.decimalValue f = n⟩ := decDigits_eq_some_iff.1 hn
      split_ifs at h with hmax
      cases h
      exact ⟨⟨by omega, not_lt.1 fun hlong => hlen (.inr hlong), hdigit, by omega⟩, by rw [BitVec.toNat_ofNat]; omega⟩
  · rintro ⟨⟨hmin, hlong, hdigit, hmax⟩, hv⟩
    have hn : decDigits 0 f = some v.toNat := decDigits_eq_some_iff.2 ⟨hdigit, hv.symm⟩
    have hlen : ¬(f.length < 1 ∨ f.length > Config.idMaxDigits) := by
      rintro (h | h)
      · omega
      · exact absurd hlong (not_le.2 h)
    rw [decU32, if_neg hlen, hn]
    dsimp only
    rw [if_neg (by omega), BitVec.ofNat_toNat, BitVec.setWidth_eq]

theorem comma_notMem_of_isId {f : Bytes} (h : Spec.IsId f) : commaByte ∉ f := by
  obtain ⟨-, -, hdigit, -⟩ := h
  intro hmem
  exact absurd (hdigit _ hmem) (by decide)

theorem length_decimalDigits_le (n v : Nat) : (decimalDigits n v).length ≤ n := by
  induction n generalizing v with
  | zero => exact le_rfl
  | succ n ih =>
    have := ih (v / 10)
    rw [decimalDigits, List.length_append, List.length_singleton]
    split
    · simp
    · omega

theorem digits_of_decimalDigits (n v : Nat) : ∀ c ∈ decimalDigits n v, 0x30 ≤ c.toNat ∧ c.toNat ≤ 0x39 := by
  induction n generalizing v with
  | zero => exact List.forall_mem_nil _
  | succ n ih =>
    rw [decimalDigits, List.forall_mem_append, List.forall_mem_singleton]
    refine ⟨?_, by rw [BitVec.toNat_ofNat]; omega⟩
    split
    · exact List.forall_mem_nil _
    · exact ih _

theorem decimalValue_concat (f : Bytes) (c : Byte) :
    Spec.decimalValue (f ++ [c]) = Spec.decimalValue f * 10 + (c.toNat - 0x30) := by
  rw [Spec.decimalValue, List.foldl_append]
  rfl

theorem decimalValue_decimalDigits {n v : Nat} (h : v < 10 ^ n) : Spec.decimalValue (decimalDigits n v) = v := by
  induction n generalizing v with
  | zero => simp at h; subst h; rfl
  | succ n ih =>
    have hlast : (BitVec.ofNat 8 (0x30 + v % 10)).toNat - 0x30 = v % 10 := by rw [BitVec.toNat_ofNat]; omega
    rw [decimalDigits, decimalValue_concat, hlast]
    split
    · simp [Spec.decimalValue]; omega
    · rw [ih (by omega)]; omega

/-- The canonical digits of a 32-bit word are an identifier of the grammar (R56). -/
theorem isId_decimalDigits (v : Word32) : Spec.IsId (decimalDigits 10 v.toNat) := by
  have hv := v.isLt
  refine ⟨?_, length_decimalDigits_le _ _, digits_of_decimalDigits _ _, ?_⟩
  · rw [decimalDigits, List.length_append, List.length_singleton]; omega
  · rw [decimalValue_decimalDigits (by omega)]; omega

/-! ### The blob (R153) -/

theorem b64Value_lt (c : Byte) : Spec.b64Value c < 64 := by
  unfold Spec.b64Value
  split_ifs <;> omega

theorem b64Val_eq_some_iff {c : Byte} {d : Nat} :
    b64Val c = some d ↔ Spec.IsB64Char c ∧ Spec.b64Value c = d := by
  unfold b64Val Spec.IsB64Char Spec.b64Value
  dsimp only
  split_ifs <;> simp [*]

theorem b64Acc_cons (acc : Nat) (c : Byte) (f : Bytes) :
    b64Acc acc (c :: f) = (b64Val c).bind fun d => b64Acc ((acc <<< 6) ||| d) f := by
  rw [b64Acc]
  cases b64Val c <;> rfl

theorem b64Acc_eq_some_iff {acc n : Nat} {f : Bytes} :
    b64Acc acc f = some n ↔
      (∀ c ∈ f, Spec.IsB64Char c) ∧ f.foldl (fun acc c => acc * 64 + Spec.b64Value c) acc = n := by
  have hshift : ∀ (a : Nat) (c : Byte), (a <<< 6) ||| Spec.b64Value c = a * 64 + Spec.b64Value c :=
    fun a c => shiftLeft_or_eq (n := 6) (b64Value_lt c)
  induction f generalizing acc with
  | nil => simp [b64Acc]
  | cons c f ih => simp [b64Acc_cons, Option.bind_eq_some_iff, b64Val_eq_some_iff, ih, hshift, and_assoc]

/-- The encoder's characters are those of the alphabet, with their values (R153). -/
theorem b64Char_value {v : Nat} (h : v < 64) : Spec.IsB64Char (b64Char v) ∧ Spec.b64Value (b64Char v) = v := by
  revert v
  unfold Spec.IsB64Char
  decide

/-- The number of a run of base64 characters, six bits each, most significant first (R153). -/
def b64Number (g : Bytes) : Nat := g.foldl (fun acc c => acc * 64 + Spec.b64Value c) 0

theorem b64Number_lt (g : Bytes) : b64Number g < 64 ^ g.length := by
  induction g using List.reverseRecOn with
  | nil => decide
  | append_singleton g c ih =>
    have hc := b64Value_lt c
    have hstep : b64Number (g ++ [c]) = b64Number g * 64 + Spec.b64Value c := by
      rw [b64Number, List.foldl_append]
      rfl
    rw [hstep, List.length_append, List.length_singleton, Nat.pow_succ]
    omega

/-- The blob of the grammar by its offsets: 24 bytes, the padding at 22 and 23, the alphabet before it (R56, R153). -/
theorem isBlob_iff {f : Bytes} :
    Spec.IsBlob f ↔ f.length = 24 ∧ byteAt f 22 = padByte ∧ byteAt f 23 = padByte ∧
      ∀ c ∈ f.take 22, Spec.IsB64Char c := by
  constructor
  · rintro ⟨g, rfl, hg, halphabet⟩
    refine ⟨by simp [hg], ?_, ?_, ?_⟩
    · simp [byteAt, padByte, List.getD_eq_getElem?_getD, hg]
    · simp [byteAt, padByte, List.getD_eq_getElem?_getD, hg]
    · rwa [List.take_left' hg]
  · rintro ⟨hlen, h22, h23, halphabet⟩
    have hpad : f.drop 22 = [0x3D, 0x3D] := by
      have hslice : slice f 22 2 = f.drop 22 := List.take_of_length_le (by simp [hlen])
      rw [← hslice, slice_eq_map (by omega)]
      simp [List.range_succ, h22, h23, padByte]
    refine ⟨f.take 22, ?_, by simp [hlen], halphabet⟩
    rw [← hpad, List.take_append_drop]

theorem length_of_isBlob {f : Bytes} (h : Spec.IsBlob f) : f.length = 24 := (isBlob_iff.1 h).1

theorem comma_notMem_of_isBlob {f : Bytes} (h : Spec.IsBlob f) : commaByte ∉ f := by
  obtain ⟨g, rfl, -, halphabet⟩ := h
  intro hmem
  rcases List.mem_append.1 hmem with hmem | hmem
  · exact absurd (halphabet _ hmem) (by unfold Spec.IsB64Char; decide)
  · exact absurd hmem (by decide)

theorem b64Dec16_of_isBlob {f : Bytes} (h : Spec.IsBlob f) :
    b64Dec16 f = some (blockOfNat (b64Number (f.take 22) / 16)) := by
  obtain ⟨hlen, h22, h23, halphabet⟩ := isBlob_iff.1 h
  have hacc : b64Acc 0 (slice f 0 22) = some (b64Number (f.take 22)) := b64Acc_eq_some_iff.2 ⟨halphabet, rfl⟩
  have hpad : ¬(byteAt f 22 ≠ padByte ∨ byteAt f 23 ≠ padByte) := by simp [h22, h23]
  have hlen' : ¬ f.length ≠ Config.b64Len := not_not.2 hlen
  rw [b64Dec16, if_neg hlen', if_neg hpad, hacc]
  dsimp only
  rw [Nat.shiftRight_eq_div_pow]

theorem isBlob_of_b64Dec16 {f blob : Bytes} (h : b64Dec16 f = some blob) : Spec.IsBlob f := by
  unfold b64Dec16 at h
  split_ifs at h with hlen hpad
  split at h
  · cases h
  next n hn =>
    obtain ⟨h22, h23⟩ := not_or.1 hpad
    exact isBlob_iff.2 ⟨not_not.1 hlen, not_not.1 h22, not_not.1 h23, (b64Acc_eq_some_iff.1 hn).1⟩

/-- A blob is accepted exactly by the grammar, and its bytes are the first 128 of the 132 bits (R56, R153). -/
theorem b64Dec16_eq_some_iff {f blob : Bytes} :
    b64Dec16 f = some blob ↔ Spec.IsBlob f ∧ blob.length = 16 ∧ be blob = b64Number (f.take 22) / 16 := by
  have hbe : be (blockOfNat (b64Number (f.take 22) / 16)) = b64Number (f.take 22) / 16 := by
    have hlt := b64Number_lt (f.take 22)
    have hpow : 64 ^ (f.take 22).length ≤ 64 ^ 22 := Nat.pow_le_pow_right (by decide) (List.length_take_le _ _)
    rw [be_blockOfNat]
    omega
  constructor
  · intro h
    have hblob := isBlob_of_b64Dec16 h
    rw [b64Dec16_of_isBlob hblob] at h
    cases h
    exact ⟨hblob, length_blockOfNat _, hbe⟩
  · rintro ⟨hblob, hlen, hvalue⟩
    rw [b64Dec16_of_isBlob hblob, be_inj (hlen.trans (length_blockOfNat _).symm) (hvalue.trans hbe.symm)]

/-- What the encoder writes for a blob is of the grammar. -/
theorem isBlob_b64Enc16 (blob : Bytes) : Spec.IsBlob (b64Enc16 blob) := by
  refine ⟨_, rfl, by rw [List.length_map, List.length_range], ?_⟩
  intro c hc
  obtain ⟨k, -, rfl⟩ := List.mem_map.1 hc
  exact (b64Char_value (Nat.mod_lt _ (by decide))).1

/-- The encoder's 22 characters are the 128 bits of the blob and four zero bits (R153; log 13). -/
theorem b64Number_b64Enc16 {blob : Bytes} (h : blob.length = 16) :
    b64Number ((b64Enc16 blob).take 22) = be blob * 16 := by
  have hlt := be_lt blob
  have hdigits := foldl_digits 64 (be blob * 16) 22
  have htake : (b64Enc16 blob).take 22 =
      (List.range 22).map fun k => b64Char (be blob <<< 4 >>> (6 * (21 - k)) % 64) :=
    List.take_left' (by rw [List.length_map, List.length_range])
  have hvalue : ∀ v, Spec.b64Value (b64Char (v % 64)) = v % 64 := fun v => (b64Char_value (Nat.mod_lt _ (by decide))).2
  simp only [htake, b64Number, List.foldl_map, hvalue, Nat.shiftLeft_eq, Nat.shiftRight_eq_div_pow, pow_mul]
  rw [h] at hlt
  rw [Nat.mod_eq_of_lt (by omega)] at hdigits
  exact hdigits

end Sys2Proof.Proofs
end

section
/-! ClassifyTxt cuts a line at its two commas (R71), so it accepts exactly the lines of the grammar of R56. -/

namespace Sys2Proof.Proofs

open Machine

/-- A line cut at its two commas: three parts that hold no comma (R71 step 3). -/
def CutAtCommas (line d1 d2 f : Bytes) : Prop :=
  line = d1 ++ [commaByte] ++ d2 ++ [commaByte] ++ f ∧ commaByte ∉ d1 ∧ commaByte ∉ d2 ∧ commaByte ∉ f

theorem cutAtCommas_of_shape {line d1 d2 f : Bytes} (h : Spec.Shape line d1 d2 f) : CutAtCommas line d1 d2 f := by
  obtain ⟨hline, h1, h2, hf⟩ := h
  exact ⟨hline, comma_notMem_of_isId h1, comma_notMem_of_isId h2, hf⟩

/-- A line with exactly two commas can be cut at them. -/
theorem exists_cut_of_count {line : Bytes} (h : line.count commaByte = 2) : ∃ d1 d2 f, CutAtCommas line d1 d2 f := by
  obtain ⟨d1, rest, rfl, h1⟩ := List.eq_append_cons_of_mem (List.count_pos_iff.1 (by omega : 0 < line.count commaByte))
  rw [List.count_append, List.count_eq_zero_of_not_mem h1, List.count_cons_self] at h
  obtain ⟨d2, f, rfl, h2⟩ := List.eq_append_cons_of_mem (List.count_pos_iff.1 (by omega : 0 < rest.count commaByte))
  rw [List.count_append, List.count_eq_zero_of_not_mem h2, List.count_cons_self] at h
  exact ⟨d1, d2, f, by simp, h1, h2, List.count_eq_zero.1 (by omega)⟩

theorem count_of_cut {line d1 d2 f : Bytes} (h : CutAtCommas line d1 d2 f) : line.count commaByte = 2 := by
  obtain ⟨rfl, h1, h2, hf⟩ := h
  simp [List.count_append, List.count_eq_zero_of_not_mem h1, List.count_eq_zero_of_not_mem h2,
    List.count_eq_zero_of_not_mem hf]

/-- The first comma after a part without one stands right behind it. -/
theorem findIdx_comma {d : Bytes} (h : commaByte ∉ d) (rest : Bytes) :
    (d ++ commaByte :: rest).findIdx (· == commaByte) = d.length := by
  have hnone : d.findIdx (· == commaByte) = d.length := by
    rw [List.findIdx_eq_length]
    intro x hx
    exact beq_false_of_ne (ne_of_mem_of_not_mem hx h)
  rw [List.findIdx_append, hnone, if_neg (lt_irrefl _), List.findIdx_cons, beq_self_eq_true, cond_true, Nat.zero_add]

theorem firstComma_of_cut {line d1 d2 f : Bytes} (h : CutAtCommas line d1 d2 f) : firstComma line = d1.length := by
  obtain ⟨rfl, h1, -, -⟩ := h
  simpa [firstComma] using findIdx_comma h1 (d2 ++ [commaByte] ++ f)

theorem lastComma_of_cut {line d1 d2 f : Bytes} (h : CutAtCommas line d1 d2 f) :
    lastComma line = d1.length + 1 + d2.length := by
  obtain ⟨rfl, -, -, hf⟩ := h
  have hrev := findIdx_comma (d := f.reverse) (by simpa using hf) (d2.reverse ++ [commaByte] ++ d1.reverse)
  simp [lastComma] at hrev ⊢
  rw [hrev]
  omega

/-- A line of the grammar has 28 to 46 bytes (R56). -/
theorem length_of_shape {line d1 d2 f : Bytes} (h : Spec.Shape line d1 d2 f) (hf : Spec.IsBlob f) :
    28 ≤ line.length ∧ line.length ≤ 46 := by
  obtain ⟨rfl, ⟨hmin1, hmax1, -⟩, ⟨hmin2, hmax2, -⟩, -⟩ := h
  simp only [List.length_append, List.length_singleton, length_of_isBlob hf]
  omega

/-- What R71 makes of the three parts of a line, steps 4 to 6. -/
def classOfParts (d1 d2 f : Bytes) : Except ErrorKind PacketClass :=
  match decU32 d1, decU32 d2 with
  | some a, some b =>
    match b64Dec16 f with
    | some blob => .ok (.encryptedText a b blob)
    | none => .error .base64Invalid
  | _, _ => .error .unrecognizedLength

/-- ClassifyTxt on a line that is cut at its commas and fits the buffer (R71). -/
theorem classifyTxt_of_cut {line d1 d2 f : Bytes} {len : Nat} (hlen : len ≤ 64) (h : CutAtCommas line d1 d2 f) :
    classifyTxt len line = classOfParts d1 d2 f := by
  have hshort : ¬ len > Config.inBufBytes := not_lt.2 hlen
  have h1 : slice line 0 d1.length = d1 := by rw [h.1]; simp [slice]
  have h2 : slice line (d1.length + 1) (d1.length + 1 + d2.length - (d1.length + 1)) = d2 := by
    rw [h.1, Nat.add_sub_cancel_left, slice, List.append_assoc, List.append_assoc, List.drop_left' (by simp),
      List.take_left' rfl]
  have h3 : line.drop (d1.length + 1 + d2.length + 1) = f := by
    rw [h.1]
    exact List.drop_left' (by simp; omega)
  rw [classifyTxt, if_neg hshort, if_neg (not_not.2 (count_of_cut h)), firstComma_of_cut h, lastComma_of_cut h]
  dsimp only
  rw [h1, h2, h3]
  rfl

theorem classOfParts_eq_ok_iff {d1 d2 f : Bytes} {a b : Word32} {blob : Bytes} :
    classOfParts d1 d2 f = .ok (.encryptedText a b blob) ↔
      decU32 d1 = some a ∧ decU32 d2 = some b ∧ b64Dec16 f = some blob := by
  constructor
  · intro h
    unfold classOfParts at h
    split at h
    next ha hb =>
      split at h
      next hblob => cases h; exact ⟨ha, hb, hblob⟩
      next => cases h
    next => cases h
  · rintro ⟨ha, hb, hblob⟩
    rw [classOfParts, ha, hb, hblob]

/-- ClassifyTxt accepts exactly the lines of two identifiers and a blob, and carries their values (R56, R71). -/
theorem classifyTxt_eq_ok_iff {line : Bytes} {a b : Word32} {blob : Bytes} :
    classifyTxt line.length line = .ok (.encryptedText a b blob) ↔
      ∃ d1 d2 f : Bytes, Spec.Shape line d1 d2 f ∧ decU32 d1 = some a ∧ decU32 d2 = some b ∧
        b64Dec16 f = some blob := by
  constructor
  · intro h
    have hclass := h
    unfold classifyTxt at h
    split_ifs at h with hlen hcount
    obtain ⟨d1, d2, f, hcut⟩ := exists_cut_of_count (not_not.1 hcount)
    rw [classifyTxt_of_cut (not_lt.1 hlen) hcut, classOfParts_eq_ok_iff] at hclass
    obtain ⟨ha, hb, hblob⟩ := hclass
    have ⟨hline, _, _, hf⟩ := hcut
    exact ⟨d1, d2, f, ⟨hline, (decU32_eq_some_iff.1 ha).1, (decU32_eq_some_iff.1 hb).1, hf⟩, ha, hb, hblob⟩
  · rintro ⟨d1, d2, f, hshape, ha, hb, hblob⟩
    have hlen := length_of_shape hshape (isBlob_of_b64Dec16 hblob)
    rw [classifyTxt_of_cut (by omega) (cutAtCommas_of_shape hshape), classOfParts_eq_ok_iff]
    exact ⟨ha, hb, hblob⟩

theorem isId_replicate_zero {n : Nat} (hmin : 1 ≤ n) (hmax : n ≤ 10) : Spec.IsId (List.replicate n 0x30) := by
  have hzero : ∀ n, Spec.decimalValue (List.replicate n 0x30) = 0 := by
    intro n
    induction n with
    | zero => rfl
    | succ n ih => rw [List.replicate_succ', decimalValue_concat, ih]; rfl
  refine ⟨by simpa using hmin, by simpa using hmax, ?_, by rw [hzero]; omega⟩
  intro c hc
  rw [List.eq_of_mem_replicate hc]
  decide

theorem shape_of_parts {d1 d2 f : Bytes} (h1 : Spec.IsId d1) (h2 : Spec.IsId d2) (hf : Spec.IsBlob f) :
    Spec.Shape (d1 ++ [commaByte] ++ d2 ++ [commaByte] ++ f) d1 d2 f :=
  ⟨rfl, h1, h2, comma_notMem_of_isBlob hf⟩

/-- There is a line of two identifiers of `n` digits each. -/
theorem exists_line_of_length {n : Nat} (hmin : 1 ≤ n) (hmax : n ≤ 10) :
    ∃ line d1 d2 f : Bytes, Spec.Shape line d1 d2 f ∧ Spec.IsBlob f ∧ line.length = n + n + 26 := by
  have hid := isId_replicate_zero hmin hmax
  have hblob := isBlob_b64Enc16 []
  refine ⟨_, _, _, _, shape_of_parts hid hid hblob, hblob, ?_⟩
  simp [length_of_isBlob hblob]
  omega

/-- Settles O35: the parts ClassifyTxt cuts a line into are those of the grammar, and DecU32 and B64Dec16 accept exactly
the identifiers and the blobs. -/
theorem textGrammarIsAcceptedExactly : Obligations.TextGrammarIsAcceptedExactly := by
  unfold Obligations.TextGrammarIsAcceptedExactly
  refine ⟨?_, fun line d1 d2 f => length_of_shape, exists_line_of_length (n := 1) (by decide) (by decide),
    exists_line_of_length (n := 10) (by decide) (by decide)⟩
  intro line a b blob
  rw [classifyTxt_eq_ok_iff]
  refine exists_congr fun d1 => exists_congr fun d2 => exists_congr fun f => ?_
  rw [decU32_eq_some_iff, decU32_eq_some_iff, b64Dec16_eq_some_iff]
  constructor
  · rintro ⟨hshape, ⟨-, ha⟩, ⟨-, hb⟩, hblob, hlen, hvalue⟩
    exact ⟨hshape, hblob, ha, hb, hlen, hvalue⟩
  · rintro ⟨hshape, hblob, ha, hb, hlen, hvalue⟩
    have ⟨_, h1, h2, _⟩ := hshape
    exact ⟨hshape, ⟨h1, ha⟩, ⟨h2, hb⟩, hblob, hlen, hvalue⟩

end Sys2Proof.Proofs
end

section
/-! Decoding what the encoder writes: the canonical text line classifies, and the fall-through row is written so that
nothing does (R50, R56; log 13). -/

namespace Sys2Proof.Proofs

open Machine

theorem shape_encodeLine (a b : Word32) (blob : Bytes) :
    Spec.Shape (encodeLine a b blob) (decimalDigits 10 a.toNat) (decimalDigits 10 b.toNat) (b64Enc16 blob) :=
  shape_of_parts (isId_decimalDigits a) (isId_decimalDigits b) (isBlob_b64Enc16 blob)

theorem decU32_decimalDigits (v : Word32) : decU32 (decimalDigits 10 v.toNat) = some v := by
  have hv := v.isLt
  rw [decU32_eq_some_iff, decimalValue_decimalDigits (by omega)]
  exact ⟨isId_decimalDigits v, rfl⟩

theorem b64Dec16_b64Enc16 {blob : Bytes} (h : blob.length = 16) : b64Dec16 (b64Enc16 blob) = some blob := by
  rw [b64Dec16_eq_some_iff, b64Number_b64Enc16 h]
  exact ⟨isBlob_b64Enc16 blob, h, by omega⟩

theorem classifyTxt_encodeLine (a b : Word32) {blob : Bytes} (h : blob.length = 16) :
    classifyTxt (encodeLine a b blob).length (encodeLine a b blob) = .ok (.encryptedText a b blob) :=
  classifyTxt_eq_ok_iff.2
    ⟨_, _, _, shape_encodeLine a b blob, decU32_decimalDigits a, decU32_decimalDigits b, b64Dec16_b64Enc16 h⟩

theorem presentedLine_self (line : Bytes) : presentedLine line.length line = line := by
  apply List.ext_getElem
  · simp [presentedLine]
  · intro k _ hk
    simp [presentedLine, hk]

/-- The line's length fits `in_len` and the buffer, so the decoder sees the whole line, and it classifies. -/
theorem decode_encode_decEncText (a b : Word32) {blob : Bytes} (h : blob.length = 16) :
    decode (encode (.decEncText a b blob)) = .ok (.decEncText a b blob) := by
  obtain ⟨-, hbound⟩ := length_of_shape (shape_encodeLine a b blob) (isBlob_b64Enc16 blob)
  have hlen : (BitVec.ofNat 16 (encodeLine a b blob).length).toNat = (encodeLine a b blob).length := by
    rw [BitVec.toNat_ofNat]
    omega
  have hshort : ¬ (encodeLine a b blob).length > Config.inBufBytes := by rw [Config.inBufBytes]; omega
  have hreads : classifyReads .text (encodeLine a b blob).length = (encodeLine a b blob).length := if_neg hshort
  rw [encode, encodeSel, encodeIn, decode_selBytes, hlen, hreads, presentedLine_self]
  refine decodeSel_of_class (c := .encryptedText a b blob) ?_
  rw [hlen]
  exact classifyTxt_encodeLine a b h

theorem classifyBin_of_not_binaryLength {len : BitVec 16} (h : binaryLength len = false) :
    classifyBin len.toNat = .error .unrecognizedLength := by
  simp only [binaryLength, Bool.or_eq_false_iff, beq_eq_false_iff_ne] at h
  obtain ⟨⟨hPS, hPX⟩, hEB⟩ := h
  rw [classifyBin, if_neg hPS, if_neg hPX, if_neg hEB]

/-- A line of which nothing is presented holds no comma. -/
theorem classifyTxt_of_nothing_presented (len n : Nat) :
    classifyTxt len (presentedLine n []) = .error .unrecognizedLength := by
  have hline : presentedLine n [] = List.replicate n unlistedByte := by simp [presentedLine]
  have hcount : (presentedLine n []).count commaByte ≠ 2 := by
    rw [hline, List.count_eq_zero_of_not_mem fun hmem => absurd (List.eq_of_mem_replicate hmem) (by decide)]
    decide
  rw [classifyTxt, if_pos hcount, ite_self]

theorem wellFormed_decEncText_iff {a b : Word32} {blob : Bytes} :
    (Instr.decEncText a b blob).wellFormed = true ↔ blob.length = 16 := by
  simp [Instr.wellFormed, Instr.blobOk, Instr.fallThroughOk, Config.blobLen]

theorem wellFormed_decode_binary_iff {len : BitVec 16} :
    (Instr.decode .binary len).wellFormed = true ↔ binaryLength len = false := by
  simp [Instr.wellFormed, Instr.blobOk, Instr.fallThroughOk]

/-- The row DECODE comes back, because nothing it is written with classifies (30_encoding.md section 4; log 14). -/
theorem decode_encode_decode {kind : InKind} {len : BitVec 16} (h : Instr.wellFormed (.decode kind len) = true) :
    decode (encode (.decode kind len)) = .ok (.decode kind len) := by
  rw [encode, encodeSel, encodeIn, decode_selBytes]
  apply decodeSel_of_no_class (e := .unrecognizedLength)
  cases kind with
  | binary => exact classifyBin_of_not_binaryLength (wellFormed_decode_binary_iff.1 h)
  | text => exact classifyTxt_of_nothing_presented _ _

/-- Settles O1: a text line is classified as the encoder wrote it, the fall-through row has no class, and every other
row is selected by its fixed fields. -/
theorem decodeOfEncodeIsTheInstruction : Obligations.DecodeOfEncodeIsTheInstruction := by
  unfold Obligations.DecodeOfEncodeIsTheInstruction
  intro i hwf
  have hrest := fun op kind len => (decode_selBytes op kind len []).trans (decodeSel_selOf op kind len _)
  cases i with
  | decPlainShort => rfl
  | decPlainExt => rfl
  | decEncBin => rfl
  | decEncText a b blob =>
    exact decode_encode_decEncText a b (wellFormed_decEncText_iff.1 hwf)
  | decode kind len => exact decode_encode_decode hwf
  | classify kind len => exact hrest 1 kind len
  | geoDec kind len => exact hrest 2 kind len
  | geoEnc kind len => exact hrest 3 kind len
  | voltDec kind len => exact hrest 4 kind len
  | voltEnc kind len => exact hrest 5 kind len
  | csumSum kind len => exact hrest 6 kind len
  | csumVerify kind len => exact hrest 7 kind len

end Sys2Proof.Proofs
end

section
/-! ClassifyTxt by the shape of the line (R71): a line that cannot be cut into two identifiers and a third part is of no
recognized length, one whose third part is no blob has an invalid blob, and every other is EncryptedText. -/

namespace Sys2Proof.Proofs

open Machine

/-! ### The parts of a line -/

theorem exists_decU32_of_isId {f : Bytes} (h : Spec.IsId f) : ∃ v, decU32 f = some v := by
  have ⟨_, _, _, hmax⟩ := h
  refine ⟨BitVec.ofNat 32 (Spec.decimalValue f), decU32_eq_some_iff.2 ⟨h, ?_⟩⟩
  rw [BitVec.toNat_ofNat]
  omega

theorem decU32_eq_none_of_not_isId {f : Bytes} (h : ¬ Spec.IsId f) : decU32 f = none :=
  Option.eq_none_iff_forall_ne_some.2 fun _ hv => h (decU32_eq_some_iff.1 hv).1

theorem b64Dec16_eq_none_iff {f : Bytes} : b64Dec16 f = none ↔ ¬ Spec.IsBlob f := by
  constructor
  · intro hnone hblob
    rw [b64Dec16_of_isBlob hblob] at hnone
    cases hnone
  · exact fun h => Option.eq_none_iff_forall_ne_some.2 fun _ hv => h (isBlob_of_b64Dec16 hv)

theorem classOfParts_of_not_isId {d1 d2 : Bytes} (h : ¬(Spec.IsId d1 ∧ Spec.IsId d2)) (f : Bytes) :
    classOfParts d1 d2 f = .error .unrecognizedLength := by
  rcases not_and_or.1 h with h1 | h2
  · rw [classOfParts, decU32_eq_none_of_not_isId h1]
  · rw [classOfParts, decU32_eq_none_of_not_isId h2]
    cases decU32 d1 <;> rfl

theorem classOfParts_of_not_isBlob {d1 d2 f : Bytes} (h1 : Spec.IsId d1) (h2 : Spec.IsId d2) (hf : ¬ Spec.IsBlob f) :
    classOfParts d1 d2 f = .error .base64Invalid := by
  obtain ⟨a, ha⟩ := exists_decU32_of_isId h1
  obtain ⟨b, hb⟩ := exists_decU32_of_isId h2
  rw [classOfParts, ha, hb, b64Dec16_eq_none_iff.2 hf]

theorem exists_classOfParts_of_isBlob {d1 d2 f : Bytes} (h1 : Spec.IsId d1) (h2 : Spec.IsId d2) (hf : Spec.IsBlob f) :
    ∃ a b blob, classOfParts d1 d2 f = .ok (.encryptedText a b blob) := by
  obtain ⟨a, ha⟩ := exists_decU32_of_isId h1
  obtain ⟨b, hb⟩ := exists_decU32_of_isId h2
  exact ⟨a, b, _, classOfParts_eq_ok_iff.2 ⟨ha, hb, b64Dec16_of_isBlob hf⟩⟩

/-! ### The line -/

/-- All that ClassifyTxt can do: refuse a line that is too long or has not two commas, else go by its parts (R71). -/
theorem classifyTxt_cases (len : Nat) (line : Bytes) :
    classifyTxt len line = .error .unrecognizedLength ∨
      ∃ d1 d2 f, len ≤ 64 ∧ CutAtCommas line d1 d2 f ∧ classifyTxt len line = classOfParts d1 d2 f := by
  by_cases hlen : len ≤ 64
  · by_cases hcount : line.count commaByte = 2
    · obtain ⟨d1, d2, f, hcut⟩ := exists_cut_of_count hcount
      exact .inr ⟨d1, d2, f, hlen, hcut, classifyTxt_of_cut hlen hcut⟩
    · left
      rw [classifyTxt, if_pos hcount, ite_self]
  · exact .inl (if_pos (not_le.1 hlen))

theorem classifyTxt_of_no_shape {len : Nat} {line : Bytes}
    (h : 64 < len ∨ ¬ ∃ d1 d2 f : Bytes, Spec.Shape line d1 d2 f) :
    classifyTxt len line = .error .unrecognizedLength := by
  rcases classifyTxt_cases len line with hrefused | ⟨d1, d2, f, hlen, ⟨hline, -, -, hf⟩, hparts⟩
  · exact hrefused
  · have hshape := h.resolve_left (not_lt.2 hlen)
    rw [hparts]
    exact classOfParts_of_not_isId (fun ⟨h1, h2⟩ => hshape ⟨d1, d2, f, hline, h1, h2, hf⟩) f

theorem classifyTxt_of_not_isBlob {len : Nat} {line d1 d2 f : Bytes} (hlen : len ≤ 64) (h : Spec.Shape line d1 d2 f)
    (hf : ¬ Spec.IsBlob f) : classifyTxt len line = .error .base64Invalid := by
  have ⟨_, h1, h2, _⟩ := h
  rw [classifyTxt_of_cut hlen (cutAtCommas_of_shape h), classOfParts_of_not_isBlob h1 h2 hf]

theorem exists_classifyTxt_of_isBlob {len : Nat} {line d1 d2 f : Bytes} (hlen : len ≤ 64)
    (h : Spec.Shape line d1 d2 f) (hf : Spec.IsBlob f) :
    ∃ a b blob, classifyTxt len line = .ok (.encryptedText a b blob) := by
  have ⟨_, h1, h2, _⟩ := h
  rw [classifyTxt_of_cut hlen (cutAtCommas_of_shape h)]
  exact exists_classOfParts_of_isBlob h1 h2 hf

/-- A line that classifies is EncryptedText with a blob of 16 bytes (R71, R153). -/
theorem classifyTxt_ok {len : Nat} {line : Bytes} {c : PacketClass} (h : classifyTxt len line = .ok c) :
    ∃ a b blob, c = .encryptedText a b blob ∧ blob.length = 16 := by
  have hzero : frameLength c = 0 := classifyTxt_frameLength h
  cases c with
  | plaintextShort | plaintextExtended | encryptedBinary => cases hzero
  | encryptedText a b blob =>
    rcases classifyTxt_cases len line with hrefused | ⟨d1, d2, f, -, -, hparts⟩
    · rw [hrefused] at h
      cases h
    · rw [hparts] at h
      obtain ⟨-, -, hblob⟩ := classOfParts_eq_ok_iff.1 h
      obtain ⟨-, hlen, -⟩ := b64Dec16_eq_some_iff.1 hblob
      exact ⟨a, b, blob, rfl, hlen⟩

/-! ### The classifier as a function -/

theorem classifyBin_of_ne {n : Nat} (hPS : n ≠ Config.lenPS) (hPX : n ≠ Config.lenPX) (hEB : n ≠ Config.lenEB) :
    classifyBin n = .error .unrecognizedLength := by
  rw [classifyBin, if_neg hPS, if_neg hPX, if_neg hEB]

/-- Settles O36: a binary length goes by comparison, a text line by the class ClassifyTxt gives it or its two errors. -/
theorem classifierIsTotal : Obligations.ClassifierIsTotal := by
  unfold Obligations.ClassifierIsTotal
  refine ⟨fun n => classifyBin_of_ne, rfl, rfl, rfl, fun line => ?_, fun line d1 d2 f hlen hshape hnone => ?_⟩
  · cases h : classifyTxt line.length line with
    | ok c =>
      obtain ⟨a, b, blob, rfl, -⟩ := classifyTxt_ok h
      exact .inl ⟨a, b, blob, rfl⟩
    | error e => exact .inr ((classifyTxt_error h).imp (congrArg _) (congrArg _))
  · exact classifyTxt_of_not_isBlob hlen hshape (b64Dec16_eq_none_iff.1 hnone)

/-! ### What the decoder reads is well-formed -/

theorem binaryLength_of_no_class {len : BitVec 16} {e : ErrorKind} (h : classifyBin len.toNat = .error e) :
    binaryLength len = false := by
  unfold classifyBin at h
  split_ifs at h with hPS hPX hEB
  simp [binaryLength, hPS, hPX, hEB]

/-- The row of a class found is well-formed: only EncryptedText carries a blob, and B64Dec16 made it. -/
theorem wellFormed_rowOfClass {kind : InKind} {len : Nat} {line : Bytes} {c : PacketClass}
    (h : classifyBytes kind len line = .ok c) : (rowOfClass c).wellFormed = true := by
  cases kind with
  | binary =>
    change classifyBin len = .ok c at h
    unfold classifyBin at h
    split_ifs at h <;> cases h <;> rfl
  | text =>
    obtain ⟨a, b, blob, rfl, hlen⟩ := classifyTxt_ok h
    exact wellFormed_decEncText_iff.2 hlen

/-- The fall-through row is selected only where there is no class, so never by a length of the other rows. -/
theorem wellFormed_decode_of_no_class {kind : InKind} {len : BitVec 16} {line : Bytes} {e : ErrorKind}
    (h : classifyBytes kind len.toNat line = .error e) : (Instr.decode kind len).wellFormed = true := by
  cases kind with
  | binary => exact wellFormed_decode_binary_iff.2 (binaryLength_of_no_class h)
  | text => rfl

theorem wellFormed_of_decodeSel {op : BitVec 4} {kind : InKind} {len : BitVec 16} {line : Bytes} {i : Instr}
    (h : decodeSel (selOf op kind len) line = .ok i) : i.wellFormed = true := by
  rw [decodeSel_selOf] at h
  match hop : op.toNat with
  | 0 =>
    rw [hop] at h
    cases hc : classifyBytes kind len.toNat line with
    | ok c => rw [hc] at h; cases h; exact wellFormed_rowOfClass hc
    | error e => rw [hc] at h; cases h; exact wellFormed_decode_of_no_class hc
  | 1 | 2 | 3 | 4 | 5 | 6 | 7 => rw [hop] at h; cases h; rfl
  | n + 8 => rw [hop] at h; cases h

/-- Settles O2: row selection on the fields of the selector answers a well-formed row. -/
theorem decodedInstructionIsWellFormed : Obligations.DecodedInstructionIsWellFormed := by
  unfold Obligations.DecodedInstructionIsWellFormed
  intro bytes i h
  obtain ⟨-, line, hsel⟩ := decode_ok h
  rw [← selOf_fields (BitVec.ofNat 21 _)] at hsel
  exact wellFormed_of_decodeSel hsel

end Sys2Proof.Proofs
end

section
/-! The classifier unit's two operations, executed on any request in hand: DECODE is R73's, and CLASSIFY of a kind and a
length answers what R72 answers to a request of them. -/

namespace Sys2Proof.Proofs

open Machine

/-! ### DECODE -/

/-- The one decoder of a class is the row of the class (R73). -/
theorem runDecoder_eq_exec (s : State) (c : PacketClass) : runDecoder s c = exec (rowOfClass c) s := by
  cases c <;> rfl

/-- Settles O30: an error of the classification ends DECODE, and a class runs the row of the class. -/
theorem decodeIsTheWholeOperation : Obligations.DecodeIsTheWholeOperation := by
  unfold Obligations.DecodeIsTheWholeOperation
  intro s
  cases hc : s.req.classified with
  | error e => exact exec_decode_of_error hc
  | ok c =>
    calc exec (.decode s.req.inKind s.req.inLen) s
      _ = runDecoder s c := withClass_of_ok hc _
      _ = exec (rowOfClass c) s := runDecoder_eq_exec s c
      _ = .next (s.deliver (decodeTransaction s.params s.req)) := exec_rowOfClass hc

/-- Settles O31: of a class and its record, R73's response is the record under the code of the class. -/
theorem decodeDeliversTheRecordOfItsClass : Obligations.DecodeDeliversTheRecordOfItsClass := by
  unfold Obligations.DecodeDeliversTheRecordOfItsClass
  intro s c rec hc hrec
  rw [decodeIsTheWholeOperation s, decodeTransaction_of_ok _ hc, hrec, responseOf_ok]
  cases c <;> rfl

/-! ### CLASSIFY -/

/-- CLASSIFY of a kind and a length answers as to a request of that kind and length, where IN holds what it reads. -/
theorem exec_classify_of_reads {kind : InKind} {len : BitVec 16} {s : State}
    (h : classifyReads kind len.toNat ≤ s.req.inSize) :
    exec (.classify kind len) s =
      .next (s.deliver (classifyTransaction { s.req with inKind := kind, inLen := len })) := by
  have hline := classifyBytes_presented { s.req with inKind := kind, inLen := len }
  change withClass kind len s _ = _
  rw [withClass_eq, if_pos h, hline, classifyTransaction]
  cases Request.classified { s.req with inKind := kind, inLen := len } <;> rfl

theorem exec_classify_binary (s : State) (len : BitVec 16) :
    exec (.classify .binary len) s =
      .next (s.deliver (responseOf none (fun c => classifiedResponse (classVariant c)) (classifyBin len.toNat))) :=
  exec_classify_of_reads (Nat.zero_le _)

/-- CLASSIFY of the text line in hand goes by ClassifyTxt, which looks at no byte of a line longer than the
buffer (R71). -/
theorem exec_classify_text (s : State) :
    exec (.classify .text s.req.inLen) s =
      .next (s.deliver (responseOf none (fun c => classifiedResponse (classVariant c))
        (classifyTxt s.req.inLen.toNat (s.req.inData.readBytes 0 s.req.inLen.toNat)))) := by
  rw [exec_classify_of_reads (classifyReads_le_inSize { s.req with inKind := .text })]
  have hclass : Request.classified { s.req with inKind := .text } =
      classifyTxt s.req.inLen.toNat (s.req.inData.readBytes 0 s.req.inLen.toNat) := by
    by_cases hlen : 64 < s.req.inLen.toNat
    · rw [classifyTxt_of_no_shape (.inl hlen)]
      exact classifyTxt_of_no_shape (.inl hlen)
    · have hmin : min s.req.inLen.toNat Config.inBufBytes = s.req.inLen.toNat := min_eq_left (not_lt.1 hlen)
      simp only [Request.classified, Request.input, hmin]
  rw [classifyTransaction, hclass]

/-- Settles O33: each of the three lengths has its class, and every other length has none. -/
theorem classifyBinaryByLengthAlone : Obligations.ClassifyBinaryByLengthAlone := by
  unfold Obligations.ClassifyBinaryByLengthAlone
  intro s len
  rw [exec_classify_binary]
  split_ifs with hPS hPX hEB
  · subst hPS; rfl
  · subst hPX; rfl
  · subst hEB; rfl
  · have hne : ∀ n : BitVec 16, len ≠ n → len.toNat ≠ n.toNat := fun _ => mt BitVec.eq_of_toNat_eq
    rw [classifyBin_of_ne (hne 15 hPS) (hne 18 hPX) (hne 25 hEB)]
    rfl

/-- Settles O34: ClassifyTxt goes by the shape of the line and then by its blob. -/
theorem classifyTextByShape : Obligations.ClassifyTextByShape := by
  unfold Obligations.ClassifyTextByShape
  intro s
  dsimp only
  rw [exec_classify_text]
  refine ⟨fun hshape => ?_, fun d1 d2 f hlen hshape hblob => ?_, fun d1 d2 f hlen hshape hblob => ?_⟩
  · rw [classifyTxt_of_no_shape hshape]
    rfl
  · rw [classifyTxt_of_not_isBlob hlen hshape hblob]
    rfl
  · obtain ⟨a, b, blob, hclass⟩ := exists_classifyTxt_of_isBlob hlen hshape hblob
    rw [hclass]
    rfl

end Sys2Proof.Proofs
end

section
/-! The geo fixed-point codec: GEO_DEC is a bijection from three bytes onto the 24-bit range (R85, R87), GEO_ENC rounds
to the nearest step and splits it into the bytes GEO_DEC reads (R86), and so each undoes the other (R88). -/

namespace Sys2Proof.Proofs

open Machine

/-! ### Three bytes and their signed number -/

/-- The signed number of three bytes, mod 2^24, is the unsigned one (R85). -/
theorem geoDec_emod (b0 b1 b2 : Byte) :
    geoDec b0 b1 b2 % 16777216 = ((b0.toNat * 65536 + b1.toNat * 256 + b2.toNat : Nat) : Int) := by
  have h0 := b0.isLt
  have h1 := b1.isLt
  have h2 := b2.isLt
  rw [geoDec_eq]
  split <;> omega

theorem geoDec_inj {b0 b1 b2 c0 c1 c2 : Byte} (h : geoDec b0 b1 b2 = geoDec c0 c1 c2) :
    b0 = c0 ∧ b1 = c1 ∧ b2 = c2 := by
  have hsum := geoDec_emod b0 b1 b2
  rw [h, geoDec_emod] at hsum
  have hb1 := b1.isLt
  have hb2 := b2.isLt
  have hc1 := c1.isLt
  have hc2 := c2.isLt
  refine ⟨BitVec.eq_of_toNat_eq ?_, BitVec.eq_of_toNat_eq ?_, BitVec.eq_of_toNat_eq ?_⟩ <;> omega

/-- The result port of GEO_ENC holds the number of its bytes mod 2^24 (R67). -/
theorem geoEncRes_eq (b : Byte × Byte × Byte) :
    geoEncRes b = BitVec.ofInt 32 (geoDec b.1 b.2.1 b.2.2 % 16777216) := by
  rw [geoEncRes, bytes24_eq, geoDec_emod, BitVec.ofInt_natCast]

/-! ### The split of GEO_ENC -/

/-- A number of the 24-bit range is split into the three bytes it is the number of (R86). -/
theorem exists_geoSplit {e4 : Int} (hmin : -8388608 ≤ e4) (hmax : e4 ≤ 8388607) :
    ∃ b : Byte × Byte × Byte, geoSplit e4 = .ok b ∧ geoDec b.1 b.2.1 b.2.2 = e4 := by
  refine ⟨_, if_neg (by simp only [Config.geoMin, Config.geoMax]; omega), ?_⟩
  simp only [geoDec_eq, BitVec.toNat_ofNat, Nat.shiftRight_eq_div_pow, Config.geoBits]
  split <;> omega

theorem geoSplit_of_out_of_range {e4 : Int} (h : e4 < -8388608 ∨ 8388607 < e4) :
    geoSplit e4 = .error .coordinateOutOfRange := if_pos h

/-- The split undoes GEO_DEC: the bytes it gives have the same number, so they are the same bytes (R88). -/
theorem geoSplit_geoDec (b0 b1 b2 : Byte) : geoSplit (geoDec b0 b1 b2) = .ok (b0, b1, b2) := by
  obtain ⟨hmin, hmax⟩ := geoDec_bounds b0 b1 b2
  obtain ⟨⟨c0, c1, c2⟩, hsplit, hdec⟩ := exists_geoSplit hmin hmax
  obtain ⟨rfl, rfl, rfl⟩ := geoDec_inj hdec
  exact hsplit

/-- Settles O40: the surjection is the split of GEO_ENC. -/
theorem geoDecIsABijection : Obligations.GeoDecIsABijection := by
  unfold Obligations.GeoDecIsABijection
  refine ⟨geoDec_bounds, fun _ _ _ _ _ _ => geoDec_inj, fun e4 hmin hmax => ?_⟩
  obtain ⟨⟨b0, b1, b2⟩, -, hdec⟩ := exists_geoSplit hmin hmax
  exact ⟨b0, b1, b2, hdec⟩

/-! ### GEO_DEC as an operation -/

/-- Settles O39: the three bytes read are those of IN, and any other length is refused. -/
theorem geoDecResult : Obligations.GeoDecResult := by
  unfold Obligations.GeoDecResult
  intro s kind
  constructor
  · intro hsize
    have hfield : geoField (s.req.inData.readBytes 0 3) 0 = BitVec.ofInt 32
        (Spec.geoValue (s.req.inData.read 0) (s.req.inData.read 1) (s.req.inData.read 2)) := by
      rw [geoField, geoBits32, geoDec_eq_geoValue, byteAt_readBytes (by decide), byteAt_readBytes (by decide),
        byteAt_readBytes (by decide)]
    calc exec (.geoDec kind 3) s
        = completeFromInput s 3 geoDecResponse := rfl
      _ = .next (s.deliver (geoDecResponse (s.req.inData.readBytes 0 3))) := completeFromInput_of_le hsize
      _ = _ := by rw [geoDecResponse, hfield]; rfl
  · intro len hlen
    have hne : len.toNat ≠ 3 := fun h => hlen (BitVec.eq_of_toNat_eq h)
    exact if_pos hne

/-! ### The rounding of GEO_ENC -/

theorem geoEncDegrees_eq (v : Rat) : geoEncDegrees v = geoSplit (roundHalfAway (v * 10000)) := by
  rw [geoEncDegrees, Config.geoScale, Nat.cast_ofNat]

/-- The rounding of the port form as a quotient with the sign restored (R86). -/
theorem roundE6_eq (e6 : Int) : roundE6 e6 = if 0 ≤ e6 then (e6 + 50) / 100 else -((-e6 + 50) / 100) := by
  unfold roundE6
  dsimp only
  split <;> omega

theorem geoEnc_eq_geoSplit (arg : Word32) : geoEnc arg = geoSplit (Spec.roundedE4 arg) := by
  rw [geoEnc, signedReading_eq_toInt, roundE6_eq]
  rfl

/-- Settles O41: the rounded operand is split where it fits and refused where it does not. -/
theorem geoEncResult : Obligations.GeoEncResult := by
  unfold Obligations.GeoEncResult
  intro s kind len e4
  have hexec : exec (.geoEnc kind len) s =
      .next (s.deliver (responseOf none (fun b => leafResponse (geoEncRes b)) (geoSplit e4))) := by
    rw [← geoEnc_eq_geoSplit]
    rfl
  constructor
  · intro hmin hmax
    obtain ⟨b, hsplit, hdec⟩ := exists_geoSplit hmin hmax
    rw [hexec, hsplit, responseOf_ok, geoEncRes_eq, hdec]
    rfl
  · intro hout
    rw [hexec, geoSplit_of_out_of_range hout]
    rfl

/-- Rounding half away from zero is Mathlib's `round`, which rounds a tie up, on the absolute value (R86). -/
theorem roundHalfAway_eq_round (x : Rat) : roundHalfAway x = if 0 ≤ x then round x else -round (-x) := by
  rw [round_eq, round_eq]
  rfl

theorem round_intCast_div_hundred (n : Int) : round ((n : Rat) / 100) = (n + 50) / 100 := by
  have hsum : (n : Rat) / 100 + 1 / 2 = ((n + 50 : Int) : Rat) / (100 : Nat) := by
    push_cast
    ring
  rw [round_eq, hsum, Rat.floor_intCast_div_natCast]
  rfl

/-- Both forms of the rounding agree on a whole number of 1/1000000 degrees (R86). -/
theorem roundHalfAway_div_hundred (e6 : Int) : roundHalfAway ((e6 : Rat) / 100) = roundE6 e6 := by
  have hsign : (0 : Rat) ≤ (e6 : Rat) / 100 ↔ 0 ≤ e6 := by
    rw [le_div_iff₀ (by norm_num), zero_mul, Int.cast_nonneg_iff]
  rw [roundHalfAway_eq_round, roundE6_eq, ← neg_div, ← Int.cast_neg, round_intCast_div_hundred,
    round_intCast_div_hundred]
  simp only [hsign]

/-- Settles O42: `e6 / 1000000` degrees are `e6 / 100` steps, which both forms round to the same integer. -/
theorem geoEncAgreesWithRationalRounding : Obligations.GeoEncAgreesWithRationalRounding := by
  unfold Obligations.GeoEncAgreesWithRationalRounding
  intro arg
  have hsteps : (arg.toInt : Rat) / 1000000 * 10000 = (arg.toInt : Rat) / 100 := by ring
  rw [geoEnc, signedReading_eq_toInt, geoEncDegrees_eq, hsteps, roundHalfAway_div_hundred]

/-! ### The round trip -/

theorem roundHalfAway_intCast (n : Int) : roundHalfAway n = n := by
  rw [roundHalfAway_eq_round, ← Int.cast_neg, round_intCast, round_intCast, neg_neg, ite_self]

/-- Rounding moves a number by at most one half. -/
theorem abs_roundHalfAway_sub_le (x : Rat) : |(roundHalfAway x : Rat) - x| ≤ 1 / 2 := by
  rw [roundHalfAway_eq_round]
  split
  · rw [abs_sub_comm]
    exact abs_sub_round x
  · have hneg : ((-round (-x) : Int) : Rat) - x = -x - round (-x) := by
      push_cast
      ring
    rw [hneg]
    exact abs_sub_round (-x)

/-- Of the integers nearest to a number, one is at distance one half exactly if the number is a tie. -/
theorem abs_sub_eq_half_iff {n : Int} {x : Rat} (h : |(n : Rat) - x| ≤ 1 / 2) :
    |(n : Rat) - x| = 1 / 2 ↔ ∃ k : Int, x = k + 1 / 2 := by
  constructor
  · intro heq
    rcases (abs_eq (by norm_num)).1 heq with hup | hdown
    · exact ⟨n - 1, by push_cast; linarith⟩
    · exact ⟨n, by linarith⟩
  · rintro ⟨k, rfl⟩
    obtain ⟨hlow, hhigh⟩ := abs_le.1 h
    have hk : k ≤ n := by exact_mod_cast (by linarith : (k : Rat) ≤ n)
    have hk' : n ≤ k + 1 := by exact_mod_cast (by linarith : (n : Rat) ≤ k + 1)
    obtain rfl | rfl : n = k ∨ n = k + 1 := by omega
    · rw [abs_eq (by norm_num)]
      right; ring
    · rw [abs_eq (by norm_num)]
      left; push_cast; ring

theorem degrees_eq (n : Int) : degrees n = (n : Rat) / 10000 := by
  rw [degrees, Config.geoScale, Nat.cast_ofNat]

/-- The decoded degrees are off by the rounding of the steps, scaled (R85, R86). -/
theorem abs_degrees_sub (n : Int) (v : Rat) : |degrees n - v| = |(n : Rat) - v * 10000| / 10000 := by
  have hscale : degrees n - v = ((n : Rat) - v * 10000) / 10000 := by
    rw [degrees_eq]
    ring
  rw [hscale, abs_div, abs_of_pos (by norm_num : (0 : Rat) < 10000)]

/-- Less than 838 degrees are steps of the 24-bit range (R87). -/
theorem roundHalfAway_bounds {v : Rat} (h : |v| < 838) :
    -8388608 ≤ roundHalfAway (v * 10000) ∧ roundHalfAway (v * 10000) ≤ 8388607 := by
  obtain ⟨hv, hv'⟩ := abs_lt.1 h
  obtain ⟨hlow, hhigh⟩ := abs_le.1 (abs_roundHalfAway_sub_le (v * 10000))
  constructor
  · exact_mod_cast (by linarith : (-8388608 : Rat) ≤ roundHalfAway (v * 10000))
  · exact_mod_cast (by linarith : (roundHalfAway (v * 10000) : Rat) ≤ 8388607)

theorem degrees_mul_scale (n : Int) : degrees n * 10000 = n := by
  rw [degrees_eq, div_mul_cancel₀ _ (by norm_num)]

/-- Encoding the port form of a decoded pattern reads and rounds back to its number (R88). -/
theorem geoEnc_hundred_mul {e4 : Int} (hmin : -8388608 ≤ e4) (hmax : e4 ≤ 8388607) :
    geoEnc (BitVec.ofInt 32 (100 * e4)) = geoSplit e4 := by
  have hread : (BitVec.ofInt 32 (100 * e4)).toInt = 100 * e4 :=
    BitVec.toInt_ofInt_eq_self (by decide) (by omega) (by omega)
  have hround : roundE6 (100 * e4) = e4 := by
    rw [roundE6_eq]
    split <;> omega
  rw [geoEnc, signedReading_eq_toInt, hread, hround]

/-- Settles O43: decoding gives the rounded steps, and encoding a decoded pattern has nothing to round. -/
theorem geoRoundTripLaw : Obligations.GeoRoundTripLaw := by
  unfold Obligations.GeoRoundTripLaw
  refine ⟨fun v hv => ?_, fun b0 b1 b2 => ?_, fun b0 b1 b2 => ?_⟩
  · obtain ⟨hmin, hmax⟩ := roundHalfAway_bounds hv
    obtain ⟨b, hsplit, hdec⟩ := exists_geoSplit hmin hmax
    have hround := abs_roundHalfAway_sub_le (v * 10000)
    refine ⟨b, (geoEncDegrees_eq v).trans hsplit, ?_⟩
    rw [hdec, abs_degrees_sub, ← abs_sub_eq_half_iff hround]
    constructor
    · linarith
    · constructor <;> intro h <;> linarith
  · rw [geoEncDegrees_eq, degrees_mul_scale, roundHalfAway_intCast, geoSplit_geoDec]
  · obtain ⟨hmin, hmax⟩ := geoDec_bounds b0 b1 b2
    rw [geoEnc_hundred_mul hmin hmax, geoSplit_geoDec]

end Sys2Proof.Proofs
end

section
/-! The voltage quantizer: VOLT_DEC reads a nibble as millivolts (R95), VOLT_ENC gives the nearest step of the closed
interval (R96), and so each undoes the other up to the rounding (R98). -/

namespace Sys2Proof.Proofs

open Machine

/-! ### VOLT_DEC -/

theorem voltDec_bounds (n : Nibble) : 2700 ≤ (voltDec n).toNat ∧ (voltDec n).toNat ≤ 4200 := by
  have hn := n.isLt
  rw [voltDec_toNat]
  omega

/-- The result port of VOLT_DEC holds the millivolts of the low four bits of the operand (R67, R95). -/
theorem voltDecResponse_eq (arg : Word32) :
    voltDecResponse arg = leafResponse (BitVec.ofNat 32 ((arg.toNat % 16 + 27) * 100)) := by
  have hnibble : (arg.extractLsb' 0 4).toNat = arg.toNat % 16 := BitVec.extractLsb'_toNat 0 4 arg
  rw [voltDecResponse, ← BitVec.ofNat_toNat, voltDec_toNat, hnibble]

/-- Settles O44: the operand's low four bits are the nibble, and nothing else of the request is read. -/
theorem voltDecResult : Obligations.VoltDecResult := by
  unfold Obligations.VoltDecResult
  intro s kind len
  calc exec (.voltDec kind len) s
      = .next (s.deliver (voltDecResponse s.req.arg)) := rfl
    _ = _ := by rw [voltDecResponse_eq]; rfl

/-! ### VOLT_ENC -/

/-- A voltage of the closed interval is encoded as the nearest step, a tie up; the step fits a nibble (R96). -/
theorem exists_voltEnc {mv : BitVec 16} (hmin : 2700 ≤ mv.toNat) (hmax : mv.toNat ≤ 4200) :
    ∃ n : Nibble, voltEnc mv = .ok n ∧ n.toNat = (mv.toNat - 2700 + 50) / 100 := by
  refine ⟨_, if_neg (by simp only [Config.voltMinMv, Config.voltMaxMv]; omega), ?_⟩
  rw [BitVec.toNat_ofNat, Config.voltMinMv, Config.voltStepMv]
  omega

theorem voltEnc_of_out_of_range {mv : BitVec 16} (h : mv.toNat < 2700 ∨ 4200 < mv.toNat) :
    voltEnc mv = .error .voltageOutOfRange := if_pos h

theorem extract_mv_toNat (arg : Word32) : (arg.extractLsb' 0 16).toNat = arg.toNat % 2 ^ 16 :=
  BitVec.extractLsb'_toNat 0 16 arg

/-- The result port of VOLT_ENC holds the nearest step of an operand in range (R67, R96). -/
theorem voltEncResponse_of_in_range {arg : Word32} (hmin : 2700 ≤ arg.toNat % 2 ^ 16) (hmax : arg.toNat % 2 ^ 16 ≤ 4200) :
    voltEncResponse arg = leafResponse (BitVec.ofNat 32 ((arg.toNat % 2 ^ 16 - 2700 + 50) / 100)) := by
  rw [← extract_mv_toNat] at hmin hmax ⊢
  obtain ⟨n, henc, hn⟩ := exists_voltEnc hmin hmax
  rw [voltEncResponse, henc, responseOf_ok, ← BitVec.ofNat_toNat, hn]

theorem voltEncResponse_of_out_of_range {arg : Word32} (h : arg.toNat % 2 ^ 16 < 2700 ∨ 4200 < arg.toNat % 2 ^ 16) :
    voltEncResponse arg = failedResponse .voltageOutOfRange none := by
  rw [← extract_mv_toNat] at h
  rw [voltEncResponse, voltEnc_of_out_of_range h, responseOf_error]

/-- Settles O45: the operand's low sixteen bits are encoded inside the interval and refused outside it. -/
theorem voltEncResult : Obligations.VoltEncResult := by
  unfold Obligations.VoltEncResult
  intro s kind len mv
  have hexec : exec (.voltEnc kind len) s = .next (s.deliver (voltEncResponse s.req.arg)) := rfl
  constructor
  · intro hmin hmax
    rw [hexec, voltEncResponse_of_in_range hmin hmax]
    rfl
  · intro hout
    rw [hexec, voltEncResponse_of_out_of_range hout]
    rfl

/-! ### The round trip -/

/-- A decoded nibble is a step itself, so that encoding it has nothing to round (R98). -/
theorem voltEnc_voltDec (n : Nibble) : voltEnc (voltDec n) = .ok n := by
  obtain ⟨hmin, hmax⟩ := voltDec_bounds n
  obtain ⟨m, henc, hm⟩ := exists_voltEnc hmin hmax
  rw [voltDec_toNat] at hm
  have hmn : m = n := BitVec.eq_of_toNat_eq (by omega)
  rw [henc, hmn]

/-- A block that is given a VOLT_DEC delivers the millivolts of its nibble (R95, R191). -/
theorem step_voltDec (s : State) {r : Request} (hop : r.op = 4) :
    ∃ t, step (s.loaded [r]) = .next t ∧ t.resp.status = 0 ∧
      t.resp.res.toNat = (r.arg.toNat % 16 + 27) * 100 := by
  have hresp : transaction s.params r = leafResponse (BitVec.ofNat 32 ((r.arg.toNat % 16 + 27) * 100)) := by
    rw [transaction, hop, ← voltDecResponse_eq]
    rfl
  refine ⟨_, step_of_pending (s.loaded_pending [r]), ?_⟩
  rw [State.deliver_resp, State.loaded_params, hresp]
  exact ⟨rfl, Nat.mod_eq_of_lt (by omega)⟩

/-- A block that is given a VOLT_ENC in range delivers the nearest step (R96, R191). -/
theorem step_voltEnc (s : State) {r : Request} (hop : r.op = 5) (hmin : 2700 ≤ r.arg.toNat % 2 ^ 16)
    (hmax : r.arg.toNat % 2 ^ 16 ≤ 4200) :
    ∃ t, step (s.loaded [r]) = .next t ∧ t.resp.status = 0 ∧
      t.resp.res.toNat = (r.arg.toNat % 2 ^ 16 - 2700 + 50) / 100 := by
  have hresp : transaction s.params r =
      leafResponse (BitVec.ofNat 32 ((r.arg.toNat % 2 ^ 16 - 2700 + 50) / 100)) := by
    rw [transaction, hop, ← voltEncResponse_of_in_range hmin hmax]
    rfl
  refine ⟨_, step_of_pending (s.loaded_pending [r]), ?_⟩
  rw [State.deliver_resp, State.loaded_params, hresp]
  exact ⟨rfl, Nat.mod_eq_of_lt (by omega)⟩

/-- Settles O46: the nearest step is at most half a step away, which holds of the functions and, since each response
holds its function's result, of the two transactions. -/
theorem voltageRoundTripLaw : Obligations.VoltageRoundTripLaw := by
  unfold Obligations.VoltageRoundTripLaw
  refine ⟨fun n => ⟨voltEnc_voltDec n, voltDec_bounds n⟩, fun mv hmin hmax => ?_,
    fun s enc dec henc hdec hmin hmax => ?_⟩
  · obtain ⟨n, hok, hn⟩ := exists_voltEnc hmin hmax
    refine ⟨n, hok, ?_⟩
    rw [← BitVec.toNat_inj, voltDec_toNat]
    omega
  · obtain ⟨t, hstep, hstatus, hres⟩ := step_voltEnc s henc hmin hmax
    obtain ⟨u, hstep', hstatus', hres'⟩ := step_voltDec t (r := { dec with arg := t.resp.res }) hdec
    refine ⟨t, u, hstep, hstatus, hstep', hstatus', ?_⟩
    rw [hres', hres]
    omega

end Sys2Proof.Proofs
end

section
/-! The checksum verifier: Sum8 is a sum that wraps at 256 (R105), CSUM_SUM gives it for the presented bytes (R106), and
CSUM_VERIFY compares it with byte 15 of a block, which any one changed byte defeats (R107). -/

namespace Sys2Proof.Proofs

open Machine

/-! ### Sum8 -/

theorem sum8_toNat (b : Bytes) : (sum8 b).toNat = (b.map BitVec.toNat).sum % 256 := by
  rw [sum8, BitVec.toNat_ofNat, Nat.mod_mod]

theorem sum8_singleton (b : Byte) : sum8 [b] = b := by
  apply BitVec.eq_of_toNat_eq
  rw [sum8_toNat, List.map_singleton, List.sum_singleton, Nat.mod_eq_of_lt b.isLt]

/-- Reducing once and adding in an 8-bit accumulator give the same (R105). -/
theorem sum8_append (a b : Bytes) : sum8 (a ++ b) = sum8 a + sum8 b := by
  apply BitVec.eq_of_toNat_eq
  rw [BitVec.toNat_add, sum8_toNat, sum8_toNat, sum8_toNat, List.map_append, List.sum_append, ← Nat.add_mod]

theorem sum8_perm {a b : Bytes} (h : a.Perm b) : sum8 a = sum8 b := by
  apply BitVec.eq_of_toNat_eq
  rw [sum8_toNat, sum8_toNat, (h.map BitVec.toNat).sum_eq]

/-- Settles O50: Sum8 inherits its laws from the sum of natural numbers. -/
theorem sumOfBytesIsAdditiveAndOrderBlind : Obligations.SumOfBytesIsAdditiveAndOrderBlind := by
  unfold Obligations.SumOfBytesIsAdditiveAndOrderBlind
  exact ⟨rfl, sum8_singleton, sum8_append, fun _ _ => sum8_perm⟩

/-! ### CSUM_SUM -/

theorem map_toNat_readBytes (m : Memory) (n : Nat) :
    (m.readBytes 0 n).map BitVec.toNat = (List.range n).map fun k => (m.read k).toNat := by
  simp [Memory.readBytes]

/-- The result port of CSUM_SUM holds the sum of the bytes read, zero-extended (R106). -/
theorem csumSumResponse_readBytes (m : Memory) (n : Nat) :
    csumSumResponse (m.readBytes 0 n) =
      leafResponse (BitVec.ofNat 32 (((List.range n).map fun k => (m.read k).toNat).sum % 256)) := by
  rw [csumSumResponse, ← BitVec.ofNat_toNat, sum8_toNat, map_toNat_readBytes]

/-- Settles O47: a legal request reads its bytes from IN, and a length above 64 is refused before any is read. -/
theorem csumSumResult : Obligations.CsumSumResult := by
  unfold Obligations.CsumSumResult
  intro s kind len
  constructor
  · intro hlen hsize
    calc exec (.csumSum kind len) s
        = completeFromInput s len.toNat csumSumResponse := if_neg (Nat.not_lt.2 hlen)
      _ = .next (s.deliver (csumSumResponse (s.req.inData.readBytes 0 len.toNat))) := completeFromInput_of_le hsize
      _ = _ := by rw [csumSumResponse_readBytes]; rfl
  · intro hlen
    exact if_pos hlen

/-! ### CSUM_VERIFY -/

/-- The check reads the sixteen bytes of the block and nothing beyond them (R107). -/
theorem intact_congr {p q : Nat → Byte} (h : ∀ k, k < 16 → p k = q k) : Spec.Intact p ↔ Spec.Intact q := by
  have hsum : ((List.range 15).map fun k => (p k).toNat) = (List.range 15).map fun k => (q k).toNat :=
    List.map_congr_left fun k hk => by rw [h k (Nat.lt_succ_of_lt (List.mem_range.1 hk))]
  rw [Spec.Intact, Spec.Intact, h 15 (by decide), hsum]

theorem csumVerify_readBytes (m : Memory) : csumVerify (m.readBytes 0 16) = true ↔ Spec.Intact m.read := by
  rw [← intact_iff_csumVerify]
  exact intact_congr fun k hk => by rw [byteAt_readBytes hk, Nat.zero_add]

/-- Settles O48: the verdict on the block in IN is the result, and any other length is refused. -/
theorem csumVerifyResult : Obligations.CsumVerifyResult := by
  unfold Obligations.CsumVerifyResult
  intro s kind
  constructor
  · intro hsize
    have hexec : exec (.csumVerify kind 16) s =
        .next (s.deliver (csumVerifyResponse (s.req.inData.readBytes 0 16))) := completeFromInput_of_le hsize
    rw [hexec, csumVerifyResponse, ← csumVerify_readBytes]
    constructor
    · intro hok
      rw [if_pos hok]
      rfl
    · intro hbad
      rw [if_neg hbad]
      rfl
  · intro len hlen
    have hne : len.toNat ≠ 16 := fun h => hlen (BitVec.eq_of_toNat_eq h)
    exact if_pos hne

/-! ### One changed byte -/

/-- Changing one summand changes the sum by the difference of the two values. -/
theorem sum_range_add_of_eq_off {f g : Nat → Nat} {k n : Nat} (hk : k < n) (h : ∀ j, j ≠ k → f j = g j) :
    ((List.range n).map f).sum + g k = ((List.range n).map g).sum + f k := by
  have hmem : k ∈ List.range n := List.mem_range.2 hk
  have hrest : ((List.range n).erase k).map f = ((List.range n).erase k).map g :=
    List.map_congr_left fun j hj => h j (List.nodup_range.mem_erase_iff.1 hj).1
  rw [← List.sum_map_erase f hmem, ← List.sum_map_erase g hmem, hrest]
  omega

/-- Two intact blocks that agree off one offset agree there too: of the stored sum because it is determined by the
other bytes, of a summand because two bytes congruent modulo 256 are equal (R107). -/
theorem eq_of_intact_of_eq_off {p q : Nat → Byte} {k : Nat} (hk : k < 16) (h : ∀ j, j ≠ k → p j = q j)
    (hp : Spec.Intact p) (hq : Spec.Intact q) : p k = q k := by
  unfold Spec.Intact at hp hq
  apply BitVec.eq_of_toNat_eq
  rcases Nat.lt_succ_iff_lt_or_eq.1 hk with hsummand | rfl
  · have hswap := sum_range_add_of_eq_off (f := fun j => (p j).toNat) (g := fun j => (q j).toNat) hsummand
      fun j hj => congrArg BitVec.toNat (h j hj)
    have hlast : p 15 = q 15 := h 15 hsummand.ne'
    rw [hlast] at hp
    have hpk := (p k).isLt
    have hqk := (q k).isLt
    omega
  · have hsum : ((List.range 15).map fun j => (p j).toNat) = (List.range 15).map fun j => (q j).toNat :=
      List.map_congr_left fun j hj => congrArg BitVec.toNat (h j (List.mem_range.1 hj).ne)
    rw [hp, hq, hsum]

/-- Settles O49: were both blocks intact, they would not differ. -/
theorem oneChangedByteDefeatsTheChecksum : Obligations.OneChangedByteDefeatsTheChecksum := by
  unfold Obligations.OneChangedByteDefeatsTheChecksum
  intro p q k _ _ hk hdiff hsame hp
  rw [← Bool.not_eq_true]
  intro hq
  exact hdiff (eq_of_intact_of_eq_off hk hsame ((intact_iff_csumVerify p).2 hp) ((intact_iff_csumVerify q).2 hq))

end Sys2Proof.Proofs
end

section
/-! The plaintext packet decoder: each row reads the record of its layout from the bytes of IN (R113, R114), and a frame
of either length is answered with that record, whatever its bytes and the key (R115). -/

namespace Sys2Proof.Proofs

open Machine

/-! ### The fields of a layout, read from IN -/

theorem byteAt_readBytes_zero (m : Memory) {n i : Nat} (h : i < n) : byteAt (m.readBytes 0 n) i = m.read i := by
  rw [byteAt_readBytes h, Nat.zero_add]

theorem le32_readBytes (m : Memory) {n off : Nat} (h : off + 4 ≤ n) :
    le32 (m.readBytes 0 n) off = BitVec.ofNat 32
      (Spec.leNumber (m.read off) (m.read (off + 1)) (m.read (off + 2)) (m.read (off + 3))) := by
  rw [le32_eq (by rwa [Memory.length_readBytes]), byteAt_readBytes_zero m (by omega),
    byteAt_readBytes_zero m (by omega), byteAt_readBytes_zero m (by omega), byteAt_readBytes_zero m (by omega)]
  rfl

/-- A signed little-endian field of two bytes: the sign is that of its sum (R44, R114). -/
theorem sext32_ofNat {v : Nat} (h : v < 65536) :
    sext32 (BitVec.ofNat 16 v) = BitVec.ofInt 32 (Spec.signed16 v) := by
  have hval : (BitVec.ofNat 16 v).toNat = v := Nat.mod_eq_of_lt h
  have hsign : (BitVec.ofNat 16 v).msb = decide (32768 ≤ v) := by rw [BitVec.msb_eq_decide, hval]
  rw [sext32, signedReading, Spec.signed16, hsign, hval]
  by_cases hneg : v < 32768
  · simp [hneg, Nat.not_le.2 hneg]
  · simp [hneg, Nat.not_lt.1 hneg]

theorem sext32_le16_readBytes (m : Memory) {n off : Nat} (h : off + 2 ≤ n) :
    sext32 (le16 (m.readBytes 0 n) off) = BitVec.ofInt 32
      (Spec.signed16 ((m.read off).toNat + (m.read (off + 1)).toNat * 256)) := by
  have hlow := (m.read off).isLt
  have hhigh := (m.read (off + 1)).isLt
  rw [le16_eq (by rwa [Memory.length_readBytes]), byteAt_readBytes_zero m (by omega),
    byteAt_readBytes_zero m (by omega)]
  exact sext32_ofNat (by omega)

theorem geoField_readBytes (m : Memory) {n off : Nat} (h : off + 3 ≤ n) :
    geoField (m.readBytes 0 n) off =
      BitVec.ofInt 32 (Spec.geoValue (m.read off) (m.read (off + 1)) (m.read (off + 2))) := by
  rw [geoField, geoBits32, geoDec_eq_geoValue, byteAt_readBytes_zero m (by omega), byteAt_readBytes_zero m (by omega),
    byteAt_readBytes_zero m (by omega)]

theorem voltDec_loNibble (c : Byte) : voltDec (loNibble c) = BitVec.ofNat 16 ((c.toNat % 16 + 27) * 100) := by
  rw [voltDec, loNibble_toNat]
  rfl

/-! ### The two records -/

/-- The record of fifteen bytes of IN is R113's. -/
theorem decPlainShort_readBytes (m : Memory) : decPlainShort (m.readBytes 0 15) = Spec.plainRecord m.read := by
  have hid1 := le32_readBytes m (show 0 + 4 ≤ 15 by decide)
  have hid2 := le32_readBytes m (show 4 + 4 ≤ 15 by decide)
  have hcombined := byteAt_readBytes_zero m (show 8 < 15 by decide)
  have hlat := geoField_readBytes m (show 9 + 3 ≤ 15 by decide)
  have hlon := geoField_readBytes m (show 12 + 3 ≤ 15 by decide)
  simp only [decPlainShort, unpack, hid1, hid2, hcombined, hlat, hlon, hiNibble_eq, voltDec_loNibble]
  rfl

/-- The record of eighteen bytes of IN is R114's: the first fifteen are a short frame of their own (R53). -/
theorem decPlainExt_readBytes (m : Memory) : decPlainExt (m.readBytes 0 18) = Spec.plainExtRecord m.read := by
  have hshort : slice (m.readBytes 0 18) 0 Config.lenPS = m.readBytes 0 15 := slice_readBytes (by decide)
  have hspeed := byteAt_readBytes_zero m (show 15 < 18 by decide)
  have haltitude := sext32_le16_readBytes m (show 16 + 2 ≤ 18 by decide)
  rw [decPlainExt, hshort, decPlainShort_readBytes, hspeed, haltitude]
  rfl

/-! ### The two rows -/

/-- Settles O26: the row reads the fifteen bytes of IN, and their record is R113's. -/
theorem decPlainShortRecord : Obligations.DecPlainShortRecord := by
  unfold Obligations.DecPlainShortRecord
  intro s hsize
  calc exec .decPlainShort s
      = completeFromInput s 15 plainShortResponse := rfl
    _ = .next (s.deliver (plainShortResponse (s.req.inData.readBytes 0 15))) := completeFromInput_of_le hsize
    _ = _ := by rw [plainShortResponse, decPlainShort_readBytes]; rfl

/-- Settles O27: the row reads the eighteen bytes of IN, and their record is R114's. -/
theorem decPlainExtRecord : Obligations.DecPlainExtRecord := by
  unfold Obligations.DecPlainExtRecord
  intro s hsize
  calc exec .decPlainExt s
      = completeFromInput s 18 plainExtResponse := rfl
    _ = .next (s.deliver (plainExtResponse (s.req.inData.readBytes 0 18))) := completeFromInput_of_le hsize
    _ = _ := by rw [plainExtResponse, decPlainExt_readBytes]; rfl

/-! ### DECODE of a plaintext frame -/

/-- A step that takes a DECODE whose class has a record delivers the record (R73, R191). -/
theorem step_of_decodeClass {s : State} {r : Request} {rest : List Request} {c : PacketClass} {rec : Record}
    (hp : s.pending = r :: rest) (hop : r.op = 0) (hc : r.classified = .ok c)
    (hrec : decodeClass s.params r c = .ok rec) :
    step s = .next ((s.accept r rest).deliver (decodedResponse (classVariant c) rec)) := by
  have hresp : transaction s.params r = decodeTransaction s.params r := by rw [transaction, hop]; rfl
  rw [step_of_pending hp, hresp, decodeTransaction_of_ok _ hc, hrec, responseOf_ok]

/-- A binary transmission is classified by its length (R70). -/
theorem classified_of_binary {r : Request} (h : r.inKind = .binary) : r.classified = classifyBin r.inLen.toNat := by
  rw [Request.classified, h]

/-- Settles O24: each of the two lengths has a plaintext class, whose decoder answers a record without fail. -/
theorem plaintextFramesAlwaysDecode : Obligations.PlaintextFramesAlwaysDecode := by
  unfold Obligations.PlaintextFramesAlwaysDecode
  intro s r rest hp hop hkind hlen
  have hclass := classified_of_binary hkind
  rcases hlen with hlen | hlen
  · have hshort : r.classified = .ok .plaintextShort := by rw [hclass, hlen]; rfl
    exact ⟨_, step_of_decodeClass hp hop hshort rfl, rfl, rfl, rfl, rfl⟩
  · have hext : r.classified = .ok .plaintextExtended := by rw [hclass, hlen]; rfl
    exact ⟨_, step_of_decodeClass hp hop hext rfl, rfl, rfl, rfl, rfl⟩

end Sys2Proof.Proofs
end

section
/-! The inverse cipher undoes the forward cipher under every key schedule (R147), step by step: the S-boxes are inverse
tables, the row shifts are inverse permutations, and `MixColumns` is a linear map of order four whose cube is
`InvMixColumns`. -/

namespace Sys2Proof.Proofs

open Machine

/-! ### Multiples of a byte by the coefficients of the two mixing maps -/

theorem xtime_eq (a : Byte) : xtime a = a <<< 1 ^^^ if a.msb then 0x1B else 0 := by
  revert a
  decide +kernel

/-- Multiplication by x is linear: the reduction is applied once for each operand that overflows (R137). -/
theorem xtime_xor (a b : Byte) : xtime (a ^^^ b) = xtime a ^^^ xtime b := by
  have hreduce : (if (a ^^^ b).msb then (0x1B : Byte) else 0) =
      (if a.msb then 0x1B else 0) ^^^ if b.msb then 0x1B else 0 := by
    rw [BitVec.msb_xor]
    cases a.msb <;> cases b.msb <;> rfl
  rw [xtime_eq, xtime_eq, xtime_eq, hreduce, BitVec.shiftLeft_xor_distrib]
  ac_rfl

theorem gmul_two (a : Byte) : gmul a 2 = xtime a := by
  simp [gmul, gmulLoop]

theorem gmul_three (a : Byte) : gmul a 3 = a ^^^ xtime a := by
  simp [gmul, gmulLoop]

theorem gmul_nine (a : Byte) : gmul a 0x09 = a ^^^ xtime (xtime (xtime a)) := by
  simp [gmul, gmulLoop]

theorem gmul_eleven (a : Byte) : gmul a 0x0B = a ^^^ xtime a ^^^ xtime (xtime (xtime a)) := by
  simp [gmul, gmulLoop]

theorem gmul_thirteen (a : Byte) : gmul a 0x0D = a ^^^ xtime (xtime a) ^^^ xtime (xtime (xtime a)) := by
  simp [gmul, gmulLoop]

theorem gmul_fourteen (a : Byte) : gmul a 0x0E = xtime a ^^^ xtime (xtime a) ^^^ xtime (xtime (xtime a)) := by
  simp [gmul, gmulLoop]

/-! ### One column -/

/-- With associativity and commutativity this sorts the terms of a sum, so that equal ones meet and cancel. -/
theorem xor_left_comm (a b c : Byte) : a ^^^ (b ^^^ c) = b ^^^ (a ^^^ c) := by ac_rfl

/-- A row of `mixColumn` over the four bytes of a column, its own row first: the map is the same for each row. -/
def mixRow (a b c d : Byte) : Byte := xtime (a ^^^ b) ^^^ (b ^^^ c ^^^ d)

/-- A row of `mixColumn` applied twice. -/
def mixRowTwice (a c : Byte) : Byte := a ^^^ xtime (xtime (a ^^^ c))

theorem mixColumn_eq (a b c d : Byte) :
    mixColumn ⟨a, b, c, d⟩ = ⟨mixRow a b c d, mixRow b c d a, mixRow c d a b, mixRow d a b c⟩ := by
  simp only [mixColumn, mixRow, gmul_two, gmul_three, xtime_xor, Column.mk.injEq]
  exact ⟨by ac_rfl, by ac_rfl, by ac_rfl, by ac_rfl⟩

theorem mixRow_mixRow (a b c d : Byte) :
    mixRow (mixRow a b c d) (mixRow b c d a) (mixRow c d a b) (mixRow d a b c) = mixRowTwice a c := by
  simp only [mixRow, mixRowTwice, xtime_xor, BitVec.xor_assoc, BitVec.xor_comm, xor_left_comm, BitVec.xor_self,
    xor_cancel_left, BitVec.zero_xor]

theorem mixRowTwice_mixRowTwice (a c : Byte) : mixRowTwice (mixRowTwice a c) (mixRowTwice c a) = a := by
  have hsum : mixRowTwice a c ^^^ mixRowTwice c a = a ^^^ c := by
    simp only [mixRowTwice, xtime_xor]
    rw [BitVec.xor_comm (xtime (xtime c)), BitVec.xor_comm c, BitVec.xor_assoc, xor_cancel_left]
  rw [mixRowTwice, hsum, mixRowTwice, xor_cancel_right]

theorem mixColumn_mixColumn (a b c d : Byte) :
    mixColumn (mixColumn ⟨a, b, c, d⟩) =
      ⟨mixRowTwice a c, mixRowTwice b d, mixRowTwice c a, mixRowTwice d b⟩ := by
  simp only [mixColumn_eq, mixRow_mixRow]

/-- The mixing polynomial has order four modulo `x^4 + 1`. -/
theorem mixColumn_order_four (w : Column) : mixColumn (mixColumn (mixColumn (mixColumn w))) = w := by
  obtain ⟨a, b, c, d⟩ := w
  simp only [mixColumn_mixColumn, mixRowTwice_mixRowTwice]

/-- A row of `invMixColumn`, its own row first. -/
theorem gmul_inverse_coefficients (a b c d : Byte) :
    gmul a 0x0E ^^^ gmul b 0x0B ^^^ gmul c 0x0D ^^^ gmul d 0x09 = mixRowTwice (mixRow a b c d) (mixRow c d a b) := by
  simp only [mixRow, mixRowTwice, gmul_nine, gmul_eleven, gmul_thirteen, gmul_fourteen, xtime_xor, BitVec.xor_assoc,
    BitVec.xor_comm, xor_left_comm, xor_cancel_left]

theorem invMixColumn_eq (w : Column) : invMixColumn w = mixColumn (mixColumn (mixColumn w)) := by
  obtain ⟨a, b, c, d⟩ := w
  rw [mixColumn_eq a b c d, mixColumn_mixColumn, ← gmul_inverse_coefficients, ← gmul_inverse_coefficients,
    ← gmul_inverse_coefficients, ← gmul_inverse_coefficients, invMixColumn, Column.mk.injEq]
  exact ⟨rfl, by ac_rfl, by ac_rfl, by ac_rfl⟩

theorem invMixColumn_mixColumn (w : Column) : invMixColumn (mixColumn w) = w := by
  rw [invMixColumn_eq, mixColumn_order_four]

/-! ### The steps of a round -/

theorem invSbox_sbox (a : Byte) : invSbox (sbox a) = a := by
  revert a
  decide +kernel

theorem invSubBytes_subBytes (s : AesState) : invSubBytes (subBytes s) = s := by
  simp only [invSubBytes, subBytes, AesState.mapColumns, Column.map, invSbox_sbox]

theorem invShiftRows_shiftRows (s : AesState) : invShiftRows (shiftRows s) = s := rfl

theorem invMixColumns_mixColumns (s : AesState) : invMixColumns (mixColumns s) = s := by
  simp only [invMixColumns, mixColumns, AesState.mapColumns, invMixColumn_mixColumn]

theorem column_xor_xor (a k : Column) : (a.xor k).xor k = a := by
  simp only [Column.xor, xor_cancel_right]

theorem addRoundKey_addRoundKey (s : AesState) (w : List Column) (round : Nat) :
    addRoundKey (addRoundKey s w round) w round = s := by
  simp only [addRoundKey, column_xor_xor]

/-! ### The cipher -/

/-- The inverse rounds take back the forward rounds, the last first; between rounds the state stands after
`ShiftRows`, where the last forward round leaves it (R146, R147). -/
theorem invRounds_fwdRounds (w : List Column) (n : Nat) (s : AesState) :
    invRounds w n (shiftRows (subBytes (fwdRounds w n s))) = shiftRows (subBytes s) := by
  induction n with
  | zero => rfl
  | succ n ih =>
    rw [invRounds, invShiftRows_shiftRows, invSubBytes_subBytes, fwdRounds, addRoundKey_addRoundKey,
      invMixColumns_mixColumns, ih]

theorem aesState_length_toBytes (s : AesState) : s.toBytes.length = 16 := rfl

theorem aesState_ofBytes_toBytes (s : AesState) : AesState.ofBytes s.toBytes = s := rfl

theorem aesState_toBytes_ofBytes {x : Bytes} (h : x.length = 16) : (AesState.ofBytes x).toBytes = x := by
  match x, h with
  | [_, _, _, _, _, _, _, _, _, _, _, _, _, _, _, _], _ => rfl

theorem length_fwdCipher (nr : Nat) (x : Bytes) (w : List Column) : (fwdCipher nr x w).length = 16 :=
  aesState_length_toBytes _

theorem length_invCipher (nr : Nat) (x : Bytes) (w : List Column) : (invCipher nr x w).length = 16 :=
  aesState_length_toBytes _

/-- The inverse cipher recovers the block that the forward cipher took (R147). -/
theorem invCipher_fwdCipher (nr : Nat) {x : Bytes} (w : List Column) (h : x.length = 16) :
    invCipher nr (fwdCipher nr x w) w = x := by
  simp only [invCipher, fwdCipher, aesState_ofBytes_toBytes, addRoundKey_addRoundKey, invRounds_fwdRounds,
    invShiftRows_shiftRows, invSubBytes_subBytes]
  exact aesState_toBytes_ofBytes h

end Sys2Proof.Proofs
end

section
/-! The AES-ECB packet decoder: DEC_ENC_BIN tests the key length, then the checksum of the decrypted block, and delivers
R123's record; a frame enciphered under the key presented is decrypted to its block (R130), and the outer combined byte
is not read (R128). -/

namespace Sys2Proof.Proofs

open Machine

/-! ### The key -/

/-- The key lengths of AES with their parameters, and no others (R136). -/
theorem aesParams_eq_some {n nk nr : Nat} (h : aesParams n = some (nk, nr)) : n = 16 ∨ n = 24 ∨ n = 32 := by
  unfold aesParams at h
  split at h
  · exact .inl rfl
  · exact .inr (.inl rfl)
  · exact .inr (.inr rfl)
  · cases h

theorem aesParams_eq_none {n : Nat} (h16 : n ≠ 16) (h24 : n ≠ 24) (h32 : n ≠ 32) : aesParams n = none := by
  cases h : aesParams n with
  | none => rfl
  | some params =>
    obtain h | h | h := aesParams_eq_some h
    · exact absurd h h16
    · exact absurd h h24
    · exact absurd h h32

/-- A key of no length of AES, or none, is refused whatever the block (R135). -/
theorem aesEcbDec_of_illegal_key {r : Request} (h16 : r.keyLen ≠ 16) (h24 : r.keyLen ≠ 24) (h32 : r.keyLen ≠ 32)
    (ct : Bytes) : aesEcbDec r.key ct = .error .decryptFailed := by
  rw [Request.key_eq]
  split
  · rfl
  · have hnone : aesParams r.keyLen.toNat = none :=
      aesParams_eq_none (fun h => h16 (BitVec.eq_of_toNat_eq h)) (fun h => h24 (BitVec.eq_of_toNat_eq h))
        fun h => h32 (BitVec.eq_of_toNat_eq h)
    simp only [aesEcbDec, hnone]

/-- A key of a length of AES is wholly presented, and the block is deciphered under its schedule (R135, R136). -/
theorem aesEcbDec_of_legal_key {r : Request} {nk nr : Nat} (h : aesParams r.keyLen.toNat = some (nk, nr)) (ct : Bytes) :
    aesEcbDec r.key ct = .ok (invCipher nr ct (keyExpansion nk nr (r.keyData.readBytes 0 r.keyLen.toNat))) := by
  have hlen := aesParams_eq_some h
  have hpresent : r.keyLen ≠ 0 := by
    intro hzero
    rw [hzero] at hlen
    exact absurd hlen (by decide)
  have hwhole : min r.keyLen.toNat 32 = r.keyLen.toNat := by omega
  rw [Request.key_eq, if_neg hpresent, hwhole]
  simp only [aesEcbDec, h]

/-! ### The record -/

theorem be32_readBytes (m : Memory) {n off : Nat} (h : off + 4 ≤ n) :
    be32 (m.readBytes 0 n) off = BitVec.ofNat 32
      (Spec.beNumber (m.read off) (m.read (off + 1)) (m.read (off + 2)) (m.read (off + 3))) := by
  rw [be32_eq (by rwa [Memory.length_readBytes]), byteAt_readBytes_zero m (by omega),
    byteAt_readBytes_zero m (by omega), byteAt_readBytes_zero m (by omega), byteAt_readBytes_zero m (by omega)]
  rfl

/-- The version nibble of the inner combined byte (R58, R126). -/
theorem unpackInner_version (prm : Params) (c : Byte) :
    (unpackInner prm c).1 = BitVec.ofNat 4 (if prm.innerVoltNibble = .low then c.toNat / 16 else c.toNat % 16) := by
  unfold unpackInner
  cases prm.innerVoltNibble with
  | low => exact hiNibble_eq c
  | high => exact loNibble_eq c

theorem voltDec_unpackInner (prm : Params) (c : Byte) :
    voltDec (unpackInner prm c).2 = BitVec.ofNat 16
      (((if prm.innerVoltNibble = .low then c.toNat % 16 else c.toNat / 16) + 27) * 100) := by
  rw [voltDec, unpackInner_volt_toNat]
  rfl

/-- The altitude field, under either value of `ENC_ALT_SIGNED` (R129). -/
theorem encAltitude_le16 (prm : Params) {p : Bytes} {off : Nat} (h : off + 2 ≤ p.length) :
    encAltitude prm (le16 p off) =
      if prm.encAltSigned then
        BitVec.ofInt 32 (Spec.signed16 ((byteAt p off).toNat + (byteAt p (off + 1)).toNat * 256))
      else BitVec.ofNat 32 ((byteAt p off).toNat + (byteAt p (off + 1)).toNat * 256) := by
  have hlow := (byteAt p off).isLt
  have hhigh := (byteAt p (off + 1)).isLt
  have hfit : (byteAt p off).toNat + (byteAt p (off + 1)).toNat * 256 < 65536 := by omega
  have hfield : le16 p off = BitVec.ofNat 16 ((byteAt p off).toNat + (byteAt p (off + 1)).toNat * 256) := le16_eq h
  rw [encAltitude, hfield, sext32_ofNat hfit, zext32, BitVec.toNat_ofNat, Nat.mod_eq_of_lt hfit]

/-- The record over 25 bytes of IN and a decrypted block is R123's. -/
theorem encBinRecord_readBytes (prm : Params) (m : Memory) {p : Bytes} (h : p.length = 16) :
    Machine.encBinRecord prm (m.readBytes 0 25) p = Spec.encBinRecord prm m.read (byteAt p) := by
  have hid1 := be32_readBytes m (show 0 + 4 ≤ 25 by decide)
  have hid2 := be32_readBytes m (show 4 + 4 ≤ 25 by decide)
  have haltitude := encAltitude_le16 prm (show 8 + 2 ≤ p.length by omega)
  simp only [Machine.encBinRecord, hid1, hid2, unpackInner_version, voltDec_unpackInner, geoField, geoBits32,
    geoDec_eq_geoValue, haltitude]
  rfl

/-! ### The row -/

/-- The block that DEC_ENC_BIN decrypts from bytes 9 to 24 of IN under the key presented (R123, R125). -/
def decryptedBlock (r : Request) (nk nr : Nat) : Bytes :=
  invCipher nr (r.inData.readBytes 9 16) (keyExpansion nk nr (r.keyData.readBytes 0 r.keyLen.toNat))

theorem length_decryptedBlock (r : Request) (nk nr : Nat) : (decryptedBlock r nk nr).length = 16 :=
  length_invCipher _ _ _

theorem aesEcbDec_frame {r : Request} {nk nr : Nat} (h : aesParams r.keyLen.toNat = some (nk, nr)) :
    aesEcbDec r.key (r.inData.readBytes 9 16) = .ok (decryptedBlock r nk nr) :=
  aesEcbDec_of_legal_key h _

theorem exec_decEncBin {s : State} (hsize : 25 ≤ s.req.inSize) :
    exec .decEncBin s = .next (s.deliver (encBinResponse s.params s.req.key (s.req.inData.readBytes 0 25))) :=
  completeFromInput_of_le hsize

/-- Bytes 9 to 24 of the frame are the ciphertext (R54, R123). -/
theorem slice_ciphertext (m : Memory) : slice (m.readBytes 0 25) 9 Config.blobLen = m.readBytes 9 16 :=
  slice_readBytes (by decide)

theorem decEncBin_of_aes_error {prm : Params} {key : Option SuppliedKey} {m : Memory} {e : ErrorKind}
    (h : aesEcbDec key (m.readBytes 9 16) = .error e) : decEncBin prm key (m.readBytes 0 25) = .error e := by
  rw [decEncBin, slice_ciphertext, decryptChecked, h]

theorem decEncBin_of_aes_ok {prm : Params} {key : Option SuppliedKey} {m : Memory} {p : Bytes}
    (h : aesEcbDec key (m.readBytes 9 16) = .ok p) :
    decEncBin prm key (m.readBytes 0 25) =
      if csumVerify p = true then .ok (Machine.encBinRecord prm (m.readBytes 0 25) p)
      else .error .checksumMismatch := by
  rw [decEncBin, slice_ciphertext, decryptChecked, h]
  cases hp : csumVerify p <;> simp [hp]

theorem exec_decEncBin_of_illegal_key {s : State} (hsize : 25 ≤ s.req.inSize) (h16 : s.req.keyLen ≠ 16)
    (h24 : s.req.keyLen ≠ 24) (h32 : s.req.keyLen ≠ 32) :
    exec .decEncBin s = .next (s.deliver (Spec.failedAfter 4 2)) := by
  rw [exec_decEncBin hsize, encBinResponse, decEncBin_of_aes_error (aesEcbDec_of_illegal_key h16 h24 h32 _)]
  rfl

theorem exec_decEncBin_of_not_intact {s : State} {nk nr : Nat} (hsize : 25 ≤ s.req.inSize)
    (hkey : aesParams s.req.keyLen.toNat = some (nk, nr)) (h : ¬ Spec.Intact (byteAt (decryptedBlock s.req nk nr))) :
    exec .decEncBin s = .next (s.deliver (Spec.failedAfter 5 2)) := by
  rw [intact_iff_csumVerify] at h
  rw [exec_decEncBin hsize, encBinResponse, decEncBin_of_aes_ok (aesEcbDec_frame hkey), if_neg h]
  rfl

theorem exec_decEncBin_of_intact {s : State} {nk nr : Nat} (hsize : 25 ≤ s.req.inSize)
    (hkey : aesParams s.req.keyLen.toNat = some (nk, nr)) (h : Spec.Intact (byteAt (decryptedBlock s.req nk nr))) :
    exec .decEncBin s = .next (s.deliver
      (Spec.okRecord 2 (Spec.encBinRecord s.params s.req.inData.read (byteAt (decryptedBlock s.req nk nr))))) := by
  rw [intact_iff_csumVerify] at h
  rw [exec_decEncBin hsize, encBinResponse, decEncBin_of_aes_ok (aesEcbDec_frame hkey), if_pos h,
    encBinRecord_readBytes _ _ (length_decryptedBlock _ _ _)]
  rfl

/-- Settles O28: the key length decides first, then the checksum of the decrypted block. -/
theorem decEncBinWhole : Obligations.DecEncBinWhole := by
  unfold Obligations.DecEncBinWhole
  intro s hsize
  exact ⟨exec_decEncBin_of_illegal_key hsize, fun nk nr hkey =>
    ⟨exec_decEncBin_of_not_intact hsize hkey, exec_decEncBin_of_intact hsize hkey⟩⟩

/-! ### A frame and the key it was made with -/

/-- The bytes at the end of what the host presented, read back. -/
theorem readBytes_ofBytes_append (a b : Bytes) :
    (Memory.ofBytes (a ++ b)).readBytes a.length b.length = b := by
  apply List.ext_getElem
  · simp
  · intro i h1 h2
    simp [Memory.readBytes, Memory.read_ofBytes, h2]

/-- The four bytes of a word, most significant first, read back (R59). -/
theorem beNumber_extract (v : Word32) :
    BitVec.ofNat 32 (Spec.beNumber (v.extractLsb' 24 8) (v.extractLsb' 16 8) (v.extractLsb' 8 8) (v.extractLsb' 0 8)) =
      v := by
  apply BitVec.eq_of_toNat_eq
  have hv := v.isLt
  simp only [Spec.beNumber, BitVec.extractLsb'_toNat, BitVec.toNat_ofNat, Nat.shiftRight_eq_div_pow]
  omega

theorem record_with_ids {rec : Record} {a b : Word32} (h1 : rec.id1 = a) (h2 : rec.id2 = b) :
    { rec with id1 := a, id2 := b } = rec := by
  subst h1 h2
  rfl

/-- The identifiers read from a frame are those it was made from (R54, R124). -/
theorem encBinRecord_ebFrame (prm : Params) (id1 id2 : Word32) (outer : Byte) (ct : Bytes) (p : Nat → Byte) :
    { Spec.encBinRecord prm (byteAt (Spec.ebFrame id1 id2 outer ct)) p with id1 := id1, id2 := id2 } =
      Spec.encBinRecord prm (byteAt (Spec.ebFrame id1 id2 outer ct)) p :=
  record_with_ids (beNumber_extract id1) (beNumber_extract id2)

theorem encBinRecord_battery (prm : Params) (f p : Nat → Byte) :
    2700 ≤ (Spec.encBinRecord prm f p).batteryMv.toNat ∧ (Spec.encBinRecord prm f p).batteryMv.toNat ≤ 4200 := by
  have hvolt : (Spec.encBinRecord prm f p).batteryMv = voltDec (unpackInner prm (p 0)).2 :=
    (voltDec_unpackInner prm (p 0)).symm
  rw [hvolt]
  exact voltDec_bounds _

theorem transaction_of_decode (prm : Params) {r : Request} (hop : r.op = 0) :
    transaction prm r = decodeTransaction prm r := by
  rw [transaction, hop]
  rfl

theorem transaction_of_classify (prm : Params) {r : Request} (hop : r.op = 1) :
    transaction prm r = classifyTransaction r := by
  rw [transaction, hop]
  rfl

/-- The step that takes a DECODE of an encrypted frame runs DEC_ENC_BIN (R73, R191). -/
theorem step_of_encryptedBinary {s : State} {r : Request} {rest : List Request} (hp : s.pending = r :: rest)
    (hop : r.op = 0) (hc : r.classified = .ok .encryptedBinary) : step s = exec .decEncBin (s.accept r rest) := by
  have hexec : exec .decEncBin (s.accept r rest) = .next ((s.accept r rest).deliver (decodeTransaction s.params r)) :=
    exec_rowOfClass (s := s.accept r rest) hc
  rw [step_of_pending hp, transaction_of_decode _ hop, hexec]

/-- The request to DECODE a 25-byte frame with a key. -/
def frameRequest (frame key : Bytes) (arg : Word32) : Request :=
  { op := 0, inKind := .binary, inLen := 25, inData := Memory.ofBytes frame,
    keyLen := BitVec.ofNat 6 key.length, keyData := Memory.ofBytes key, arg := arg }

theorem frameRequest_inSize (frame key : Bytes) (arg : Word32) : (frameRequest frame key arg).inSize = 25 := rfl

theorem frameRequest_classified (frame key : Bytes) (arg : Word32) :
    (frameRequest frame key arg).classified = .ok .encryptedBinary := rfl

/-- What a frame's bytes are does not depend on how the host presents them. -/
theorem frameRequest_read (frame key : Bytes) (arg : Word32) :
    (frameRequest frame key arg).inData.read = byteAt frame :=
  funext fun _ => Memory.read_ofBytes

/-- A length of AES fits the port of the key's length (R14). -/
theorem frameRequest_keyLen {key : Bytes} {nk nr : Nat} (h : aesParams key.length = some (nk, nr)) (frame : Bytes)
    (arg : Word32) : (frameRequest frame key arg).keyLen.toNat = key.length := by
  have hlen := aesParams_eq_some h
  exact Nat.mod_eq_of_lt (by omega)

/-- With the key it was made with, a frame is decrypted to the block it was made from (R130, R147). -/
theorem decryptedBlock_ebFrame {p key : Bytes} {nk nr : Nat} (hp : p.length = 16)
    (hkey : aesParams key.length = some (nk, nr)) (id1 id2 : Word32) (outer : Byte) (arg : Word32) :
    decryptedBlock (frameRequest (Spec.ebFrame id1 id2 outer (fwdCipher nr p (keyExpansion nk nr key))) key arg)
      nk nr = p := by
  have hct : (Memory.ofBytes (Spec.ebFrame id1 id2 outer (fwdCipher nr p (keyExpansion nk nr key)))).readBytes 9 16 =
      fwdCipher nr p (keyExpansion nk nr key) := readBytes_ofBytes_append _ _
  have hbytes : (Memory.ofBytes key).readBytes 0 key.length = key := Memory.readBytes_ofBytes key
  rw [decryptedBlock, frameRequest_keyLen hkey]
  simp only [frameRequest, hct, hbytes, invCipher_fwdCipher nr _ hp]

/-- Settles O57: DEC_ENC_BIN on the frame decrypts it to `p`, and the integrity byte of `p` decides. -/
theorem encryptedFrameDecodesWithItsKey : Obligations.EncryptedFrameDecodesWithItsKey := by
  unfold Obligations.EncryptedFrameDecodesWithItsKey
  intro s rest id1 id2 outer p key nk nr arg hp hkey frame r
  have hr : r = frameRequest frame key arg := rfl
  have hstep : step (s.loaded (r :: rest)) = exec .decEncBin ((s.loaded (r :: rest)).accept r rest) :=
    step_of_encryptedBinary rfl rfl (frameRequest_classified frame key arg)
  have hsize : 25 ≤ r.inSize := (frameRequest_inSize frame key arg).ge
  have hblock : decryptedBlock r nk nr = p := decryptedBlock_ebFrame hp hkey id1 id2 outer arg
  have hparams : aesParams r.keyLen.toNat = some (nk, nr) := by rw [hr, frameRequest_keyLen hkey, hkey]
  by_cases hintact : Spec.Intact (byteAt p)
  · have hexec := exec_decEncBin_of_intact (s := (s.loaded (r :: rest)).accept r rest) hsize hparams
      (by rwa [State.accept_req, hblock])
    rw [State.accept_req, hblock, hr, frameRequest_read] at hexec
    refine ⟨_, hstep.trans hexec, fun _ => ⟨?_, encBinRecord_battery _ _ _⟩, fun h => absurd hintact h⟩
    exact congrArg (Spec.okRecord 2) (encBinRecord_ebFrame _ id1 id2 outer _ _).symm
  · have hexec := exec_decEncBin_of_not_intact (s := (s.loaded (r :: rest)).accept r rest) hsize hparams
      (by rwa [State.accept_req, hblock])
    exact ⟨_, hstep.trans hexec, fun h => absurd h hintact, fun _ => rfl⟩

/-! ### The outer combined byte -/

/-- A run of the frame that leaves out byte 8 is the same in both frames. -/
theorem slice_readBytes_congr {m m' : Memory} (h : ∀ k, k ≠ 8 → m'.read k = m.read k) {off n : Nat}
    (hfit : off + n ≤ 25) (hoff : off + n ≤ 8 ∨ 8 < off) :
    slice (m.readBytes 0 25) off n = slice (m'.readBytes 0 25) off n := by
  rw [slice_readBytes hfit, slice_readBytes hfit]
  exact Memory.readBytes_congr fun k hk => (h _ (by omega)).symm

/-- DEC_ENC_BIN reads the identifiers before byte 8 and the ciphertext behind it (R123, R128). -/
theorem decEncBin_congr {m m' : Memory} (h : ∀ k, k ≠ 8 → m'.read k = m.read k) (prm : Params)
    (key : Option SuppliedKey) : decEncBin prm key (m.readBytes 0 25) = decEncBin prm key (m'.readBytes 0 25) := by
  have hid1 := slice_readBytes_congr h (show 0 + 4 ≤ 25 by decide) (by decide)
  have hid2 := slice_readBytes_congr h (show 4 + 4 ≤ 25 by decide) (by decide)
  have hct := slice_readBytes_congr h (show 9 + Config.blobLen ≤ 25 by decide) (by decide)
  simp only [decEncBin, Machine.encBinRecord, be32, hid1, hid2, hct]

/-- Settles O25: both frames have the one class, and its decoder passes over byte 8. -/
theorem outerCombinedByteIsIgnored : Obligations.OuterCombinedByteIsIgnored := by
  unfold Obligations.OuterCombinedByteIsIgnored
  intro s r r' rest hop hkind hlen hop' hkind' hlen' hkeyLen hkeyData hread
  have hclass : r.classified = .ok .encryptedBinary := by rw [classified_of_binary hkind, hlen]; rfl
  have hclass' : r.classified = r'.classified := by
    rw [classified_of_binary hkind, classified_of_binary (hkind'.trans hkind), hlen']
  have hkey : r.key = r'.key := by rw [Request.key_eq, Request.key_eq, hkeyLen, hkeyData]
  refine steps_agree rest ?_
  rcases hop with hop | hop
  · rw [transaction_of_decode _ hop, transaction_of_decode _ (hop'.trans hop)]
    refine decodeTransaction_congr hclass' fun c hc => ?_
    cases hclass.symm.trans hc
    calc decodeClass s.params r .encryptedBinary
        = decEncBin s.params r.key (r'.input 25) := decEncBin_congr hread _ _
      _ = decodeClass s.params r' .encryptedBinary := by rw [hkey]; rfl
  · rw [transaction_of_classify _ hop, transaction_of_classify _ (hop'.trans hop), classifyTransaction,
      classifyTransaction, hclass']

end Sys2Proof.Proofs
end

section
/-! Multiplication in GF(2^8) (R137). A byte is a polynomial in x, so every byte comes from 01 by `xtime` and exclusive
or; `gmul` keeps both in its first operand and has 01 as a unit, and those three facts decide every law of the field. -/

namespace Sys2Proof.Proofs

open Machine

/-! ### The loop of `gmul` in its first operand -/

/-- The loop multiplies the operand and the sum so far by x at once (R137). -/
theorem gmulLoop_xtime (n : Nat) (a b r : Byte) :
    gmulLoop n (xtime a) b (xtime r) = xtime (gmulLoop n a b r) := by
  induction n generalizing a b r with
  | zero => rfl
  | succ n ih =>
    simp only [gmulLoop]
    split
    · rw [← xtime_xor, ih]
    · exact ih _ _ _

/-- The loop is linear in the operand and the sum so far (R137). -/
theorem gmulLoop_xor (n : Nat) (a a' b r r' : Byte) :
    gmulLoop n (a ^^^ a') b (r ^^^ r') = gmulLoop n a b r ^^^ gmulLoop n a' b r' := by
  induction n generalizing a a' b r r' with
  | zero => rfl
  | succ n ih =>
    have hsum : (r ^^^ r') ^^^ (a ^^^ a') = (r ^^^ a) ^^^ (r' ^^^ a') := by ac_rfl
    simp only [gmulLoop]
    split
    · rw [xtime_xor, hsum, ih]
    · rw [xtime_xor, ih]

theorem xtime_zero : xtime 0 = 0 := rfl

theorem gmul_xtime_left (a b : Byte) : gmul (xtime a) b = xtime (gmul a b) := by
  rw [gmul, gmul, ← gmulLoop_xtime, xtime_zero]

theorem gmul_xor_left (a b c : Byte) : gmul (a ^^^ b) c = gmul a c ^^^ gmul b c :=
  gmulLoop_xor 8 a b c 0 0

theorem gmul_one_right (a : Byte) : gmul a 1 = a := by
  simp [gmul, gmulLoop]

theorem gmul_one_left (b : Byte) : gmul 1 b = b := by
  revert b
  decide +kernel

/-! ### Induction over the polynomials -/

/-- Horner's rule: a byte is its low bit and x times the rest. -/
theorem xtime_shift_xor_low (a : Byte) : xtime (a >>> 1) ^^^ (a &&& 1) = a := by
  revert a
  decide +kernel

theorem low_bit_eq (a : Byte) : a &&& 1 = 0 ∨ a &&& 1 = 1 := by
  revert a
  decide +kernel

/-- What holds of 01 and is kept by `xtime` and exclusive or holds of every byte. -/
theorem byte_induction {P : Byte → Prop} (one : P 1) (mulX : ∀ a, P a → P (xtime a))
    (add : ∀ a b, P a → P b → P (a ^^^ b)) (a : Byte) : P a := by
  have zero : P 0 := add 1 1 one one
  by_cases ha : a = 0
  · rwa [ha]
  · have hpos : a.toNat ≠ 0 := fun h => ha (BitVec.eq_of_toNat_eq h)
    have hlt : (a >>> 1).toNat < a.toNat := by
      rw [BitVec.toNat_ushiftRight, Nat.shiftRight_one]
      omega
    have hlow : P (a &&& 1) := by
      rcases low_bit_eq a with h | h
      · rwa [h]
      · rwa [h]
    rw [← xtime_shift_xor_low a]
    exact add _ _ (mulX _ (byte_induction one mulX add (a >>> 1))) hlow
termination_by a.toNat

/-! ### The laws of the product -/

theorem gmul_xor_right (a b c : Byte) : gmul a (b ^^^ c) = gmul a b ^^^ gmul a c := by
  induction a using byte_induction with
  | one => simp only [gmul_one_left]
  | mulX a ih => rw [gmul_xtime_left, ih, xtime_xor, gmul_xtime_left, gmul_xtime_left]
  | add a a' ih ih' =>
    rw [gmul_xor_left, ih, ih', gmul_xor_left, gmul_xor_left]
    ac_rfl

theorem gmul_xtime_right (a b : Byte) : gmul a (xtime b) = xtime (gmul a b) := by
  induction a using byte_induction with
  | one => simp only [gmul_one_left]
  | mulX a ih => rw [gmul_xtime_left, ih, gmul_xtime_left]
  | add a a' ih ih' => rw [gmul_xor_left, ih, ih', ← xtime_xor, gmul_xor_left]

theorem gmul_comm (a b : Byte) : gmul a b = gmul b a := by
  induction a using byte_induction with
  | one => rw [gmul_one_left, gmul_one_right]
  | mulX a ih => rw [gmul_xtime_left, ih, gmul_xtime_right]
  | add a a' ih ih' => rw [gmul_xor_left, ih, ih', gmul_xor_right]

theorem gmul_assoc (a b c : Byte) : gmul (gmul a b) c = gmul a (gmul b c) := by
  induction a using byte_induction with
  | one => simp only [gmul_one_left]
  | mulX a ih => simp only [gmul_xtime_left, ih]
  | add a a' ih ih' => simp only [gmul_xor_left, ih, ih']

/-- Settles O54: the laws hold of 01 in the first operand, and `xtime` and exclusive or keep them. -/
theorem gmulIsAFieldMultiplication : Obligations.GmulIsAFieldMultiplication := by
  unfold Obligations.GmulIsAFieldMultiplication
  intro a b c
  exact ⟨gmul_xor_left a b c, gmul_comm a b, gmul_assoc a b c, gmul_one_right a, gmul_two a⟩

/-- An inverse is unique (R137). -/
theorem gmul_inverse_unique {a b c : Byte} (hb : gmul a b = 1) (hc : gmul a c = 1) : b = c :=
  calc b = gmul (gmul a c) b := by rw [hc, gmul_one_left]
    _ = gmul (gmul a b) c := by rw [gmul_assoc, gmul_comm c b, ← gmul_assoc]
    _ = c := by rw [hb, gmul_one_left]

end Sys2Proof.Proofs
end

section
/-! The two S-box tables (R138, R139): each undoes the other, and SBOX is an affine map of the multiplicative inverse.
The affine map has an inverse of the same shape, which reads the multiplicative inverse of `a` off the entry SBOX[a]. -/

namespace Sys2Proof.Proofs

open Machine

/-- SBOX is injective, so it meets every byte: a left inverse of it is a right inverse (R139). -/
theorem sbox_invSbox (a : Byte) : sbox (invSbox a) = a := by
  have hinj : Function.Injective sbox := Function.LeftInverse.injective invSbox_sbox
  have hsurj : Function.Surjective sbox := Finite.surjective_of_injective hinj
  exact Function.LeftInverse.rightInverse_of_surjective invSbox_sbox hsurj a

/-- Settles O52. -/
theorem inverseSboxUndoesTheSbox : Obligations.InverseSboxUndoesTheSbox := by
  unfold Obligations.InverseSboxUndoesTheSbox
  exact fun a => ⟨invSbox_sbox a, sbox_invSbox a⟩

/-- R138's affine map, of which SBOX[a] is the value at the inverse of `a`. -/
def affineMap (b : Byte) : Byte :=
  b ^^^ b.rotateLeft 1 ^^^ b.rotateLeft 2 ^^^ b.rotateLeft 3 ^^^ b.rotateLeft 4 ^^^ 0x63

/-- The multiplicative inverse of `a`, with 00 for 00, as the entry SBOX[a] gives it: the inverse of `affineMap` there. -/
def fieldInverse (a : Byte) : Byte :=
  (sbox a).rotateLeft 1 ^^^ (sbox a).rotateLeft 3 ^^^ (sbox a).rotateLeft 6 ^^^ 0x05

theorem affineMap_fieldInverse (a : Byte) : affineMap (fieldInverse a) = sbox a := by
  revert a
  decide +kernel

theorem gmul_fieldInverse (a : Byte) : gmul a (fieldInverse a) = if a = 0 then 0 else 1 := by
  revert a
  decide +kernel

theorem gmul_zero_left (b : Byte) : gmul 0 b = 0 := by
  have h := gmul_xor_left 0 0 b
  rwa [BitVec.xor_self, BitVec.xor_self] at h

theorem ne_zero_of_gmul_eq_one {a b : Byte} (h : gmul a b = 1) : a ≠ 0 := by
  rintro rfl
  rw [gmul_zero_left] at h
  exact absurd h (by decide)

theorem gmul_fieldInverse_of_ne_zero {a : Byte} (h : a ≠ 0) : gmul a (fieldInverse a) = 1 := by
  rw [gmul_fieldInverse, if_neg h]

/-- Settles O53: an inverse pair is `a` and `fieldInverse a`, inverses being unique. -/
theorem sboxIsTheAffineImageOfTheInverse : Obligations.SboxIsTheAffineImageOfTheInverse := by
  unfold Obligations.SboxIsTheAffineImageOfTheInverse
  refine ⟨fun a b hab => ?_, fun a ha => ⟨fieldInverse a, gmul_fieldInverse_of_ne_zero ha⟩⟩
  have hb : fieldInverse a = b := by
    rcases hab with hone | ⟨rfl, rfl⟩
    · exact gmul_inverse_unique (gmul_fieldInverse_of_ne_zero (ne_zero_of_gmul_eq_one hone)) hone
    · decide +kernel
  rw [← affineMap_fieldInverse, hb, affineMap]

end Sys2Proof.Proofs
end

section
/-! The forward cipher undoes the inverse cipher (R147), the key schedule obeys R141's recurrence, and AES_ECB_DEC
refuses a key by its length alone (R135). -/

namespace Sys2Proof.Proofs

open Machine

/-! ### The cipher -/

theorem mixColumn_invMixColumn (w : Column) : mixColumn (invMixColumn w) = w := by
  rw [invMixColumn_eq, mixColumn_order_four]

theorem mixColumns_invMixColumns (s : AesState) : mixColumns (invMixColumns s) = s := by
  simp only [mixColumns, invMixColumns, AesState.mapColumns, mixColumn_invMixColumn]

theorem subBytes_invSubBytes (s : AesState) : subBytes (invSubBytes s) = s := by
  simp only [subBytes, invSubBytes, AesState.mapColumns, Column.map, sbox_invSbox]

theorem shiftRows_invShiftRows (s : AesState) : shiftRows (invShiftRows s) = s := rfl

/-- The forward rounds take back the inverse rounds, the last first; between rounds the state stands before
`InvShiftRows`, where the inverse rounds begin (R146, R147). -/
theorem fwdRounds_invRounds (w : List Column) (n : Nat) (s : AesState) :
    shiftRows (subBytes (fwdRounds w n (invSubBytes (invShiftRows (invRounds w n s))))) = s := by
  induction n generalizing s with
  | zero => rw [invRounds, fwdRounds, subBytes_invSubBytes, shiftRows_invShiftRows]
  | succ n ih =>
    rw [invRounds, fwdRounds, ih, mixColumns_invMixColumns, addRoundKey_addRoundKey, subBytes_invSubBytes,
      shiftRows_invShiftRows]

/-- The forward cipher recovers the block that the inverse cipher took (R147). -/
theorem fwdCipher_invCipher (nr : Nat) {x : Bytes} (w : List Column) (h : x.length = 16) :
    fwdCipher nr (invCipher nr x w) w = x := by
  simp only [fwdCipher, invCipher, aesState_ofBytes_toBytes, addRoundKey_addRoundKey, fwdRounds_invRounds]
  exact aesState_toBytes_ofBytes h

/-- Settles O51: each step of a round undoes its counterpart, on either side. -/
theorem ciphersAreInverse : Obligations.CiphersAreInverse := by
  unfold Obligations.CiphersAreInverse
  exact fun nr _ w h => ⟨invCipher_fwdCipher nr w h, fwdCipher_invCipher nr w h⟩

/-! ### The key schedule -/

theorem length_expandWords (nk n : Nat) (w : List Column) : (expandWords nk n w).length = w.length + n := by
  induction n generalizing w with
  | zero => rfl
  | succ n ih =>
    rw [expandWords, ih, List.length_append, List.length_singleton]
    omega

theorem wordAt_append_left {w : List Column} {i : Nat} (h : i < w.length) (c : Column) :
    wordAt (w ++ [c]) i = wordAt w i :=
  List.getD_append _ _ _ _ h

theorem wordAt_append_length (w : List Column) (c : Column) : wordAt (w ++ [c]) w.length = c := by
  simp [wordAt]

/-- A word once made is not changed (R141). -/
theorem wordAt_expandWords_of_lt (nk n : Nat) {w : List Column} {i : Nat} (h : i < w.length) :
    wordAt (expandWords nk n w) i = wordAt w i := by
  induction n generalizing w with
  | zero => rfl
  | succ n ih =>
    rw [expandWords, ih (by rw [List.length_append]; omega), wordAt_append_left h]

/-- Every word behind the given ones is made from its predecessors by R141's rule. -/
theorem wordAt_expandWords {nk : Nat} (hnk : 0 < nk) (n : Nat) {w : List Column} {i : Nat} (hw : nk ≤ w.length)
    (hlo : w.length ≤ i) (hhi : i < w.length + n) :
    wordAt (expandWords nk n w) i =
      (wordAt (expandWords nk n w) (i - nk)).xor (scheduleTemp nk i (wordAt (expandWords nk n w) (i - 1))) := by
  induction n generalizing w with
  | zero => omega
  | succ n ih =>
    rw [expandWords]
    have hlen : ∀ c : Column, (w ++ [c]).length = w.length + 1 := fun c => List.length_append
    rcases hlo.eq_or_lt with rfl | hlt
    · rw [wordAt_expandWords_of_lt _ _ (by rw [hlen]; omega), wordAt_expandWords_of_lt _ _ (by rw [hlen]; omega),
        wordAt_expandWords_of_lt _ _ (by rw [hlen]; omega), wordAt_append_length, wordAt_append_left (by omega),
        wordAt_append_left (by omega)]
    · exact ih (by rw [hlen]; omega) (by rw [hlen]; omega) (by rw [hlen]; omega)

/-- The words a schedule starts from: the key's bytes four by four (R141). -/
def keyWords (nk : Nat) (key : Bytes) : List Column := (List.range nk).map fun i => Column.ofBytes key (4 * i)

theorem keyExpansion_eq (nk nr : Nat) (key : Bytes) :
    keyExpansion nk nr key = expandWords nk (4 * (nr + 1) - nk) (keyWords nk key) := rfl

theorem length_keyWords (nk : Nat) (key : Bytes) : (keyWords nk key).length = nk := by
  rw [keyWords, List.length_map, List.length_range]

theorem wordAt_keyWords {nk i : Nat} (key : Bytes) (h : i < nk) :
    wordAt (keyWords nk key) i = Column.ofBytes key (4 * i) := by
  simp [wordAt, keyWords, h]

/-- Each key length has a word, and a schedule longer than the key (R136). -/
theorem aesParams_bounds {n nk nr : Nat} (h : aesParams n = some (nk, nr)) : 0 < nk ∧ nk ≤ 4 * (nr + 1) := by
  rcases aesParams_eq_some h with rfl | rfl | rfl
  all_goals
    cases h
    decide

theorem length_keyExpansion {nk nr : Nat} (h : nk ≤ 4 * (nr + 1)) (key : Bytes) :
    (keyExpansion nk nr key).length = 4 * (nr + 1) := by
  rw [keyExpansion_eq, length_expandWords, length_keyWords]
  omega

theorem wordAt_keyExpansion_of_lt {nk i : Nat} (h : i < nk) (nr : Nat) (key : Bytes) :
    wordAt (keyExpansion nk nr key) i = Column.ofBytes key (4 * i) := by
  rw [keyExpansion_eq, wordAt_expandWords_of_lt _ _ (by rwa [length_keyWords]), wordAt_keyWords key h]

theorem wordAt_keyExpansion {nk nr i : Nat} (hnk : 0 < nk) (hlo : nk ≤ i) (hhi : i < 4 * (nr + 1)) (key : Bytes) :
    wordAt (keyExpansion nk nr key) i =
      (wordAt (keyExpansion nk nr key) (i - nk)).xor
        (scheduleTemp nk i (wordAt (keyExpansion nk nr key) (i - 1))) := by
  have hlen := length_keyWords nk key
  rw [keyExpansion_eq]
  exact wordAt_expandWords hnk _ (by omega) (by omega) (by omega)

theorem rcon_succ {j : Nat} (h : 1 ≤ j) : rcon (j + 1) = xtime (rcon j) := by
  cases j with
  | zero => omega
  | succ j => rfl

/-- Settles O55: a schedule is the key's words with further words behind them, each made by `scheduleTemp`'s rule. -/
theorem keyScheduleRecurrence : Obligations.KeyScheduleRecurrence := by
  unfold Obligations.KeyScheduleRecurrence
  refine ⟨fun keyLen nk nr key hparams => ?_, fun _ _ _ _ => ⟨rfl, rfl⟩, fun _ _ _ _ _ _ _ _ => rfl, rfl,
    fun _ => rcon_succ⟩
  obtain ⟨hnk, hlong⟩ := aesParams_bounds hparams
  exact ⟨length_keyExpansion hlong key, fun i hi => wordAt_keyExpansion_of_lt hi nr key,
    fun i hlo hhi => wordAt_keyExpansion hnk hlo hhi key⟩

/-! ### The refusal of a key -/

theorem aesEcbDec_of_aesParams_none {key : SuppliedKey} (h : aesParams key.len = none) (ct : Bytes) :
    aesEcbDec (some key) ct = .error .decryptFailed := by
  simp only [aesEcbDec, h]

theorem aesEcbDec_of_aesParams_some {key : SuppliedKey} {nk nr : Nat} (h : aesParams key.len = some (nk, nr))
    (ct : Bytes) : aesEcbDec (some key) ct = .ok (invCipher nr ct (keyExpansion nk nr key.bytes)) := by
  simp only [aesEcbDec, h]

/-- Settles O56: the parameters by the key's length decide, and no byte of the key does. -/
theorem decryptionFailsByKeyLengthAlone : Obligations.DecryptionFailsByKeyLengthAlone := by
  unfold Obligations.DecryptionFailsByKeyLengthAlone
  intro bytes ct
  exact ⟨rfl, fun _ h16 h24 h32 => aesEcbDec_of_aesParams_none (aesParams_eq_none h16 h24 h32) ct,
    aesEcbDec_of_aesParams_some rfl ct, aesEcbDec_of_aesParams_some rfl ct, aesEcbDec_of_aesParams_some rfl ct⟩

end Sys2Proof.Proofs
end

section
/-! The text-mode packet decoder: DEC_ENC_TEXT tests the key length, then the checksum of the decrypted block, and
delivers R150's record; DecU32 reads an identifier as its decimal value (R152), and B64Dec16 turns each group of four
characters into three bytes (R153). -/

namespace Sys2Proof.Proofs

open Machine

/-! ### The record -/

theorem le32_eq_leNumber {p : Bytes} {off : Nat} (h : off + 4 ≤ p.length) :
    le32 p off = BitVec.ofNat 32
      (Spec.leNumber (byteAt p off) (byteAt p (off + 1)) (byteAt p (off + 2)) (byteAt p (off + 3))) :=
  le32_eq h

/-- The record over a decrypted block is R150's. -/
theorem encTextRecord_eq (a b : Word32) {p : Bytes} (h : p.length = 16) :
    Machine.encTextRecord a b p = Spec.encTextRecord a b (byteAt p) := by
  have hlat := le32_eq_leNumber (show 0 + 4 ≤ p.length by omega)
  have hlon := le32_eq_leNumber (show 4 + 4 ≤ p.length by omega)
  have hmv := le16_eq (show 8 + 2 ≤ p.length by omega)
  rw [Machine.encTextRecord, hlat, hlon, hmv]
  rfl

/-! ### The row -/

/-- The response of the row once the block is decrypted goes by the checksum (R150). -/
theorem encTextResponse_of_aes_ok (a b : Word32) {blob p : Bytes} {key : Option SuppliedKey}
    (h : aesEcbDec key blob = .ok p) :
    encTextResponse a b blob key =
      if csumVerify p = true then decodedResponse .encryptedText (Machine.encTextRecord a b p)
      else failedResponse .checksumMismatch (some .encryptedText) := by
  rw [encTextResponse, decEncText, decryptChecked, h]
  cases hp : csumVerify p <;> simp [hp]

theorem exec_decEncText_of_illegal_key {s : State} (a b : Word32) (blob : Bytes) (h16 : s.req.keyLen ≠ 16)
    (h24 : s.req.keyLen ≠ 24) (h32 : s.req.keyLen ≠ 32) :
    exec (.decEncText a b blob) s = .next (s.deliver (Spec.failedAfter 4 3)) := by
  have hresp : encTextResponse a b blob s.req.key = Spec.failedAfter 4 3 := by
    rw [encTextResponse, decEncText, decryptChecked, aesEcbDec_of_illegal_key h16 h24 h32]
    rfl
  rw [← hresp]
  rfl

theorem exec_decEncText_of_legal_key {s : State} {nk nr : Nat} (a b : Word32) (blob : Bytes)
    (hkey : aesParams s.req.keyLen.toNat = some (nk, nr)) :
    let p := invCipher nr blob (keyExpansion nk nr (s.req.keyData.readBytes 0 s.req.keyLen.toNat))
    (¬ Spec.Intact (byteAt p) → exec (.decEncText a b blob) s = .next (s.deliver (Spec.failedAfter 5 3))) ∧
      (Spec.Intact (byteAt p) →
        exec (.decEncText a b blob) s =
          .next (s.deliver (Spec.okRecord 3 (Spec.encTextRecord a b (byteAt p))))) := by
  intro p
  have hexec : exec (.decEncText a b blob) s = .next (s.deliver (encTextResponse a b blob s.req.key)) := rfl
  rw [hexec, encTextResponse_of_aes_ok a b (aesEcbDec_of_legal_key hkey blob), intact_iff_csumVerify]
  constructor
  · intro hbad
    rw [if_neg hbad]
    rfl
  · intro hok
    rw [if_pos hok, encTextRecord_eq a b (length_invCipher _ _ _)]
    rfl

/-- Settles O29: the key length decides first, then the checksum of the decrypted block. -/
theorem decEncTextWhole : Obligations.DecEncTextWhole := by
  unfold Obligations.DecEncTextWhole
  intro s a b blob
  exact ⟨exec_decEncText_of_illegal_key a b blob, fun _ _ => exec_decEncText_of_legal_key a b blob⟩

/-! ### The identifiers -/

/-- Settles O37: DecU32 has a value exactly on the identifiers of the grammar. -/
theorem decimalIdentifierIsItsValue : Obligations.DecimalIdentifierIsItsValue := by
  unfold Obligations.DecimalIdentifierIsItsValue
  intro f
  exact ⟨fun _ => decU32_eq_some_iff, decU32_eq_none_of_not_isId⟩

/-! ### The blob, group by group -/

theorem b64Number_concat (g : Bytes) (c : Byte) : b64Number (g ++ [c]) = b64Number g * 64 + Spec.b64Value c := by
  rw [b64Number, List.foldl_append]
  rfl

theorem byteAt_append_of_lt {g : Bytes} (h : Bytes) {k : Nat} (hk : k < g.length) : byteAt (g ++ h) k = byteAt g k := by
  simp [byteAt, List.getD_eq_getElem?_getD, List.getElem?_append_left hk]

theorem byteAt_concat_length (g : Bytes) (c : Byte) : byteAt (g ++ [c]) g.length = c := by
  simp [byteAt, List.getD_eq_getElem?_getD]

/-- The digits of a run's number to the base 64 are the values of its characters (R153). -/
theorem b64Number_digit {g : Bytes} {k : Nat} (hk : k < g.length) :
    b64Number g / 64 ^ (g.length - 1 - k) % 64 = Spec.b64Value (byteAt g k) := by
  induction g using List.reverseRecOn with
  | nil => exact absurd hk (Nat.not_lt_zero k)
  | append_singleton g c ih =>
    have hc := b64Value_lt c
    rw [b64Number_concat, List.length_append, List.length_singleton, Nat.add_sub_cancel]
    rw [List.length_append, List.length_singleton] at hk
    obtain hlast | hlt : k = g.length ∨ k < g.length := by omega
    · rw [hlast, byteAt_concat_length, Nat.sub_self, Nat.pow_zero, Nat.div_one]
      omega
    · have hexp : g.length - k = g.length - 1 - k + 1 := by omega
      have hdrop : (b64Number g * 64 + Spec.b64Value c) / 64 = b64Number g := by omega
      rw [byteAt_append_of_lt _ hlt, ← ih hlt, hexp, Nat.pow_succ', ← Nat.div_div_eq_div_mul, hdrop]

/-- The bytes of a block, most significant first, as quotients (R153). -/
theorem byteAt_blockOfNat_toNat (n : Nat) {j : Nat} (hj : j < 16) :
    (byteAt (blockOfNat n) j).toNat = n / 256 ^ (15 - j) % 256 := by
  have hbyte : byteAt (blockOfNat n) j = BitVec.ofNat 8 (n >>> (8 * (15 - j))) := by
    simp [byteAt, blockOfNat, Config.blobLen, List.getD_eq_getElem?_getD, List.getElem?_range hj]
  rw [hbyte, BitVec.toNat_ofNat, Nat.shiftRight_eq_div_pow, pow_mul]
  rfl

/-- The value of a character of a blob, as a digit of the blob's number. -/
theorem b64Value_of_isBlob {f : Bytes} (h : Spec.IsBlob f) {k : Nat} (hk : k < 22) :
    Spec.b64Value (byteAt f k) = b64Number (f.take 22) / 64 ^ (21 - k) % 64 := by
  have hlen : (f.take 22).length = 22 := by rw [List.length_take, length_of_isBlob h]; rfl
  have htake : byteAt (f.take 22) k = byteAt f k := (byteAt_slice (off := 0) hk).trans (by rw [Nat.zero_add])
  have hdigit := b64Number_digit (hk.trans_eq hlen.symm)
  rw [hlen, htake] at hdigit
  exact hdigit.symm

/-- A byte of a decoded blob lies within the 24 bits that follow the characters cut off by `64 ^ m` (R153). -/
theorem byteAt_of_group {n j m b : Nat} (hj : j < 16) (hpos : 16 * 256 ^ (15 - j) = 64 ^ m * b) :
    (byteAt (blockOfNat (n / 16)) j).toNat = n / 64 ^ m / b % 256 := by
  rw [byteAt_blockOfNat_toNat _ hj, Nat.div_div_eq_div_mul, hpos, Nat.div_div_eq_div_mul]

/-- Four characters are three bytes: both are the same 24 bits of the number (R153). -/
theorem group_of_isBlob {f : Bytes} (h : Spec.IsBlob f) {g : Nat} (hg : g < 5) :
    let d : Nat → Nat := fun k => Spec.b64Value (byteAt f k)
    let blob := blockOfNat (b64Number (f.take 22) / 16)
    (byteAt blob (3 * g)).toNat = d (4 * g) * 4 + d (4 * g + 1) / 16 ∧
      (byteAt blob (3 * g + 1)).toNat = (d (4 * g + 1) % 16) * 16 + d (4 * g + 2) / 4 ∧
      (byteAt blob (3 * g + 2)).toNat = (d (4 * g + 2) % 4) * 64 + d (4 * g + 3) := by
  have hbytes : ∀ g < 5, 16 * 256 ^ (15 - 3 * g) = 64 ^ (18 - 4 * g) * 65536 ∧
      16 * 256 ^ (15 - (3 * g + 1)) = 64 ^ (18 - 4 * g) * 256 ∧
      16 * 256 ^ (15 - (3 * g + 2)) = 64 ^ (18 - 4 * g) * 1 := by decide
  have hchars : ∀ g < 5, 64 ^ (21 - 4 * g) = 64 ^ (18 - 4 * g) * 262144 ∧
      64 ^ (21 - (4 * g + 1)) = 64 ^ (18 - 4 * g) * 4096 ∧ 64 ^ (21 - (4 * g + 2)) = 64 ^ (18 - 4 * g) * 64 ∧
      64 ^ (21 - (4 * g + 3)) = 64 ^ (18 - 4 * g) * 1 := by decide
  obtain ⟨hb0, hb1, hb2⟩ := hbytes g hg
  obtain ⟨hd0, hd1, hd2, hd3⟩ := hchars g hg
  intro d blob
  simp only [d, blob, byteAt_of_group (by omega) hb0, byteAt_of_group (by omega) hb1, byteAt_of_group (by omega) hb2,
    b64Value_of_isBlob h (show 4 * g < 22 by omega), b64Value_of_isBlob h (show 4 * g + 1 < 22 by omega),
    b64Value_of_isBlob h (show 4 * g + 2 < 22 by omega), b64Value_of_isBlob h (show 4 * g + 3 < 22 by omega),
    hd0, hd1, hd2, hd3, ← Nat.div_div_eq_div_mul]
  omega

/-- The last two characters are byte 15 and four surplus bits (R153). -/
theorem last_of_isBlob {f : Bytes} (h : Spec.IsBlob f) :
    (byteAt (blockOfNat (b64Number (f.take 22) / 16)) 15).toNat =
      Spec.b64Value (byteAt f 20) * 4 + Spec.b64Value (byteAt f 21) / 16 := by
  rw [byteAt_blockOfNat_toNat _ (by decide), b64Value_of_isBlob h (by decide), b64Value_of_isBlob h (by decide)]
  omega

/-- Settles O38: a decoded blob is the block of its 22 characters' number, which the groups divide alike. -/
theorem base64GroupByGroup : Obligations.Base64GroupByGroup := by
  unfold Obligations.Base64GroupByGroup
  refine ⟨fun f => ⟨fun ⟨_, h⟩ => isBlob_of_b64Dec16 h, fun h => ⟨_, b64Dec16_of_isBlob h⟩⟩, fun f blob hdec => ?_⟩
  have hblob := isBlob_of_b64Dec16 hdec
  rw [b64Dec16_of_isBlob hblob] at hdec
  cases hdec
  exact ⟨length_blockOfNat _, fun _ => group_of_isBlob hblob, last_of_isBlob hblob⟩

end Sys2Proof.Proofs
end

section
/-! F32Value: the sign, the exponent and the fraction of a binary32 pattern, and the number they stand for (R155). -/

namespace Sys2Proof.Proofs

open Machine

/-- The number that a sign, an exponent and a fraction stand for (R155). -/
def fieldsReading (s e m : Nat) : Reading :=
  if e = 255 ∧ m = 0 then (if s = 0 then .posInf else .negInf)
  else if e = 255 then .nan
  else if e = 0 then
    (if m = 0 ∧ s ≠ 0 then .negZero else .rational (signFactor s * m / 2 ^ 149))
  else .rational (signFactor s * ((2 ^ 23 + m) * 2 ^ e) / 2 ^ 150)

/-- The three fields of a pattern are quotients and remainders of its number (R155). -/
theorem f32Value_eq_fieldsReading (w : Word32) :
    f32Value w = fieldsReading (w.toNat / 2 ^ 31) (w.toNat / 2 ^ 23 % 256) (w.toNat % 2 ^ 23) := by
  have hexp : ∀ n : Nat, n &&& 0xFF = n % 256 := fun n => Nat.and_two_pow_sub_one_eq_mod n 8
  have hfrac : ∀ n : Nat, n &&& 0x7FFFFF = n % 2 ^ 23 := fun n => Nat.and_two_pow_sub_one_eq_mod n 23
  simp only [f32Value, fieldsReading, Nat.shiftRight_eq_div_pow, hexp, hfrac]

/-- `(-1)^s` of a sign bit is a power (R155). -/
theorem signFactor_eq_pow {s : Nat} (h : s < 2) : signFactor s = (-1) ^ s := by
  obtain rfl | rfl : s = 0 ∨ s = 1 := by omega
  · rfl
  · rw [signFactor, if_neg (by decide), pow_one]

theorem sign_lt_two (w : Word32) : w.toNat / 2 ^ 31 < 2 := by
  have h := w.isLt
  omega

/-! ### The five cases -/

section

variable {s e m : Nat}

theorem fieldsReading_inf (he : e = 255) (hm : m = 0) :
    fieldsReading s e m = if s = 0 then .posInf else .negInf := if_pos ⟨he, hm⟩

theorem fieldsReading_nan (he : e = 255) (hm : m ≠ 0) : fieldsReading s e m = .nan := by
  rw [fieldsReading, if_neg fun h => hm h.2, if_pos he]

theorem fieldsReading_negZero (he : e = 0) (hm : m = 0) (hs : s ≠ 0) : fieldsReading s e m = .negZero := by
  have he255 : e ≠ 255 := by omega
  rw [fieldsReading, if_neg fun h => he255 h.1, if_neg he255, if_pos he, if_pos ⟨hm, hs⟩]

/-- Exponent 0: a multiple of the least positive number, `2^-149` (R155). -/
theorem fieldsReading_subnormal (he : e = 0) (hm : m ≠ 0 ∨ s = 0) (hs : s < 2) :
    fieldsReading s e m = .rational ((-1 : Rat) ^ s * m * (2 : Rat) ^ (-149 : Int)) := by
  have he255 : e ≠ 255 := by omega
  have hzero : ¬(m = 0 ∧ s ≠ 0) := by omega
  have hpow : (2 : Rat) ^ (-149 : Int) = (2 ^ 149)⁻¹ := zpow_neg 2 149
  rw [fieldsReading, if_neg fun h => he255 h.1, if_neg he255, if_pos he, if_neg hzero, signFactor_eq_pow hs, hpow,
    div_eq_mul_inv]

/-- Any other exponent: the fraction with its leading bit, scaled (R155). -/
theorem fieldsReading_normal (he : e ≠ 255) (he' : e ≠ 0) (hs : s < 2) :
    fieldsReading s e m = .rational ((-1 : Rat) ^ s * (2 ^ 23 + m) * (2 : Rat) ^ ((e : Int) - 150)) := by
  have hpow : (2 : Rat) ^ ((e : Int) - 150) = 2 ^ e / 2 ^ 150 := zpow_sub₀ two_ne_zero e 150
  rw [fieldsReading, if_neg fun h => he h.1, if_neg he, if_neg he', signFactor_eq_pow hs, hpow, ← mul_assoc,
    mul_div_assoc]

end

/-- Settles O59: the reading of the three fields of the pattern, case by case. -/
theorem binary32Reading : Obligations.Binary32Reading := by
  unfold Obligations.Binary32Reading
  intro w
  have hsign := sign_lt_two w
  dsimp only
  rw [f32Value_eq_fieldsReading]
  exact ⟨fieldsReading_inf, fieldsReading_nan, fun he hm hs => fieldsReading_negZero he hm (by omega),
    fun he hm => fieldsReading_subnormal he hm hsign, fun he he' => fieldsReading_normal he he' hsign⟩

end Sys2Proof.Proofs
end

section
/-! What an instruction and a step change: every instruction that answers delivers one response and leaves everything
else as it was (R164), so a step is the transaction of the oldest request and a run the list of them (R191, R195). -/

namespace Sys2Proof.Proofs

open Machine

/-! ### The frame of the instructions -/

/-- What a state becomes when the transaction in hand ends with some response. -/
def Delivers (s t : State) : Prop := ∃ a : Response, t = s.deliver a

theorem delivers_of_completeFromInput {s t : State} {n : Nat} {respond : Bytes → Response}
    (h : completeFromInput s n respond = .next t) : Delivers s t :=
  ⟨_, (completeFromInput_next h).2⟩

theorem delivers_of_complete {s t : State} {a : Response} (h : complete s a = .next t) : Delivers s t :=
  ⟨a, (Host.Outcome.next.inj h).symm⟩

/-- A leaf operation over the input that refuses some lengths (R66). -/
theorem delivers_of_raise_or_input {s t : State} {P : Prop} [Decidable P] {e : ErrorKind} {v : Option Variant} {n : Nat}
    {respond : Bytes → Response}
    (h : (if P then .next (s.raise e v) else completeFromInput s n respond) = Host.Outcome.next t) : Delivers s t := by
  split at h
  · exact ⟨_, (Host.Outcome.next.inj h).symm⟩
  · exact delivers_of_completeFromInput h

theorem delivers_of_runDecoder {s t : State} {c : PacketClass} (h : runDecoder s c = .next t) : Delivers s t := by
  cases c with
  | plaintextShort | plaintextExtended | encryptedBinary => exact delivers_of_completeFromInput h
  | encryptedText a b blob => exact delivers_of_complete h

/-- All that any instruction can do when it answers: deliver a response (R164). -/
theorem delivers_of_exec {i : Instr} {s t : State} (h : exec i s = .next t) : Delivers s t := by
  cases i with
  | decPlainShort | decPlainExt | decEncBin => exact delivers_of_completeFromInput h
  | decEncText | geoEnc | voltDec | voltEnc => exact delivers_of_complete h
  | geoDec | csumSum | csumVerify => exact delivers_of_raise_or_input h
  | decode kind len =>
    rcases withClass_next h with ⟨e, rfl⟩ | ⟨c, hc⟩
    · exact ⟨_, rfl⟩
    · exact delivers_of_runDecoder hc
  | classify kind len =>
    rcases withClass_next h with ⟨e, rfl⟩ | ⟨c, hc⟩
    · exact ⟨_, rfl⟩
    · exact delivers_of_complete hc

/-- Settles O19: a delivery sets the response ports and adds the response to those delivered. -/
theorem execWritesOnlyTheResponse : Obligations.ExecWritesOnlyTheResponse := by
  unfold Obligations.ExecWritesOnlyTheResponse
  intro i s t h
  obtain ⟨a, rfl⟩ := delivers_of_exec h
  exact ⟨rfl, fun _ _ => rfl, rfl, rfl, rfl⟩

/-! ### The step -/

theorem step_of_decode {s : State} {r : Request} {rest : List Request} {i : Instr} (hp : s.pending = r :: rest)
    (hdecode : decode (fetchBytes r) = .ok i) : step s = exec i (s.accept r rest) := by
  simp only [step, hp, hdecode]

/-- Settles O6: the step executes what the decoder reads of the request it takes, well-formed or not. -/
theorem stepRunsTheDecodedInstruction : Obligations.StepRunsTheDecodedInstruction := by
  unfold Obligations.StepRunsTheDecodedInstruction
  intro s r rest i hp hdecode _
  exact step_of_decode hp hdecode

/-- Settles O7: taking the request and delivering its transaction is all a step does. -/
theorem stepPerformsTheTransaction : Obligations.StepPerformsTheTransaction := by
  unfold Obligations.StepPerformsTheTransaction
  intro s r rest hp
  exact step_of_pending hp

/-- Settles O9: an idle step keeps the empty list, and any other takes the head of the list. -/
theorem everyStepCompletes : Obligations.EveryStepCompletes := by
  unfold Obligations.EveryStepCompletes
  intro s
  cases hp : s.pending with
  | nil => exact ⟨s.idle, step_of_idle hp, hp, rfl⟩
  | cons r rest => exact ⟨_, step_of_pending hp, rfl, rfl⟩

/-- Settles O18: after the reset event the request issued is the only one pending, and its transaction depends on the
state by the parameters alone, which a reset keeps. -/
theorem resetAbandonsWhatIsPending : Obligations.ResetAbandonsWhatIsPending := by
  unfold Obligations.ResetAbandonsWhatIsPending
  intro s r
  have hpending : (s.takeReset.issue r).pending = [r] := rfl
  exact ⟨rfl, rfl, rfl, _, step_of_pending hpending, rfl, rfl⟩

/-! ### The run -/

theorem run_succ_of_step {M : Host.Core} {s t : M.State} (k : Nat) (h : M.step s = .next t) :
    M.run (k + 1) s = M.run k t := by
  rw [Host.Core.run, h]

/-- The state the first step of a run over `r :: rs` leaves, with the requests `rs` pending (R191). -/
def afterFirst (s : State) (r : Request) (rs : List Request) : State :=
  ((s.loaded (r :: rs)).accept r rs).deliver (transaction s.params r)

/-- The first step of a run serves the first request, and the rest is a run from the state it leaves. -/
theorem run_cons (s : State) (r : Request) (rs : List Request) :
    Sys2Proof.core.run (r :: rs).length (s.loaded (r :: rs)) =
      Sys2Proof.core.run rs.length ((afterFirst s r rs).loaded rs) := by
  have hpending : (s.loaded (r :: rs)).pending = r :: rs := rfl
  exact run_succ_of_step rs.length (step_of_pending hpending)

/-- Settles O8, by induction on the requests: each step appends the transaction of the first one. -/
theorem runIsTheMapOfTheTransaction : Obligations.RunIsTheMapOfTheTransaction := by
  unfold Obligations.RunIsTheMapOfTheTransaction
  intro s rs
  induction rs generalizing s with
  | nil => exact ⟨s.loaded [], rfl, (List.append_nil _).symm, rfl, rfl⟩
  | cons r rs ih =>
    obtain ⟨t, hrun, hdelivered, hpending, hparams⟩ := ih (afterFirst s r rs)
    refine ⟨t, (run_cons s r rs).trans hrun, ?_, hpending, hparams⟩
    rw [hdelivered, List.map_cons, List.append_cons]
    rfl

end Sys2Proof.Proofs
end

section
/-! Why a transaction fails. R171 gives each error one condition on the request; a response with a status other than OK
is the failed response of R173 for the one condition that holds. -/

namespace Sys2Proof.Proofs

open Machine

/-! ### The terms of R171 -/

/-- The line fits the buffer and has the shape of a text line (R61, R171). -/
def Shaped (r : Request) : Prop :=
  r.inLen.toNat ≤ 64 ∧ ∃ d1 d2 f : Bytes, Spec.Shape (r.inData.readBytes 0 r.inLen.toNat) d1 d2 f

/-- The line has the shape of a text line, and its third part is a blob (R56, R171). -/
def Blobbed (r : Request) : Prop :=
  r.inLen.toNat ≤ 64 ∧ ∃ d1 d2 f : Bytes, Spec.Shape (r.inData.readBytes 0 r.inLen.toNat) d1 d2 f ∧ Spec.IsBlob f

/-- The block an encrypted transmission carries (R123, R150). -/
def ciphertext (r : Request) : Option Bytes :=
  match r.classified with
  | .ok .encryptedBinary => some (r.inData.readBytes 9 16)
  | .ok (.encryptedText _ _ blob) => some blob
  | .ok .plaintextShort | .ok .plaintextExtended | .error _ => none

/-- The key lengths of AES (R136). -/
def LegalKey (r : Request) : Prop := r.keyLen = 16 ∨ r.keyLen = 24 ∨ r.keyLen = 32

/-- The encrypted variant of a kind of transmission (R70, R71). -/
def encryptedVariant : InKind → Variant
  | .binary => .encryptedBinary
  | .text => .encryptedText

/-- R171's condition for each error, with the variant R173 keeps. -/
inductive Failure (r : Request) : ErrorKind → Option Variant → Prop
  | unrecognizedLength (hop : r.op = 0 ∨ r.op = 1)
      (hline : r.inKind = .binary ∧ r.inLen.toNat ≠ 15 ∧ r.inLen.toNat ≠ 18 ∧ r.inLen.toNat ≠ 25 ∨
        r.inKind = .text ∧ ¬ Shaped r) : Failure r .unrecognizedLength none
  | voltageOutOfRange (hop : r.op = 5) (hout : r.arg.toNat % 2 ^ 16 < 2700 ∨ 4200 < r.arg.toNat % 2 ^ 16) :
      Failure r .voltageOutOfRange none
  | base64Invalid (hop : r.op = 0 ∨ r.op = 1) (hkind : r.inKind = .text) (hshape : Shaped r) (hblob : ¬ Blobbed r) :
      Failure r .base64Invalid none
  | decryptFailed {ct : Bytes} (hop : r.op = 0) (hct : ciphertext r = some ct) (hkey : ¬ LegalKey r) :
      Failure r .decryptFailed (some (encryptedVariant r.inKind))
  | checksumMismatch {ct pt : Bytes} (hop : r.op = 0) (hkey : LegalKey r) (hct : ciphertext r = some ct)
      (haes : aesEcbDec r.key ct = .ok pt) (hbad : ¬ Spec.Intact (byteAt pt)) :
      Failure r .checksumMismatch (some (encryptedVariant r.inKind))
  | coordinateOutOfRange (hop : r.op = 3) (hout : Spec.roundedE4 r.arg < -8388608 ∨ 8388607 < Spec.roundedE4 r.arg) :
      Failure r .coordinateOutOfRange none
  | illegalRequest (hillegal : 8 ≤ r.op.toNat ∨ (r.op = 2 ∧ r.inLen.toNat ≠ 3) ∨
      (r.op = 6 ∧ 64 < r.inLen.toNat) ∨ (r.op = 7 ∧ r.inLen.toNat ≠ 16)) : Failure r .illegalRequest none

/-! ### Failing in classification -/

theorem classified_of_text {r : Request} (h : r.inKind = .text) :
    r.classified = classifyTxt r.inLen.toNat (r.inData.readBytes 0 r.inLen.toNat) := by
  have hclass : r.classified = classifyTxt r.inLen.toNat (r.input (min r.inLen.toNat Config.inBufBytes)) := by
    rw [Request.classified, h]
  rw [hclass]
  by_cases hlen : 64 < r.inLen.toNat
  · rw [classifyTxt_of_no_shape (.inl hlen), classifyTxt_of_no_shape (.inl hlen)]
  · have hmin : min r.inLen.toNat Config.inBufBytes = r.inLen.toNat := min_eq_left (not_lt.1 hlen)
    rw [hmin, Request.input]

theorem classified_of_not_shaped {r : Request} (hkind : r.inKind = .text) (h : ¬ Shaped r) :
    r.classified = .error .unrecognizedLength := by
  rw [classified_of_text hkind]
  exact classifyTxt_of_no_shape ((not_and_or.1 h).imp_left not_le.1)

theorem classified_of_not_blobbed {r : Request} (hkind : r.inKind = .text) (hshape : Shaped r) (hblob : ¬ Blobbed r) :
    r.classified = .error .base64Invalid := by
  obtain ⟨hlen, d1, d2, f, hparts⟩ := hshape
  rw [classified_of_text hkind]
  exact classifyTxt_of_not_isBlob hlen hparts fun hf => hblob ⟨hlen, d1, d2, f, hparts, hf⟩

theorem exists_classified_of_blobbed {r : Request} (hkind : r.inKind = .text) (h : Blobbed r) :
    ∃ c, r.classified = .ok c := by
  obtain ⟨hlen, d1, d2, f, hparts, hf⟩ := h
  obtain ⟨a, b, blob, hclass⟩ := exists_classifyTxt_of_isBlob hlen hparts hf
  exact ⟨_, (classified_of_text hkind).trans hclass⟩

theorem classified_of_other_length {r : Request} (hkind : r.inKind = .binary) (hPS : r.inLen.toNat ≠ 15)
    (hPX : r.inLen.toNat ≠ 18) (hEB : r.inLen.toNat ≠ 25) : r.classified = .error .unrecognizedLength :=
  (classified_of_binary hkind).trans (classifyBin_of_ne hPS hPX hEB)

/-- A binary transmission without a class has none of the three lengths (R70). -/
theorem length_of_unclassified {r : Request} {e : ErrorKind} (hkind : r.inKind = .binary)
    (h : r.classified = .error e) : r.inLen.toNat ≠ 15 ∧ r.inLen.toNat ≠ 18 ∧ r.inLen.toNat ≠ 25 := by
  rw [classified_of_binary hkind] at h
  refine ⟨fun hlen => ?_, fun hlen => ?_, fun hlen => ?_⟩ <;>
  · rw [hlen] at h
    cases h

/-- An error of the classification is that of the length, the shape or the third part (R70, R71). -/
theorem failure_of_unclassified {r : Request} {e : ErrorKind} (hop : r.op = 0 ∨ r.op = 1)
    (h : r.classified = .error e) : Failure r e none := by
  cases hkind : r.inKind with
  | binary =>
    obtain ⟨hPS, hPX, hEB⟩ := length_of_unclassified hkind h
    cases h.symm.trans (classified_of_other_length hkind hPS hPX hEB)
    exact .unrecognizedLength hop (.inl ⟨hkind, hPS, hPX, hEB⟩)
  | text =>
    by_cases hshape : Shaped r
    · have hblob : ¬ Blobbed r := by
        intro hblob
        obtain ⟨c, hc⟩ := exists_classified_of_blobbed hkind hblob
        cases h.symm.trans hc
      cases h.symm.trans (classified_of_not_blobbed hkind hshape hblob)
      exact .base64Invalid hop hkind hshape hblob
    · cases h.symm.trans (classified_of_not_shaped hkind hshape)
      exact .unrecognizedLength hop (.inr ⟨hkind, hshape⟩)

/-! ### Failing in decryption -/

theorem kind_of_encryptedBinary {r : Request} (h : r.classified = .ok .encryptedBinary) : r.inKind = .binary := by
  cases hkind : r.inKind with
  | binary => rfl
  | text =>
    rw [classified_of_text hkind] at h
    obtain ⟨a, b, blob, hc, -⟩ := classifyTxt_ok h
    cases hc

theorem kind_of_encryptedText {r : Request} {a b : Word32} {blob : Bytes}
    (h : r.classified = .ok (.encryptedText a b blob)) : r.inKind = .text := by
  cases hkind : r.inKind with
  | text => rfl
  | binary =>
    rw [classified_of_binary hkind, classifyBin] at h
    split_ifs at h <;> cases h

/-- A transmission with a ciphertext is of one of the two encrypted classes (R75). -/
theorem ciphertext_cases {r : Request} {ct : Bytes} (h : ciphertext r = some ct) :
    (r.classified = .ok .encryptedBinary ∧ ct = r.inData.readBytes 9 16) ∨
      ∃ a b, r.classified = .ok (.encryptedText a b ct) := by
  unfold ciphertext at h
  split at h
  next hc => exact .inl ⟨hc, (Option.some.inj h).symm⟩
  next hc => cases h; exact .inr ⟨_, _, hc⟩
  all_goals cases h

theorem decEncBin_eq_error_iff {prm : Params} {key : Option SuppliedKey} {m : Memory} {e : ErrorKind} :
    decEncBin prm key (m.readBytes 0 25) = .error e ↔ decryptChecked key (m.readBytes 9 16) = .error e := by
  rw [decEncBin, slice_ciphertext]
  cases decryptChecked key (m.readBytes 9 16) <;> simp

theorem decEncText_eq_error_iff {a b : Word32} {blob : Bytes} {key : Option SuppliedKey} {e : ErrorKind} :
    decEncText a b blob key = .error e ↔ decryptChecked key blob = .error e := by
  rw [decEncText]
  cases decryptChecked key blob <;> simp

/-- Where decryption or its check fails, so does DECODE, and it keeps the variant (R73, R173). -/
theorem decodeTransaction_of_decrypt_error (prm : Params) {r : Request} {ct : Bytes} {e : ErrorKind}
    (hct : ciphertext r = some ct) (h : decryptChecked r.key ct = .error e) :
    decodeTransaction prm r = failedResponse e (some (encryptedVariant r.inKind)) := by
  rcases ciphertext_cases hct with ⟨hc, rfl⟩ | ⟨a, b, hc⟩
  · have hrec : decodeClass prm r .encryptedBinary = .error e := decEncBin_eq_error_iff.2 h
    rw [decodeTransaction_of_ok _ hc, hrec, kind_of_encryptedBinary hc]
    rfl
  · have hrec : decodeClass prm r (.encryptedText a b ct) = .error e := decEncText_eq_error_iff.2 h
    rw [decodeTransaction_of_ok _ hc, hrec, kind_of_encryptedText hc]
    rfl

/-- Only decryption and its check fail in a decoder (R115, R123, R150). -/
theorem decrypt_error_of_decodeClass {prm : Params} {r : Request} {c : PacketClass} {e : ErrorKind}
    (hc : r.classified = .ok c) (h : decodeClass prm r c = .error e) :
    ∃ ct, ciphertext r = some ct ∧ decryptChecked r.key ct = .error e := by
  cases c with
  | plaintextShort | plaintextExtended => cases h
  | encryptedBinary =>
    have hct : ciphertext r = some (r.inData.readBytes 9 16) := by rw [ciphertext, hc]
    exact ⟨_, hct, decEncBin_eq_error_iff.1 h⟩
  | encryptedText a b blob =>
    have hct : ciphertext r = some blob := by rw [ciphertext, hc]
    exact ⟨_, hct, decEncText_eq_error_iff.1 h⟩

theorem aesEcbDec_of_not_legalKey {r : Request} (h : ¬ LegalKey r) (ct : Bytes) :
    aesEcbDec r.key ct = .error .decryptFailed := by
  obtain ⟨h16, h24, h32⟩ : r.keyLen ≠ 16 ∧ r.keyLen ≠ 24 ∧ r.keyLen ≠ 32 := by simpa only [LegalKey, not_or] using h
  exact aesEcbDec_of_illegal_key h16 h24 h32 ct

theorem exists_aesEcbDec_of_legalKey {r : Request} (h : LegalKey r) (ct : Bytes) :
    ∃ pt, aesEcbDec r.key ct = .ok pt := by
  obtain ⟨nk, nr, hparams⟩ : ∃ nk nr, aesParams r.keyLen.toNat = some (nk, nr) := by
    rcases h with h | h | h <;> exact ⟨_, _, by rw [h]; rfl⟩
  exact ⟨_, aesEcbDec_of_legal_key hparams ct⟩

/-- Which of the two errors decryption gives: the key length decides first, then the checksum (R123, R150). -/
theorem failure_of_decrypt_error {r : Request} {ct : Bytes} {e : ErrorKind} (hop : r.op = 0)
    (hct : ciphertext r = some ct) (h : decryptChecked r.key ct = .error e) :
    Failure r e (some (encryptedVariant r.inKind)) := by
  rcases decryptChecked_error h with ⟨rfl, haes⟩ | ⟨rfl, pt, haes, hcsum⟩
  · refine .decryptFailed hop hct fun hkey => ?_
    obtain ⟨pt, hpt⟩ := exists_aesEcbDec_of_legalKey hkey ct
    cases haes.symm.trans hpt
  · have hkey : LegalKey r := by
      by_contra hkey
      cases haes.symm.trans (aesEcbDec_of_not_legalKey hkey ct)
    refine .checksumMismatch hop hkey hct haes fun hintact => ?_
    rw [intact_iff_csumVerify, hcsum] at hintact
    cases hintact

/-! ### Failing in a leaf operation -/

theorem geoEncResponse_of_out_of_range {arg : Word32}
    (h : Spec.roundedE4 arg < -8388608 ∨ 8388607 < Spec.roundedE4 arg) :
    geoEncResponse arg = failedResponse .coordinateOutOfRange none := by
  rw [geoEncResponse, geoEnc_eq_geoSplit, geoSplit_of_out_of_range h, responseOf_error]

theorem geoEncResponse_status_of_in_range {arg : Word32} (hmin : -8388608 ≤ Spec.roundedE4 arg)
    (hmax : Spec.roundedE4 arg ≤ 8388607) : (geoEncResponse arg).status = 0 := by
  obtain ⟨b, hsplit, -⟩ := exists_geoSplit hmin hmax
  rw [geoEncResponse, geoEnc_eq_geoSplit, hsplit]
  rfl

/-! ### The failed response and its condition -/

theorem transaction_of_unclassified (prm : Params) {r : Request} {e : ErrorKind} (hop : r.op = 0 ∨ r.op = 1)
    (h : r.classified = .error e) : transaction prm r = failedResponse e none := by
  rcases hop with hop | hop <;> rw [transaction, hop]
  · exact decodeTransaction_of_error prm h
  · exact congrArg (responseOf none fun c => classifiedResponse (classVariant c)) h

/-- Under R171's condition for an error the transaction is R173's response for it. -/
theorem transaction_of_failure (prm : Params) {r : Request} {e : ErrorKind} {v : Option Variant}
    (h : Failure r e v) : transaction prm r = failedResponse e v := by
  cases h with
  | unrecognizedLength hop hline =>
    rcases hline with ⟨hkind, hPS, hPX, hEB⟩ | ⟨hkind, hshape⟩
    · exact transaction_of_unclassified prm hop (classified_of_other_length hkind hPS hPX hEB)
    · exact transaction_of_unclassified prm hop (classified_of_not_shaped hkind hshape)
  | voltageOutOfRange hop hout => rw [transaction, hop]; exact voltEncResponse_of_out_of_range hout
  | base64Invalid hop hkind hshape hblob =>
    exact transaction_of_unclassified prm hop (classified_of_not_blobbed hkind hshape hblob)
  | decryptFailed hop hct hkey =>
    have haes := aesEcbDec_of_not_legalKey hkey
    rw [transaction, hop]
    exact decodeTransaction_of_decrypt_error prm hct (by rw [decryptChecked_eq, haes])
  | checksumMismatch hop hkey hct haes hbad =>
    rw [intact_iff_csumVerify] at hbad
    rw [transaction, hop]
    exact decodeTransaction_of_decrypt_error prm hct (by simp only [decryptChecked_eq, haes, if_neg hbad])
  | coordinateOutOfRange hop hout => rw [transaction, hop]; exact geoEncResponse_of_out_of_range hout
  | illegalRequest hillegal =>
    have hne : ∀ n : BitVec 16, r.inLen ≠ n ↔ r.inLen.toNat ≠ n.toNat := fun _ => BitVec.toNat_ne
    exact transaction_of_illegal prm (by rw [hne 3, hne 16]; exact hillegal)

theorem decodeTransaction_failure {prm : Params} {r : Request} (hop : r.op = 0)
    (h : (decodeTransaction prm r).status ≠ 0) : ∃ e v, Failure r e v := by
  cases hc : r.classified with
  | error e => exact ⟨e, none, failure_of_unclassified (.inl hop) hc⟩
  | ok c =>
    cases hrec : decodeClass prm r c with
    | error e =>
      obtain ⟨ct, hct, hdecrypt⟩ := decrypt_error_of_decodeClass hc hrec
      exact ⟨e, _, failure_of_decrypt_error hop hct hdecrypt⟩
    | ok rec =>
      rw [decodeTransaction_of_ok prm hc, hrec] at h
      exact absurd rfl h

theorem classifyTransaction_failure {r : Request} (hop : r.op = 1) (h : (classifyTransaction r).status ≠ 0) :
    ∃ e v, Failure r e v := by
  cases hc : r.classified with
  | error e => exact ⟨e, none, failure_of_unclassified (.inr hop) hc⟩
  | ok c =>
    rw [classifyTransaction, hc] at h
    exact absurd rfl h

/-- A leaf operation that is legal under a condition fails only where the condition does (R66). -/
theorem not_of_status_ite {P : Prop} [Decidable P] {a b : Response} (ha : a.status = 0)
    (h : (if P then a else b).status ≠ 0) : ¬ P :=
  fun hP => h (by rw [if_pos hP, ha])

/-- A status other than OK has its condition of R171. -/
theorem exists_failure_of_status (prm : Params) (r : Request) :
    (transaction prm r).status ≠ 0 → ∃ e v, Failure r e v := by
  unfold transaction
  match hop : r.op.toNat with
  | 0 => exact decodeTransaction_failure (op_eq_zero hop)
  | 1 => exact classifyTransaction_failure (op_eq_one hop)
  | 2 =>
    intro h
    have hlen := not_of_status_ite rfl h
    exact ⟨_, _, .illegalRequest (.inr (.inl ⟨BitVec.eq_of_toNat_eq hop, hlen⟩))⟩
  | 3 =>
    intro h
    refine ⟨_, _, .coordinateOutOfRange (BitVec.eq_of_toNat_eq hop) ?_⟩
    by_contra hin
    exact h (geoEncResponse_status_of_in_range (by omega) (by omega))
  | 4 => exact fun h => absurd rfl h
  | 5 =>
    intro h
    refine ⟨_, _, .voltageOutOfRange (BitVec.eq_of_toNat_eq hop) ?_⟩
    by_contra hin
    exact h (congrArg Response.status (voltEncResponse_of_in_range (by omega) (by omega)))
  | 6 =>
    intro h
    have hlen := not_of_status_ite rfl h
    exact ⟨_, _, .illegalRequest (.inr (.inr (.inl ⟨BitVec.eq_of_toNat_eq hop, not_le.1 hlen⟩)))⟩
  | 7 =>
    intro h
    have hlen := not_of_status_ite rfl h
    exact ⟨_, _, .illegalRequest (.inr (.inr (.inr ⟨BitVec.eq_of_toNat_eq hop, hlen⟩)))⟩
  | n + 8 => exact fun _ => ⟨_, _, .illegalRequest (.inl (by omega))⟩

theorem failedResponse_status (e : ErrorKind) (v : Option Variant) : (failedResponse e v).status = errorCode e := by
  cases v <;> rfl

theorem errorCode_injective : Function.Injective errorCode := by
  intro e e' h
  revert h
  cases e <;> cases e' <;> decide

/-- A transaction has the code of an error exactly under the error's condition (R171). -/
theorem status_eq_errorCode_iff (prm : Params) (r : Request) (e : ErrorKind) :
    (transaction prm r).status = errorCode e ↔ ∃ v, Failure r e v := by
  constructor
  · intro h
    obtain ⟨e', v, hfail⟩ := exists_failure_of_status prm r (h ▸ errorCode_ne_zero e)
    rw [transaction_of_failure prm hfail, failedResponse_status] at h
    exact ⟨v, errorCode_injective h ▸ hfail⟩
  · rintro ⟨v, hfail⟩
    rw [transaction_of_failure prm hfail, failedResponse_status]

/-- Settles O22: the condition of each error is the one way a transaction comes to have its code. -/
theorem exactErrorConditions : Obligations.ExactErrorConditions := by
  unfold Obligations.ExactErrorConditions
  intro p r
  have hcode := status_eq_errorCode_iff p r
  refine ⟨(hcode .unrecognizedLength).trans ?unrecognizedLength, (hcode .voltageOutOfRange).trans ?voltageOutOfRange,
    (hcode .base64Invalid).trans ?base64Invalid, (hcode .decryptFailed).trans ?decryptFailed,
    (hcode .checksumMismatch).trans ?checksumMismatch, (hcode .coordinateOutOfRange).trans ?coordinateOutOfRange,
    (hcode .illegalRequest).trans ?illegalRequest⟩
  case unrecognizedLength =>
    exact ⟨fun ⟨_, .unrecognizedLength hop hline⟩ => ⟨hop, hline⟩,
      fun ⟨hop, hline⟩ => ⟨_, .unrecognizedLength hop hline⟩⟩
  case voltageOutOfRange =>
    exact ⟨fun ⟨_, .voltageOutOfRange hop hout⟩ => ⟨hop, hout⟩,
      fun ⟨hop, hout⟩ => ⟨_, .voltageOutOfRange hop hout⟩⟩
  case base64Invalid =>
    exact ⟨fun ⟨_, .base64Invalid hop hkind hshape hblob⟩ => ⟨hop, hkind, hshape, hblob⟩,
      fun ⟨hop, hkind, hshape, hblob⟩ => ⟨_, .base64Invalid hop hkind hshape hblob⟩⟩
  case decryptFailed =>
    exact ⟨fun ⟨_, .decryptFailed hop hct hkey⟩ => ⟨hop, ⟨_, hct⟩, hkey⟩,
      fun ⟨hop, ⟨_, hct⟩, hkey⟩ => ⟨_, .decryptFailed hop hct hkey⟩⟩
  case checksumMismatch =>
    exact ⟨fun ⟨_, .checksumMismatch hop hkey hct haes hbad⟩ => ⟨hop, hkey, _, _, hct, haes, hbad⟩,
      fun ⟨hop, hkey, _, _, hct, haes, hbad⟩ => ⟨_, .checksumMismatch hop hkey hct haes hbad⟩⟩
  case coordinateOutOfRange =>
    exact ⟨fun ⟨_, .coordinateOutOfRange hop hout⟩ => ⟨hop, hout⟩,
      fun ⟨hop, hout⟩ => ⟨_, .coordinateOutOfRange hop hout⟩⟩
  case illegalRequest =>
    exact ⟨fun ⟨_, .illegalRequest hillegal⟩ => hillegal, fun hillegal => ⟨_, .illegalRequest hillegal⟩⟩

/-! ### What a failed response carries -/

/-- A failed response has no record and no result (R173). -/
theorem failedResponse_empty (e : ErrorKind) (v : Option Variant) :
    (failedResponse e v).recValid = false ∧ (failedResponse e v).record = Record.zero ∧
      (failedResponse e v).res = 0 := by
  cases v <;> exact ⟨rfl, rfl, rfl⟩

/-- The variant is kept where decryption or its check failed, and nowhere else (R173). -/
theorem failure_variantValid_iff {r : Request} {e : ErrorKind} {v : Option Variant} (h : Failure r e v) :
    (failedResponse e v).variantValid = true ↔ (failedResponse e v).status = 4 ∨ (failedResponse e v).status = 5 := by
  cases h with
  | decryptFailed => exact iff_of_true rfl (.inl rfl)
  | checksumMismatch => exact iff_of_true rfl (.inr rfl)
  | unrecognizedLength | voltageOutOfRange | base64Invalid | coordinateOutOfRange | illegalRequest =>
    exact iff_of_false Bool.false_ne_true (by decide)

theorem variantCode_encryptedVariant (kind : InKind) :
    variantCode (encryptedVariant kind) = if kind = .binary then 2 else 3 := by
  cases kind <;> rfl

/-- A variant kept is the encrypted one of the kind of transmission, and the request was a DECODE (R173). -/
theorem failure_variant {r : Request} {e : ErrorKind} {v : Option Variant} (h : Failure r e v)
    (hv : (failedResponse e v).variantValid = true) :
    r.op = 0 ∧ (failedResponse e v).variant = if r.inKind = .binary then 2 else 3 := by
  cases h with
  | decryptFailed hop => exact ⟨hop, variantCode_encryptedVariant _⟩
  | checksumMismatch hop => exact ⟨hop, variantCode_encryptedVariant _⟩
  | unrecognizedLength | voltageOutOfRange | base64Invalid | coordinateOutOfRange | illegalRequest => cases hv

/-- Settles O21: a status other than OK makes the answer the failed response of one of R171's conditions. -/
theorem failedResponsesCarryNoRecord : Obligations.FailedResponsesCarryNoRecord := by
  unfold Obligations.FailedResponsesCarryNoRecord
  intro s r rest hp
  refine ⟨_, step_of_pending hp, fun hstatus => ?_⟩
  rw [State.deliver_resp] at hstatus ⊢
  have ha := transaction_answer s.params r
  obtain ⟨e, v, hfail⟩ := exists_failure_of_status s.params r hstatus
  rw [transaction_of_failure s.params hfail] at ha ⊢
  obtain ⟨hrecValid, hrecord, hres⟩ := failedResponse_empty e v
  exact ⟨hrecValid, hrecord, hres, failure_variantValid_iff hfail, failure_variant hfail, answer_variant_eq_zero ha⟩

end Sys2Proof.Proofs
end
